-- ==== Sys2Proof/Word.lean ====
section
/-! DEFINITION. The word types of the block: a byte (R14), the 32-bit checksum word (R32) and a
vector of Huffman code lengths read as naturals (41_huffman_tables.md, "Notation"). -/

namespace Sys2Proof

/-- The addressable unit of `IN`, `OUT` and `W` (R50): one byte. -/
abbrev Byte := BitVec 8

/-- A 32-bit word: the checksum accumulator `ck` (R32) and the trailer value (R82). -/
abbrev Word32 := BitVec 32

/-- A code `X`: the code length of every symbol, indexed by symbol; 0 means "symbol unused"
(R28). The decode rules read the lengths as natural numbers, so this is the form they take. -/
abbrev Lengths := List Nat

end Sys2Proof
end

