-- ==== Sys2Proof/Config.lean ====
section
/-! DEFINITION. What one instance of the block fixes: the two configuration operands of RESET
(R6, R8), the primary-table prefix widths (R7), the format constants (R9), and the OPEN parameters
of the spec (`BUF_MAX`, R11; the RAW checksum, R12) as constants without a value. -/

namespace Sys2Proof

/-- `CFG`: the table-size configuration (R6). -/
inductive Cfg where
  | fast
  | small
deriving DecidableEq, Repr

/-- `WRAP`: the stream wrapper (R8). -/
inductive Wrap where
  | raw
  | zlib
deriving DecidableEq, Repr

namespace Config

/-- `LL_PREFIX`: the index width of the literal/length primary table (R7, decision D6). -/
def llPrefix : Cfg → Nat
  | .fast => 12
  | .small => 9

/-- `D_PREFIX`: the index width of the distance primary table (R7, decision D6). -/
def dPrefix : Cfg → Nat
  | .fast => 9
  | .small => 6

/-- `CL_PREFIX`: the index width of the code-length primary table (R7, decision D6). -/
def clPrefix : Cfg → Nat
  | .fast => 7
  | .small => 7

/-- `WINDOW`: the size of the window `W` in bytes and the largest distance (R9). -/
def window : Nat := 32768

/-- `MAXLEN`: the longest literal/length or distance code word (R9). -/
def maxLen : Nat := 15

/-- `CL_MAXLEN`: the longest code word of the code-length code (R9). -/
def clMaxLen : Nat := 7

/-- `MAX_FIELD`: the widest fixed-width field read at once (R9). -/
def maxField : Nat := 16

/-- The OPEN part of `BUF_MAX` (R11, I8): "any bound at least 1 is legal". No value is given, so
nothing can be proved of it (assumption log 3). -/
opaque bufMaxPred : Nat

/-- `BUF_MAX`: the longest input slice or output buffer of one call (R11, R267). -/
def bufMax : Nat := bufMaxPred + 1

/-- `CK_INIT` for `WRAP = RAW`: an OPEN parameter (R12, R240, decision D19; assumption log 4). -/
opaque ckInitRaw : Word32

/-- `CK_FOLD` for `WRAP = RAW`: an OPEN parameter (R12, R240, decision D19; assumption log 4). -/
opaque ckFoldRaw : Word32 → Byte → Word32

/-- The identity string of one instance (R3): `deflate_bit_reader/<CFG>/<WRAP>`. -/
def identity (cfg : Cfg) (wrap : Wrap) : String :=
  "deflate_bit_reader/" ++ (match cfg with | .fast => "FAST" | .small => "SMALL") ++ "/" ++
    (match wrap with | .raw => "RAW" | .zlib => "ZLIB")

end Config

end Sys2Proof
end

