-- ==== Sys2Proof/Machine/Flags.lean ====
section
/-! DEFINITION. Every flag, status and checksum computation: the error codes (R300), the zlib
header check (R244), the stored-length check (R152) and the checksum collaborator (R240, R246). -/

namespace Sys2Proof.Machine

/-- The seven errors of the block: a closed set (R300). -/
inductive Err where
  | malformedHeader
  | malformedHuffmanTable
  | malformedStoredLength
  | invalidSymbol
  | invalidDistance
  | truncatedInput
  | checksumMismatch
deriving DecidableEq, Repr

/-- The 3-bit code of an error (R300). Code 0 is Ok and no error uses it. -/
def Err.code : Err → BitVec 3
  | .malformedHeader => 1
  | .malformedHuffmanTable => 2
  | .malformedStoredLength => 3
  | .invalidSymbol => 4
  | .invalidDistance => 5
  | .truncatedInput => 6
  | .checksumMismatch => 7

/-- The status code of a call that ended without an error (R264, R300). -/
def statusOk : BitVec 3 := 0

/-- `header_bad(cmf, flg)` (R244): FCHECK, CM, CINFO or FDICT fails. FLEVEL is ignored (R73). -/
def headerBad (cmf flg : Byte) : Bool :=
  decide ((cmf.toNat * 256 + flg.toNat) % 31 ≠ 0) ||
  decide (cmf.toNat % 16 ≠ 8) ||
  decide (cmf.toNat / 16 > 7) ||
  flg.getLsbD 5

/-- NLEN is the one's complement of LEN (R76, R152). -/
def storedLengthOk (len nlen : BitVec 16) : Bool := decide (nlen = len ^^^ 0xFFFF#16)

/-- The modulus of Adler-32 (R240). -/
def adlerMod : Nat := 65521

/-- One fold of Adler-32 (R240): both halves are reduced modulo 65521. -/
def adlerFold (ck : Word32) (b : Byte) : Word32 :=
  let s1 := (ck.toNat % 65536 + b.toNat) % adlerMod
  let s2 := (ck.toNat / 65536 + s1) % adlerMod
  BitVec.ofNat 32 (s2 * 65536 + s1)

/-- `CK_INIT` (R12, R240): 1 for Adler-32, the OPEN constant for RAW. -/
def ckInit : Wrap → Word32
  | .zlib => 1
  | .raw => Config.ckInitRaw

/-- `CK_FOLD` (R12, R240): Adler-32 for ZLIB, the OPEN function for RAW. -/
def ckFold : Wrap → Word32 → Byte → Word32
  | .zlib, ck, b => adlerFold ck b
  | .raw, ck, b => Config.ckFoldRaw ck b

/-- The trailer value `B0 << 24 | B1 << 16 | B2 << 8 | B3`, most significant byte first
(R55, R82, R245). -/
def trailerValue (b0 b1 b2 b3 : Byte) : Word32 := b0 ++ b1 ++ b2 ++ b3

end Sys2Proof.Machine
end

