-- ==== Sys2Proof/Machine/Operands.lean ====
section
/-! DEFINITION. Every operand form of the stream: bit windows and fields (R13, R72), the result of
a peek (R100, R105), the code-length order (R78), the length and distance base and extra tables
(R193, R194), and the layout of the code lengths (R161). -/

namespace Sys2Proof.Machine

/-- What a peek at the known bits answers: a value, a want of more bits (R100 "insufficient
data"), or an error that the bits already known decide. -/
inductive Peek (α : Type) where
  | got (a : α)
  | needMore
  | bad (e : Err)
deriving DecidableEq, Repr

namespace Peek

/-- Sequencing of peeks inside one element: every read is a peek (R101). -/
def bind {α β : Type} (p : Peek α) (f : α → Peek β) : Peek β :=
  match p with
  | .got a => f a
  | .needMore => .needMore
  | .bad e => .bad e

end Peek

/-- The n-bit field of window `v` at offset `o`, first stream bit least significant (R13, R72). -/
def field (v o n : Nat) : Nat := (v >>> o) % 2 ^ n

/-- `rev_n(v)` (R13): the reversal of the low n bits of `v`. -/
def rev : Nat → Nat → Nat
  | 0, _ => 0
  | n + 1, v => v % 2 * 2 ^ n + rev n (v / 2)

/-- `bits(o, n)` on a window `v` of which `k` bits are known (R105): the field, if all of it is
known. -/
def bitsAt (v k o n : Nat) : Peek Nat :=
  if o + n ≤ k then .got (field v o n) else .needMore

/-- An extra field: read by `bits` when it has a width, the value 0 when it has none
(R105 corner case, R195). -/
def extraAt (v k o n : Nat) : Peek Nat :=
  if n = 0 then .got 0 else bitsAt v k o n

/-- `CL_ORDER` (R78): the order in which the code-length-code lengths stand in the stream. -/
def clOrder : List Nat := [16, 17, 18, 0, 8, 7, 9, 6, 10, 5, 11, 4, 12, 3, 13, 2, 14, 1, 15]

/-- `LEN_BASE` (R193), indexed by `s − 257`. -/
def lenBaseTable : List Nat :=
  [3, 4, 5, 6, 7, 8, 9, 10, 11, 13, 15, 17, 19, 23, 27, 31, 35, 43, 51, 59, 67, 83, 99, 115, 131,
    163, 195, 227, 258]

/-- `LEN_EXTRA` (R193), indexed by `s − 257`. -/
def lenExtraTable : List Nat :=
  [0, 0, 0, 0, 0, 0, 0, 0, 1, 1, 1, 1, 2, 2, 2, 2, 3, 3, 3, 3, 4, 4, 4, 4, 5, 5, 5, 5, 0]

/-- `DIST_BASE` (R194). -/
def distBaseTable : List Nat :=
  [1, 2, 3, 4, 5, 7, 9, 13, 17, 25, 33, 49, 65, 97, 129, 193, 257, 385, 513, 769, 1025, 1537, 2049,
    3073, 4097, 6145, 8193, 12289, 16385, 24577]

/-- `DIST_EXTRA` (R194). -/
def distExtraTable : List Nat :=
  [0, 0, 0, 0, 1, 1, 2, 2, 3, 3, 4, 4, 5, 5, 6, 6, 7, 7, 8, 8, 9, 9, 10, 10, 11, 11, 12, 12, 13, 13]

/-- `LEN_BASE[s − 257]`. -/
def lenBase (sym : Nat) : Nat := lenBaseTable.getD (sym - 257) 0

/-- `LEN_EXTRA[s − 257]`; a symbol below 257 has no extra field (R80). -/
def lenExtra (sym : Nat) : Nat := if sym < 257 then 0 else lenExtraTable.getD (sym - 257) 0

/-- `DIST_BASE[t]`. -/
def distBase (sym : Nat) : Nat := distBaseTable.getD sym 0

/-- `DIST_EXTRA[t]`; symbols 30 and 31 have no extra field (R81). -/
def distExtra (sym : Nat) : Nat := distExtraTable.getD sym 0

/-- The width of the extra field of a code-length symbol (R79). -/
def clExtra : Nat → Nat
  | 16 => 2
  | 17 => 3
  | 18 => 7
  | _ => 0

/-- A vector of 4-bit code lengths as naturals. -/
def lengthsOf {n w : Nat} (x : Vector (BitVec w) n) : Lengths := x.toList.map BitVec.toNat

/-- `x[i]` as a natural: the code length of symbol `i` of a code vector (R28); 0 ("symbol unused")
past its end. -/
def lengthAt {n w : Nat} (x : Vector (BitVec w) n) (i : Nat) : Nat := (lengthsOf x).getD i 0

/-- `lens[j .. j+r−1] <- v` (R156). -/
def fillRun {n : Nat} (x : Vector (BitVec 4) n) (j : Nat) : Nat → BitVec 4 → Vector (BitVec 4) n
  | 0, _ => x
  | r + 1, v => fillRun (x.setIfInBounds j v) (j + 1) r v

/-- `LL <- lens[0 .. hlit−1] ++ [0] × (288 − hlit)` (R161). -/
def litLenLengths (lens : Vector (BitVec 4) 316) (hlit : Nat) : Vector (BitVec 4) 288 :=
  ⟨⟨(lens.toList.take hlit ++ List.replicate 288 0).take 288⟩, by
    rw [List.size_toArray, List.length_take, List.length_append, List.length_replicate]; omega⟩

/-- `D <- lens[hlit .. tot−1] ++ [0] × (32 − hdist)` (R161). -/
def distLengths (lens : Vector (BitVec 4) 316) (hlit hdist : Nat) : Vector (BitVec 4) 32 :=
  ⟨⟨((lens.toList.drop hlit).take hdist ++ List.replicate 32 0).take 32⟩, by
    rw [List.size_toArray, List.length_take, List.length_append, List.length_replicate]; omega⟩

/-- The lengths of the fixed literal/length code as a list (R134). -/
def fixedLLList : List (BitVec 4) :=
  List.replicate 144 8 ++ (List.replicate 112 9 ++ (List.replicate 24 7 ++ List.replicate 8 8))

/-- `FIXED_LL` (R134). -/
def fixedLL : Vector (BitVec 4) 288 := ⟨⟨fixedLLList⟩, by
  unfold fixedLLList
  rw [List.size_toArray]
  repeat rw [List.length_append]
  repeat rw [List.length_replicate]⟩

/-- `FIXED_D` (R135). -/
def fixedD : Vector (BitVec 4) 32 := Vector.replicate 32 5

end Sys2Proof.Machine
end

