-- ==== Sys2Proof/Machine/Huffman.lean ====
section
/-! DEFINITION. Huffman codes (units huffman_decode_table_fast and huffman_decode_fallback):
canonical code words (R120, R121), the Kraft sum (R122), which codes are accepted (R123 to R125),
the normative decode function (R129), the primary table with its entries (R126 to R128), its
lookup (R130), and the counting fallback (R131, R132). -/

namespace Sys2Proof.Machine

/-- One code word: symbol, length and value (R120). -/
structure CodeWord where
  sym : Nat
  len : Nat
  code : Nat
deriving DecidableEq, Repr

/-- `bl_count[L]` (R120): how many symbols have length L; `bl_count[0]` is set to 0. -/
def blCount (x : Lengths) (len : Nat) : Nat := if len = 0 then 0 else x.count len

/-- The first code value of every length, from the counts of the lengths before it (R120:
`code <- (code + bl_count[L−1]) << 1 ; next[L] <- code`). -/
def firstCodes : List Nat → Nat → List Nat
  | [], _ => []
  | c :: cs, code => ((code + c) * 2) :: firstCodes cs ((code + c) * 2)

/-- `next[0..15]` before any symbol is assigned (R120). -/
def nextTable (x : Lengths) : List Nat :=
  0 :: firstCodes ((List.range Config.maxLen).map (blCount x)) 0

/-- The loop of R120 over the symbols from `sym` on: each used symbol takes `next[X[s]]`. -/
def assignCodes : Lengths → List Nat → Nat → List CodeWord
  | [], _, _ => []
  | l :: rest, next, sym =>
    if l = 0 then assignCodes rest next (sym + 1)
    else ⟨sym, l, next.getD l 0⟩ :: assignCodes rest (next.set l (next.getD l 0 + 1)) (sym + 1)

/-- The code words of code `x`, in symbol order (R120). -/
def codeWords (x : Lengths) : List CodeWord := assignCodes x (nextTable x) 0

/-- `K(X)` (R122). -/
def kraft (x : Lengths) : Nat :=
  (x.map fun l => if l = 0 then 0 else 2 ^ (Config.maxLen - l)).sum

/-- X is complete (R122). -/
def complete (x : Lengths) : Bool := decide (kraft x = 2 ^ Config.maxLen)

/-- A literal/length code is accepted: complete, with a code for symbol 256 (R123). -/
def llAccepted (x : Lengths) : Bool := complete x && decide (x.getD 256 0 ≠ 0)

/-- A distance code is accepted: complete, empty, or one used symbol of length 1 (R124). -/
def distAccepted (x : Lengths) : Bool :=
  complete x || x.all (fun l => decide (l = 0)) || decide (x.filter (fun l => decide (l ≠ 0)) = [1])

/-- A code-length code is accepted: complete (R125). -/
def clAccepted (x : Lengths) : Bool := complete x

/-- What a decode reports to its caller (R129). -/
inductive Decoded where
  | sym (s len : Nat)
  | needMore
  | invalid
deriving DecidableEq, Repr

/-- The whole code word `w` stands in the first `k` known bits of `v`
(R121, R129: `L ≤ k` and `v & mask(L) = rev_L(C(s))`). -/
def CodeWord.isPrefixOf (w : CodeWord) (v k : Nat) : Bool :=
  decide (w.len ≤ k) && decide (v % 2 ^ w.len = rev w.len w.code)

/-- The `k` known bits of `v` begin the longer code word `w`
(R129: `L > k` and `v & mask(k) = rev_k(C(s) >> (L − k))`). -/
def CodeWord.extendsBits (w : CodeWord) (v k : Nat) : Bool :=
  decide (k < w.len) && decide (v % 2 ^ k = rev k (w.code >>> (w.len - k)))

/-- `Decode(X, v, k)` (R129), the normative decode function. -/
def decodeSym (x : Lengths) (v k : Nat) : Decoded :=
  match (codeWords x).find? (fun w => w.isPrefixOf v k) with
  | some w => .sym w.sym w.len
  | none => if (codeWords x).any (fun w => w.extendsBits v k) then .needMore else .invalid

/-- `hdecode(X, o)` on a window `v` of which `k` bits are known (R106): Invalid is InvalidSymbol. -/
def hdecodeAt (x : Lengths) (v k o : Nat) : Peek (Nat × Nat) :=
  match decodeSym x (v >>> o) (k - o) with
  | .sym s len => .got (s, len)
  | .needMore => .needMore
  | .invalid => .bad .invalidSymbol

/-- A primary-table entry (R126, R127). -/
inductive Entry where
  | direct (sym len : Nat)
  | sub
  | hole
deriving DecidableEq, Repr

/-- The 15-bit form of an entry (R128): TAG in bits 14:13, SYM in bits 12:4, LEN in bits 3:0. -/
def Entry.toBits : Entry → BitVec 15
  | .direct sym len => 1#2 ++ BitVec.ofNat 9 sym ++ BitVec.ofNat 4 len
  | .sub => 2#2 ++ 0#9 ++ 0#4
  | .hole => 0#2 ++ 0#9 ++ 0#4

/-- The entry a 15-bit form stands for (R128). TAG = 11 is never written: no entry. -/
def Entry.ofBits (b : BitVec 15) : Option Entry :=
  match field b.toNat 13 2 with
  | 0 => some .hole
  | 1 => some (.direct (field b.toNat 4 9) (field b.toNat 0 4))
  | 2 => some .sub
  | _ => none

/-- The entry of slot `i` of the primary table of prefix width `p` (R126). -/
def primaryEntry (x : Lengths) (p i : Nat) : Entry :=
  match (codeWords x).find? (fun w => decide (w.len ≤ p) && decide (i % 2 ^ w.len = rev w.len w.code)) with
  | some w => .direct w.sym w.len
  | none =>
    if (codeWords x).any (fun w => decide (p < w.len) && decide (i = rev p (w.code >>> (w.len - p))))
    then .sub else .hole

/-- `T_X` (R126): the `2^P` entries of the primary table. -/
def primaryTable (x : Lengths) (p : Nat) : List Entry := (List.range (2 ^ p)).map (primaryEntry x p)

/-- `sorted_X` (R131): the used symbols in increasing order of `(X[s], s)`. -/
def sortedSyms (x : Lengths) : List Nat :=
  (List.range Config.maxLen).flatMap fun l =>
    ((List.range x.length).filter fun s => decide (x.getD s 0 = l + 1))

/-- The loop of `Fallback` (R132) from length `len` on, with `fuel` lengths left to try. -/
def fallbackLoop (x : Lengths) (sorted : List Nat) (v k : Nat) :
    Nat → Nat → Nat → Nat → Nat → Decoded
  | 0, _, _, _, _ => .invalid
  | fuel + 1, len, code, first, index =>
    if len > k then .needMore
    else if code + v / 2 ^ (len - 1) % 2 < first + blCount x len then
      .sym (sorted.getD (index + (code + v / 2 ^ (len - 1) % 2) - first) 0) len
    else
      fallbackLoop x sorted v k fuel (len + 1) ((code + v / 2 ^ (len - 1) % 2) * 2)
        ((first + blCount x len) * 2) (index + blCount x len)

/-- `Fallback(X, v, k)` (R132), the bit-serial canonical decode. -/
def fallback (x : Lengths) (v k : Nat) : Decoded :=
  fallbackLoop x (sortedSyms x) v k Config.maxLen 1 0 0 0

/-- `Lookup(X, v, k)` (R130) in the primary table of prefix width `p`. -/
def lookup (x : Lengths) (p v k : Nat) : Decoded :=
  match (primaryTable x p).getD (v % 2 ^ p) .hole with
  | .direct s len => if len ≤ k then .sym s len else .needMore
  | .hole => .invalid
  | .sub => fallback x v k

end Sys2Proof.Machine
end

