-- ==== Sys2Proof/Syntax.lean ====
section
/-! DEFINITION. The block's instructions as data: one constructor for each row of
spec/opcode_table.json (R88): five host commands (R83) and the element classes of the DEFLATE
stream (R71 to R82), each with the operands of the text syntax of R86. Also the transaction a host
presents on the command port (R83). -/

namespace Sys2Proof

/-- One transaction on the command port (R83): the 8-bit command word and the operands that ride
beside it. `inp`, `out` and `off` are ADVANCE's; the other commands have no side operand. -/
structure Transaction where
  word : BitVec 8
  inp : List Byte
  out : List Byte
  off : Nat
deriving DecidableEq, Repr

/-- One instruction: a host command or one element of the stream. A length or distance symbol
carries its extra field (R193, R194); the width of the field is the table's. -/
inductive Instr where
  -- Host commands (R83)
  /-- RESET (R260): the CFG and WRAP operands. -/
  | reset (cfg : Cfg) (wrap : Wrap)
  /-- ADVANCE (R262): `IN`, `OUT`, `off` and `eoi`. -/
  | advance (inp out : List Byte) (off : Nat) (eoi : Bool)
  /-- IS_DONE (R268). -/
  | isDone
  /-- IGNORE_CHECKSUM (R269). -/
  | ignoreChecksum
  /-- CHECKSUM (R270). -/
  | checksum
  -- Wrapper and block headers (R73 to R75)
  /-- F_ZH, the zlib header: the bytes CMF and FLG (R73). -/
  | zhdr (cmf flg : Byte)
  /-- F_BH with BTYPE = 00 (R75): a stored block. -/
  | blkStored (bfinal : Bool)
  /-- F_BH with BTYPE = 01 (R75): a fixed Huffman block. -/
  | blkFixed (bfinal : Bool)
  /-- F_BH with BTYPE = 10 (R75): a dynamic Huffman block. -/
  | blkDynamic (bfinal : Bool)
  /-- F_BH with BTYPE = 11 (R75): reserved. -/
  | blkReserved (bfinal : Bool)
  -- Stored block (R76)
  /-- F_SL: LEN and NLEN. -/
  | slen (len nlen : BitVec 16)
  /-- F_SD: one stored byte. -/
  | sdata (b : Byte)
  -- Dynamic block header (R77 to R79)
  /-- F_DH: the fields HLIT, HDIST and HCLEN as they stand in the stream. -/
  | dhdr (hlit hdist : BitVec 5) (hclen : BitVec 4)
  /-- F_CLL: one 3-bit code-length-code length. -/
  | cll (len : BitVec 3)
  /-- F_CLS with symbol 0..15: one code length. -/
  | clsymLen (sym : BitVec 4)
  /-- F_CLS with symbol 16: repeat the previous length; 2 extra bits. -/
  | clsym16 (extra : BitVec 2)
  /-- F_CLS with symbol 17: a run of 3 to 10 zeros; 3 extra bits. -/
  | clsym17 (extra : BitVec 3)
  /-- F_CLS with symbol 18: a run of 11 to 138 zeros; 7 extra bits. -/
  | clsym18 (extra : BitVec 7)
  -- Literal/length symbols (R80)
  /-- F_LL with symbol 0..255: a literal byte. -/
  | lit (b : Byte)
  /-- F_LL with symbol 256: end of block. -/
  | eob
  /-- F_LL with length symbol 257 (R193): lengths 3..3. -/
  | len257
  /-- F_LL with length symbol 258 (R193): lengths 4..4. -/
  | len258
  /-- F_LL with length symbol 259 (R193): lengths 5..5. -/
  | len259
  /-- F_LL with length symbol 260 (R193): lengths 6..6. -/
  | len260
  /-- F_LL with length symbol 261 (R193): lengths 7..7. -/
  | len261
  /-- F_LL with length symbol 262 (R193): lengths 8..8. -/
  | len262
  /-- F_LL with length symbol 263 (R193): lengths 9..9. -/
  | len263
  /-- F_LL with length symbol 264 (R193): lengths 10..10. -/
  | len264
  /-- F_LL with length symbol 265 (R193): lengths 11..12. -/
  | len265 (extra : BitVec 1)
  /-- F_LL with length symbol 266 (R193): lengths 13..14. -/
  | len266 (extra : BitVec 1)
  /-- F_LL with length symbol 267 (R193): lengths 15..16. -/
  | len267 (extra : BitVec 1)
  /-- F_LL with length symbol 268 (R193): lengths 17..18. -/
  | len268 (extra : BitVec 1)
  /-- F_LL with length symbol 269 (R193): lengths 19..22. -/
  | len269 (extra : BitVec 2)
  /-- F_LL with length symbol 270 (R193): lengths 23..26. -/
  | len270 (extra : BitVec 2)
  /-- F_LL with length symbol 271 (R193): lengths 27..30. -/
  | len271 (extra : BitVec 2)
  /-- F_LL with length symbol 272 (R193): lengths 31..34. -/
  | len272 (extra : BitVec 2)
  /-- F_LL with length symbol 273 (R193): lengths 35..42. -/
  | len273 (extra : BitVec 3)
  /-- F_LL with length symbol 274 (R193): lengths 43..50. -/
  | len274 (extra : BitVec 3)
  /-- F_LL with length symbol 275 (R193): lengths 51..58. -/
  | len275 (extra : BitVec 3)
  /-- F_LL with length symbol 276 (R193): lengths 59..66. -/
  | len276 (extra : BitVec 3)
  /-- F_LL with length symbol 277 (R193): lengths 67..82. -/
  | len277 (extra : BitVec 4)
  /-- F_LL with length symbol 278 (R193): lengths 83..98. -/
  | len278 (extra : BitVec 4)
  /-- F_LL with length symbol 279 (R193): lengths 99..114. -/
  | len279 (extra : BitVec 4)
  /-- F_LL with length symbol 280 (R193): lengths 115..130. -/
  | len280 (extra : BitVec 4)
  /-- F_LL with length symbol 281 (R193): lengths 131..162. -/
  | len281 (extra : BitVec 5)
  /-- F_LL with length symbol 282 (R193): lengths 163..194. -/
  | len282 (extra : BitVec 5)
  /-- F_LL with length symbol 283 (R193): lengths 195..226. -/
  | len283 (extra : BitVec 5)
  /-- F_LL with length symbol 284 (R193): lengths 227..257. -/
  | len284 (extra : BitVec 5)
  /-- F_LL with length symbol 285 (R193): lengths 258..258. -/
  | len285
  /-- F_LL with symbol 286: invalid (R196). -/
  | llInvalid286
  /-- F_LL with symbol 287: invalid (R196). -/
  | llInvalid287
  -- Distance symbols (R81)
  /-- Distance symbol 0 (R194): distances 1..1. -/
  | dist0
  /-- Distance symbol 1 (R194): distances 2..2. -/
  | dist1
  /-- Distance symbol 2 (R194): distances 3..3. -/
  | dist2
  /-- Distance symbol 3 (R194): distances 4..4. -/
  | dist3
  /-- Distance symbol 4 (R194): distances 5..6. -/
  | dist4 (extra : BitVec 1)
  /-- Distance symbol 5 (R194): distances 7..8. -/
  | dist5 (extra : BitVec 1)
  /-- Distance symbol 6 (R194): distances 9..12. -/
  | dist6 (extra : BitVec 2)
  /-- Distance symbol 7 (R194): distances 13..16. -/
  | dist7 (extra : BitVec 2)
  /-- Distance symbol 8 (R194): distances 17..24. -/
  | dist8 (extra : BitVec 3)
  /-- Distance symbol 9 (R194): distances 25..32. -/
  | dist9 (extra : BitVec 3)
  /-- Distance symbol 10 (R194): distances 33..48. -/
  | dist10 (extra : BitVec 4)
  /-- Distance symbol 11 (R194): distances 49..64. -/
  | dist11 (extra : BitVec 4)
  /-- Distance symbol 12 (R194): distances 65..96. -/
  | dist12 (extra : BitVec 5)
  /-- Distance symbol 13 (R194): distances 97..128. -/
  | dist13 (extra : BitVec 5)
  /-- Distance symbol 14 (R194): distances 129..192. -/
  | dist14 (extra : BitVec 6)
  /-- Distance symbol 15 (R194): distances 193..256. -/
  | dist15 (extra : BitVec 6)
  /-- Distance symbol 16 (R194): distances 257..384. -/
  | dist16 (extra : BitVec 7)
  /-- Distance symbol 17 (R194): distances 385..512. -/
  | dist17 (extra : BitVec 7)
  /-- Distance symbol 18 (R194): distances 513..768. -/
  | dist18 (extra : BitVec 8)
  /-- Distance symbol 19 (R194): distances 769..1024. -/
  | dist19 (extra : BitVec 8)
  /-- Distance symbol 20 (R194): distances 1025..1536. -/
  | dist20 (extra : BitVec 9)
  /-- Distance symbol 21 (R194): distances 1537..2048. -/
  | dist21 (extra : BitVec 9)
  /-- Distance symbol 22 (R194): distances 2049..3072. -/
  | dist22 (extra : BitVec 10)
  /-- Distance symbol 23 (R194): distances 3073..4096. -/
  | dist23 (extra : BitVec 10)
  /-- Distance symbol 24 (R194): distances 4097..6144. -/
  | dist24 (extra : BitVec 11)
  /-- Distance symbol 25 (R194): distances 6145..8192. -/
  | dist25 (extra : BitVec 11)
  /-- Distance symbol 26 (R194): distances 8193..12288. -/
  | dist26 (extra : BitVec 12)
  /-- Distance symbol 27 (R194): distances 12289..16384. -/
  | dist27 (extra : BitVec 12)
  /-- Distance symbol 28 (R194): distances 16385..24576. -/
  | dist28 (extra : BitVec 13)
  /-- Distance symbol 29 (R194): distances 24577..32768. -/
  | dist29 (extra : BitVec 13)
  /-- Distance symbol 30: invalid (R197). -/
  | distInvalid30
  /-- Distance symbol 31: invalid (R197). -/
  | distInvalid31
  -- zlib trailer (R82)
  /-- F_TR: the four trailer bytes in stream order. -/
  | trailer (b0 b1 b2 b3 : Byte)
deriving DecidableEq, Repr

namespace Instr

/-- Whether the instruction is a host command (R83) and not a stream element (R70). -/
def isCommand : Instr → Bool
  | .reset _ _ | .advance _ _ _ _ | .isDone | .ignoreChecksum | .checksum => true
  | _ => false

end Instr

end Sys2Proof
end

