-- ==== Sys2Proof/Machine/State.lean ====
section
/-! DEFINITION. The state of the block as plain data: every register of 10_state.md under its own
name, the window `W` (R31, R53), the per-call state of an ADVANCE (R38), and the command port
(R261) with the commands the host has still to present and the results the port has returned. -/

namespace Sys2Proof.Machine

/-- The phases of the state machine (R21). Codes 12 to 15 are never held, so they have no
constructor. -/
inductive Phase where
  | blockHeader
  | storedLen
  | storedCopy
  | dynHeader
  | dynClLens
  | dynLens
  | symbolLoop
  | backReference
  | zlibHeader
  | trailer
  | done
  | error
deriving DecidableEq, Repr

/-- The 4-bit code of a phase (R21). -/
def Phase.code : Phase → BitVec 4
  | .blockHeader => 0
  | .storedLen => 1
  | .storedCopy => 2
  | .dynHeader => 3
  | .dynClLens => 4
  | .dynLens => 5
  | .symbolLoop => 6
  | .backReference => 7
  | .zlibHeader => 8
  | .trailer => 9
  | .done => 10
  | .error => 11

/-- The window memory `W`: the bytes written since reset, by address, in the canonical form of
`Memory.wf`. An address that is not listed has no value (R37; assumption log 2). -/
abbrev Memory := List Host.Cell

/-- The length part of an F_LL element whose distance part is still to be read: the match length
and the bits used so far (the local `length` and `u` of R195). Nothing of it is committed. -/
structure PendingLength where
  length : BitVec 9
  used : Nat
deriving DecidableEq, Repr

/-- The per-call state of one ADVANCE (R38): the borrowed slices, the operands, the input cursor
`ip`, the output count `prod`, and the element in progress (R101). -/
structure Call where
  inp : List Byte
  out : List Byte
  off : Nat
  eoi : Bool
  ip : Nat
  prod : Nat
  pend : Option PendingLength
deriving DecidableEq, Repr

/-- A result the port returns when a command completes (R83, R261, R264). An ADVANCE hands the
buffer `OUT` back to the host with its result (R59, R336). -/
inductive Response where
  /-- RESET and IGNORE_CHECKSUM complete with no result. -/
  | completed
  /-- REFUSED (R261, R267): a port response, not a status. -/
  | refused
  /-- ADVANCE: status, consumed, produced, and the buffer handed back. -/
  | advanced (status : BitVec 3) (consumed produced : Nat) (out : List Byte)
  /-- IS_DONE: the `done` bit. -/
  | isDone (done : Bool)
  /-- CHECKSUM: `ck`. -/
  | checksum (ck : Word32)
deriving DecidableEq, Repr

/-- The whole state: registers, window, the call in progress, and the port. -/
structure State where
  /-- `phase` (R21). -/
  phase : Phase
  /-- `acc`, the bit accumulator (R22). -/
  acc : BitVec 64
  /-- `nb`, the number of pending bits (R22). -/
  nb : BitVec 6
  /-- `final`, BFINAL of the block being decoded (R25). -/
  final : Bool
  /-- `st_rem`, the stored bytes still to copy (R26). -/
  stRem : BitVec 16
  /-- `hlit` (R27). -/
  hlit : BitVec 9
  /-- `hdist` (R27). -/
  hdist : BitVec 5
  /-- `hclen` (R27). -/
  hclen : BitVec 5
  /-- `cl_idx` (R27). -/
  clIdx : BitVec 5
  /-- `dyn_idx` (R27). -/
  dynIdx : BitVec 9
  /-- `cl_len[0..18]` = `CODE_CL` (R27, R28). -/
  clLen : Vector (BitVec 3) 19
  /-- `lens[0..315]` (R27). -/
  lens : Vector (BitVec 4) 316
  /-- `CODE_LL[0..287]` (R28). -/
  codeLL : Vector (BitVec 4) 288
  /-- `CODE_D[0..31]` (R28). -/
  codeD : Vector (BitVec 4) 32
  /-- `br_len` (R30). -/
  brLen : BitVec 9
  /-- `br_dist` (R30). -/
  brDist : BitVec 16
  /-- `W[0..32767]` (R31, R53). -/
  win : Memory
  /-- `wp`, the window write address (R31). -/
  wp : BitVec 15
  /-- `hist`, the bytes emitted since reset, saturating at 32768 (R31). -/
  hist : BitVec 17
  /-- `ck`, the checksum accumulator (R32). -/
  ck : Word32
  /-- `ignore_ck` (R33). -/
  ignoreCk : Bool
  /-- `err`, the code of the error raised, or 0 (R34). -/
  err : BitVec 3
  /-- `CFG` (R35). -/
  cfg : Cfg
  /-- `WRAP` (R35). -/
  wrap : Wrap
  /-- The ADVANCE in progress, if any (R38). -/
  call : Option Call
  /-- The commands the host has still to present, the next one first (R20, R261). -/
  cmds : List Transaction
  /-- The results the port has returned, the last one first (R261). -/
  resps : List Response
deriving DecidableEq, Repr

/-- Why the machine stops. Every fault is a bug of the model in the spec's sense: R15 asks that an
access outside the ranges of R14 be "a fault of the model, never a value". No run from a RESET
reaches one, so all of them are safe. -/
inductive Fault where
  /-- An element or a transfer was executed with no ADVANCE in progress, so with no `IN` and `OUT`
  (R15, R38). Raised by every operation on the call. Safe. -/
  | noCall
  /-- `emit` with `room = 0` (R15, R221: every caller checks the room first). Safe. -/
  | outOfRange
  /-- A back-reference read a byte of `W` that nothing has written since reset (R37: "fault on a
  read (which cannot happen)", R226). Safe. -/
  | windowUnwritten
  /-- `consume(n)` with `n > nb` (R107, U5). Safe. -/
  | consumeBeyond
  /-- A distance symbol with no length symbol before it (R197: "A length symbol is the only way to
  reach the distance code"). Safe. -/
  | noLength
  /-- A step inside a call while the phase is ERROR, for which R164 has no case (R310: "nothing
  executes in ERROR"). Safe. -/
  | stepInError
deriving DecidableEq, Repr

/-- Why the model gives an instruction no meaning. -/
inductive Refusal where
  /-- The instruction has no meaning in this model yet. Raised by the dispatcher only. Safe. -/
  | notModelled (mnemonic : String)
deriving DecidableEq, Repr

/-- The outcome of a step of this machine. -/
abbrev Outcome := Host.Outcome State Fault Refusal

/-- The registers after RESET with operands `cfg` and `wrap` (R37, R260), with an idle port. A
register that R37 leaves unspecified is zero here (assumption log 1). -/
def State.resetTo (cfg : Cfg) (wrap : Wrap) : State where
  phase := match wrap with
    | .raw => .blockHeader
    | .zlib => .zlibHeader
  acc := 0
  nb := 0
  final := false
  stRem := 0
  hlit := 0
  hdist := 0
  hclen := 0
  clIdx := 0
  dynIdx := 0
  clLen := Vector.replicate 19 0
  lens := Vector.replicate 316 0
  codeLL := Vector.replicate 288 0
  codeD := Vector.replicate 32 0
  brLen := 0
  brDist := 0
  win := []
  wp := 0
  hist := 0
  ck := ckInit wrap
  ignoreCk := false
  err := 0
  cfg := cfg
  wrap := wrap
  call := none
  cmds := []
  resps := []

/-- The machine right after RESET FAST, RAW (command word 0x00): R330 has no power-on state of its
own and starts a model from the state a RESET gives (assumption log 5). -/
def State.reset : State := State.resetTo .fast .raw

end Sys2Proof.Machine
end

