-- ==== Sys2Proof/Machine/Ops.lean ====
section
/-! DEFINITION. The named operations of the block: the window memory (R53), the port and the end of
a call (R261, R263), raising an error (R300, R309) and stalling (R14), the bit reader (R100 to
R110), and the output primitive (R221) with the window read (R222). -/

namespace Sys2Proof.Machine

/-! ### The window memory -/

namespace Memory

/-- Read one byte. An address nothing has written has no value (R37). -/
def read : Memory → Nat → Option Byte
  | [], _ => none
  | (x, b) :: m, a => if x = a then some b else read m a

/-- Write one byte, keeping the addresses strictly rising. -/
def write : Memory → Nat → Byte → Memory
  | [], a, b => [(a, b)]
  | (x, c) :: m, a, b =>
    if a < x then (a, b) :: (x, c) :: m
    else if a = x then (a, b) :: m
    else (x, c) :: write m a b

/-- Every address of the list is above `lo` and the addresses rise strictly. -/
def risesFrom : Nat → Memory → Bool
  | _, [] => true
  | lo, (x, _) :: m => decide (lo ≤ x) && risesFrom (x + 1) m

/-- The canonical form: strictly rising addresses. An unlisted address reads as no value, so no
entry can equal what an unlisted address reads as. -/
def wf (m : Memory) : Bool := risesFrom 0 m

end Memory

/-! ### The port and the end of a call -/

/-- Sequencing: go on only from a next state. -/
def andThen (o : Outcome) (f : State → Outcome) : Outcome :=
  match o with
  | .next s => f s
  | .fault r => .fault r
  | .refused r => .refused r

/-- The port returns a result (R261). -/
def respond (r : Response) (s : State) : State := { s with resps := r :: s.resps }

/-- Set up the per-call state of an ADVANCE (R38, R262): `ip <- 0 ; prod <- 0`. -/
def beginCall (inp out : List Byte) (off : Nat) (eoi : Bool) (s : State) : State :=
  { s with
    call := some { inp := inp, out := out, off := off, eoi := eoi, ip := 0, prod := 0, pend := none } }

/-- The ADVANCE in progress returns `(status, ip, prod)` and the per-call state is discarded
(R38, R263, R264). -/
def finishCall (status : BitVec 3) (s : State) : Outcome :=
  match s.call with
  | none => .fault .noCall
  | some c => .next (respond (.advanced status c.ip c.prod c.out) { s with call := none })

/-- Error entry, the block's one trap mechanism (R309): `phase <- ERROR`, `err <- code(E)`, and the
ADVANCE returns `(code(E), ip, prod)`. There is no vector and no saved program counter, and no
return from it: only RESET leaves ERROR (R310). -/
def raise (e : Err) (s : State) : Outcome :=
  finishCall e.code { s with phase := .error, err := e.code }

/-- `stall` (R14, R263): the ADVANCE returns `(0, ip, prod)`; nothing of the element is committed,
and the bytes it fetched stay in `acc` (R108). -/
def stall (s : State) : Outcome := finishCall statusOk s

/-- Input is exhausted: TruncatedInput with `eoi = 1`, a stall otherwise (R104, R111). -/
def shortage (s : State) : Outcome :=
  match s.call with
  | none => .fault .noCall
  | some c => if c.eoi then raise .truncatedInput s else stall s

/-! ### The bit reader (unit deflate_bit_reader) -/

/-- FETCH (R103) of the byte `b = IN[ip]`: `b` joins `acc` above the pending bits and counts as
consumed. -/
def fetchByte (b : Byte) (s : State) : State :=
  { s with
    acc := s.acc ||| (b.setWidth 64 <<< s.nb.toNat)
    nb := s.nb + 8
    call := s.call.map fun c => { c with ip := c.ip + 1 } }

/-- The FETCH of several bytes, one after the other (R103, R104). -/
def fetchBytes (bytes : List Byte) (s : State) : State := bytes.foldl (fun t b => fetchByte b t) s

/-- How a run of peeks ends: with a value and the state after its FETCHes, or with the call. -/
inductive Probe (α : Type) where
  | got (a : α) (s : State)
  | ended (o : Outcome)

/-- Repeat a peek at the accumulator, with one FETCH for every want of bits (R104, R106); `rest` is
the part of `IN` not yet consumed. -/
def fetchLoop {α : Type} (peek : Nat → Nat → Peek α) : List Byte → State → Probe α
  | [], s =>
    match peek s.acc.toNat s.nb.toNat with
    | .got a => .got a s
    | .bad e => .ended (raise e s)
    | .needMore => .ended (shortage s)
  | b :: rest, s =>
    match peek s.acc.toNat s.nb.toNat with
    | .got a => .got a s
    | .bad e => .ended (raise e s)
    | .needMore => fetchLoop peek rest (fetchByte b s)

/-- Run a peek to its end inside the call in progress: the block reads `IN` only from `ip` on
(R51). -/
def probe {α : Type} (peek : Nat → Nat → Peek α) (s : State) : Probe α :=
  match s.call with
  | none => .ended (.fault .noCall)
  | some c => fetchLoop peek (c.inp.drop c.ip) s

/-- `need(m)` (R104). -/
def need (m : Nat) (s : State) : Probe Unit :=
  probe (fun _ k => if m ≤ k then .got () else .needMore) s

/-- `bits(o, n)` (R105). -/
def bits (o n : Nat) (s : State) : Probe Nat := probe (fun v k => bitsAt v k o n) s

/-- `hdecode(X, o)` (R106). -/
def hdecode (x : Lengths) (o : Nat) (s : State) : Probe (Nat × Nat) :=
  probe (fun v k => hdecodeAt x v k o) s

/-- `consume(n)` (R107): `acc <- acc >> n ; nb <- nb − n`. `n > nb` is a bug of the model. -/
def consume (n : Nat) (s : State) : Outcome :=
  if n ≤ s.nb.toNat then
    .next { s with acc := s.acc >>> n, nb := s.nb - BitVec.ofNat 6 n }
  else .fault .consumeBeyond

/-- `align` (R110): drop the padding bits up to the next byte boundary of the stream. -/
def align (s : State) : State := { s with acc := 0, nb := 0 }

/-! ### The derived tables (R29, R136, R137)

They are pure functions of the code vectors and of `CFG`, recomputed where they are used. The
machine decodes by the normative `Decode` (R129), which the lookup in them equals (R133). -/

/-- `T_LL`: the primary table of `CODE_LL` (R29, R126). -/
def tableLL (s : State) : List Entry := primaryTable (lengthsOf s.codeLL) (Config.llPrefix s.cfg)

/-- `T_D`: the primary table of `CODE_D` (R29, R126). -/
def tableD (s : State) : List Entry := primaryTable (lengthsOf s.codeD) (Config.dPrefix s.cfg)

/-- `T_CL`: the primary table of `CODE_CL` (R29, R126). -/
def tableCL (s : State) : List Entry := primaryTable (lengthsOf s.clLen) (Config.clPrefix s.cfg)

/-- `count_X[1..15]` (R29, R131). -/
def countTable (x : Lengths) : List Nat := (List.range Config.maxLen).map fun l => blCount x (l + 1)

/-! ### Output and window (unit lz77_window_copy_unit) -/

/-- `room = len(OUT) − off − prod` (R221); 0 when no call is in progress. -/
def room (s : State) : Nat :=
  match s.call with
  | none => 0
  | some c => c.out.length - c.off - c.prod

/-- The window address of distance `d` (R222): `(wp + 32768 − d) mod 32768`. -/
def windowSource (wp : BitVec 15) (d : Nat) : Nat :=
  (wp.toNat + Config.window - d) % Config.window

/-- The history count after one more byte (R221): `min(hist + 1, 32768)`. -/
def bumpHist (hist : BitVec 17) : BitVec 17 :=
  BitVec.ofNat 17 (min (hist.toNat + 1) Config.window)

/-- `emit(b)` (R221): write `OUT[off + prod]` and `W[wp]`, advance `prod`, `wp` and `hist`, and
fold `b` into `ck` unless `ignore_ck = 1`. Every caller has checked that `room ≥ 1`. -/
def emit (b : Byte) (s : State) : Outcome :=
  match s.call with
  | none => .fault .noCall
  | some c =>
    if c.off + c.prod < c.out.length then
      .next { s with
        call := some { c with out := c.out.set (c.off + c.prod) b, prod := c.prod + 1 }
        win := Memory.write s.win s.wp.toNat b
        wp := s.wp + 1
        hist := bumpHist s.hist
        ck := if s.ignoreCk then s.ck else ckFold s.wrap s.ck b }
    else .fault .outOfRange

/-- `end_block` (R162): the common end of a stored block and of an EOB. -/
def endBlock (s : State) : State :=
  if s.final then
    match s.wrap with
    | .zlib => { align s with phase := .trailer }
    | .raw => { s with phase := .done }
  else { s with phase := .blockHeader }

/-- The BACK_REFERENCE step (R224, R225): copy one byte of the pending back-reference, or leave the
phase when none is left. -/
def backReference (s : State) : Outcome :=
  if s.brLen = 0 then .next { s with phase := .symbolLoop }
  else if room s = 0 then stall s
  else
    match Memory.read s.win (windowSource s.wp s.brDist.toNat) with
    | none => .fault .windowUnwritten
    | some b => andThen (emit b s) fun t => .next { t with brLen := t.brLen - 1 }

end Sys2Proof.Machine
end

