-- ==== Sys2Proof/Machine/Blocks.lean ====
section
/-! DEFINITION. Block headers and stored blocks (R150 to R153). -/

namespace Sys2Proof.Machine

/-- The commit of a block header (R150): `consume(3) ; final <- bf`. -/
def commitBlockHeader (bfinal : Bool) (s : State) : Outcome :=
  andThen (consume 3 s) fun t => .next { t with final := bfinal }

/-- BTYPE = 00 (R150): align, then LEN/NLEN. -/
def execBlkStored (bfinal : Bool) (s : State) : Outcome :=
  andThen (commitBlockHeader bfinal s) fun t => .next { align t with phase := .storedLen }

/-- BTYPE = 01 (R150, R151): install the fixed code. The code-length code and `lens` stay. -/
def execBlkFixed (bfinal : Bool) (s : State) : Outcome :=
  andThen (commitBlockHeader bfinal s) fun t =>
    .next { t with codeLL := fixedLL, codeD := fixedD, phase := .symbolLoop }

/-- BTYPE = 10 (R150): the dynamic header is next. -/
def execBlkDynamic (bfinal : Bool) (s : State) : Outcome :=
  andThen (commitBlockHeader bfinal s) fun t => .next { t with phase := .dynHeader }

/-- BTYPE = 11 (R150): refused whatever BFINAL is. -/
def execBlkReserved (_bfinal : Bool) (s : State) : Outcome := raise .malformedHeader s

/-- SLEN (R152): NLEN must be the complement of LEN. -/
def execSlen (len nlen : BitVec 16) (s : State) : Outcome :=
  if storedLengthOk len nlen = false then raise .malformedStoredLength s
  else andThen (consume 32 s) fun t => .next { t with stRem := len, phase := .storedCopy }

/-- SDATA (R153): the byte `b` standing at `IN[ip]` is consumed and emitted. The rule's checks stand
in its order: no byte left ends the block, missing input comes before missing room, and nothing is
consumed before it is written. -/
def execSdata (b : Byte) (s : State) : Outcome :=
  if s.stRem = 0 then .next (endBlock s)
  else
    match s.call with
    | none => .fault .noCall
    | some c =>
      if c.inp.length ≤ c.ip then shortage s
      else if room s = 0 then stall s
      else
        andThen (emit b { s with call := some { c with ip := c.ip + 1 } }) fun t =>
          .next { t with stRem := t.stRem - 1 }

end Sys2Proof.Machine
end

