-- ==== Sys2Proof/Machine/Commands.lean ====
section
/-! DEFINITION. The five host commands (R260 to R270). -/

namespace Sys2Proof.Machine

/-- RESET (R260): every register takes its reset value (R37); accepted in every phase, and the only
way out of DONE and ERROR. The port is not a register: it keeps the commands still to come. -/
def execReset (cfg : Cfg) (wrap : Wrap) (s : State) : Outcome :=
  .next { State.resetTo cfg wrap with cmds := s.cmds, resps := .completed :: s.resps }

/-- ADVANCE (R262): the error is sticky (R266), DONE is final (R265), and an `off` beyond the
buffer is REFUSED (R267), in that order. Otherwise the per-call state is set up, and the loop of
R263 runs as the steps that follow. -/
def execAdvance (inp out : List Byte) (off : Nat) (eoi : Bool) (s : State) : Outcome :=
  if s.phase = .error then .next (respond (.advanced s.err 0 0 out) s)
  else if s.phase = .done then .next (respond (.advanced statusOk 0 0 out) s)
  else if out.length < off then .next (respond .refused s)
  else .next (beginCall inp out off eoi s)

/-- IS_DONE (R268). -/
def execIsDone (s : State) : Outcome := .next (respond (.isDone (decide (s.phase = .done))) s)

/-- IGNORE_CHECKSUM (R269): `ignore_ck <- 1`. -/
def execIgnoreChecksum (s : State) : Outcome := .next (respond .completed { s with ignoreCk := true })

/-- CHECKSUM (R270): return `ck`. -/
def execChecksum (s : State) : Outcome := .next (respond (.checksum s.ck) s)

end Sys2Proof.Machine
end

