-- ==== Sys2Proof/Machine/Distances.lean ====
section
/-! DEFINITION. Distance symbols (R194, R195, R197). -/

namespace Sys2Proof.Machine

/-- The code length of a distance symbol: the bits of its code word. -/
def distWidth (s : State) (sym : Nat) : Nat := lengthAt s.codeD sym

/-- Clear the element in progress: the F_LL element is committed. -/
def dropPending (s : State) : State := { s with call := s.call.map fun c => { c with pend := none } }

/-- The distance part of an F_LL element (R195): check the distance against `hist`, then commit the
whole element and start the back-reference. -/
def distancePart (sym e : Nat) (s : State) : Outcome :=
  match s.call with
  | none => .fault .noCall
  | some c =>
    match c.pend with
    | none => .fault .noLength
    | some p =>
      if distBase sym + e > s.hist.toNat then raise .invalidDistance s
      else
        andThen (consume (p.used + distWidth s sym + distExtra sym) s) fun t =>
          .next { dropPending t with
            brLen := p.length
            brDist := BitVec.ofNat 16 (distBase sym + e)
            phase := .backReference }

/-- Distance symbol 0 (R195). -/
def execDist0 (s : State) : Outcome := distancePart 0 0 s

/-- Distance symbol 1 (R195). -/
def execDist1 (s : State) : Outcome := distancePart 1 0 s

/-- Distance symbol 2 (R195). -/
def execDist2 (s : State) : Outcome := distancePart 2 0 s

/-- Distance symbol 3 (R195). -/
def execDist3 (s : State) : Outcome := distancePart 3 0 s

/-- Distance symbol 4 (R195). -/
def execDist4 (extra : BitVec 1) (s : State) : Outcome := distancePart 4 extra.toNat s

/-- Distance symbol 5 (R195). -/
def execDist5 (extra : BitVec 1) (s : State) : Outcome := distancePart 5 extra.toNat s

/-- Distance symbol 6 (R195). -/
def execDist6 (extra : BitVec 2) (s : State) : Outcome := distancePart 6 extra.toNat s

/-- Distance symbol 7 (R195). -/
def execDist7 (extra : BitVec 2) (s : State) : Outcome := distancePart 7 extra.toNat s

/-- Distance symbol 8 (R195). -/
def execDist8 (extra : BitVec 3) (s : State) : Outcome := distancePart 8 extra.toNat s

/-- Distance symbol 9 (R195). -/
def execDist9 (extra : BitVec 3) (s : State) : Outcome := distancePart 9 extra.toNat s

/-- Distance symbol 10 (R195). -/
def execDist10 (extra : BitVec 4) (s : State) : Outcome := distancePart 10 extra.toNat s

/-- Distance symbol 11 (R195). -/
def execDist11 (extra : BitVec 4) (s : State) : Outcome := distancePart 11 extra.toNat s

/-- Distance symbol 12 (R195). -/
def execDist12 (extra : BitVec 5) (s : State) : Outcome := distancePart 12 extra.toNat s

/-- Distance symbol 13 (R195). -/
def execDist13 (extra : BitVec 5) (s : State) : Outcome := distancePart 13 extra.toNat s

/-- Distance symbol 14 (R195). -/
def execDist14 (extra : BitVec 6) (s : State) : Outcome := distancePart 14 extra.toNat s

/-- Distance symbol 15 (R195). -/
def execDist15 (extra : BitVec 6) (s : State) : Outcome := distancePart 15 extra.toNat s

/-- Distance symbol 16 (R195). -/
def execDist16 (extra : BitVec 7) (s : State) : Outcome := distancePart 16 extra.toNat s

/-- Distance symbol 17 (R195). -/
def execDist17 (extra : BitVec 7) (s : State) : Outcome := distancePart 17 extra.toNat s

/-- Distance symbol 18 (R195). -/
def execDist18 (extra : BitVec 8) (s : State) : Outcome := distancePart 18 extra.toNat s

/-- Distance symbol 19 (R195). -/
def execDist19 (extra : BitVec 8) (s : State) : Outcome := distancePart 19 extra.toNat s

/-- Distance symbol 20 (R195). -/
def execDist20 (extra : BitVec 9) (s : State) : Outcome := distancePart 20 extra.toNat s

/-- Distance symbol 21 (R195). -/
def execDist21 (extra : BitVec 9) (s : State) : Outcome := distancePart 21 extra.toNat s

/-- Distance symbol 22 (R195). -/
def execDist22 (extra : BitVec 10) (s : State) : Outcome := distancePart 22 extra.toNat s

/-- Distance symbol 23 (R195). -/
def execDist23 (extra : BitVec 10) (s : State) : Outcome := distancePart 23 extra.toNat s

/-- Distance symbol 24 (R195). -/
def execDist24 (extra : BitVec 11) (s : State) : Outcome := distancePart 24 extra.toNat s

/-- Distance symbol 25 (R195). -/
def execDist25 (extra : BitVec 11) (s : State) : Outcome := distancePart 25 extra.toNat s

/-- Distance symbol 26 (R195). -/
def execDist26 (extra : BitVec 12) (s : State) : Outcome := distancePart 26 extra.toNat s

/-- Distance symbol 27 (R195). -/
def execDist27 (extra : BitVec 12) (s : State) : Outcome := distancePart 27 extra.toNat s

/-- Distance symbol 28 (R195). -/
def execDist28 (extra : BitVec 13) (s : State) : Outcome := distancePart 28 extra.toNat s

/-- Distance symbol 29 (R195). -/
def execDist29 (extra : BitVec 13) (s : State) : Outcome := distancePart 29 extra.toNat s

/-- Distance symbol 30 (R197). -/
def execDistInvalid30 (s : State) : Outcome := raise .invalidSymbol s

/-- Distance symbol 31 (R197). -/
def execDistInvalid31 (s : State) : Outcome := raise .invalidSymbol s

end Sys2Proof.Machine
end

