-- ==== Sys2Proof/Machine/Dynamic.lean ====
section
/-! DEFINITION. The dynamic block header: DHDR, CLL and the code-length symbols (R154 to R161). -/

namespace Sys2Proof.Machine

/-- DHDR (R154): the counts; HLIT above 286 or HDIST above 30 raises MalformedHuffmanTable. -/
def execDhdr (hlit hdist : BitVec 5) (hclen : BitVec 4) (s : State) : Outcome :=
  if hlit.toNat + 257 > 286 ∨ hdist.toNat + 1 > 30 then raise .malformedHuffmanTable s
  else
    andThen (consume 14 s) fun t => .next { t with
      hlit := BitVec.ofNat 9 (hlit.toNat + 257)
      hdist := BitVec.ofNat 5 (hdist.toNat + 1)
      hclen := BitVec.ofNat 5 (hclen.toNat + 4)
      clLen := Vector.replicate 19 0
      clIdx := 0
      phase := .dynClLens }

/-- The code-length code with the length read at `cl_idx` applied (R155): `X[CL_ORDER[cl_idx]] = v`. -/
def setClLen (s : State) (v : BitVec 3) : Vector (BitVec 3) 19 :=
  s.clLen.setIfInBounds (clOrder.getD s.clIdx.toNat 19) v

/-- CLL (R155): the last one completes the code-length code, which is checked before the commit. -/
def execCll (v : BitVec 3) (s : State) : Outcome :=
  if s.clIdx.toNat + 1 = s.hclen.toNat ∧ clAccepted (lengthsOf (setClLen s v)) = false then
    raise .malformedHuffmanTable s
  else
    andThen (consume 3 s) fun t =>
      let u : State := { t with clLen := setClLen s v, clIdx := t.clIdx + 1 }
      if s.clIdx.toNat + 1 = s.hclen.toNat then .next { u with dynIdx := 0, phase := .dynLens }
      else .next u

/-- `tot <- hlit + hdist` (R156). -/
def lengthTotal (s : State) : Nat := s.hlit.toNat + s.hdist.toNat

/-- The lengths after the run of this element (R156): `lens[j .. j+r−1] <- val`. -/
def runLens (r : Nat) (val : BitVec 4) (s : State) : Vector (BitVec 4) 316 :=
  fillRun s.lens s.dynIdx.toNat r val

/-- The literal/length code the lengths give (R161). -/
def newCodeLL (lens : Vector (BitVec 4) 316) (s : State) : Vector (BitVec 4) 288 :=
  litLenLengths lens s.hlit.toNat

/-- The distance code the lengths give (R161). -/
def newCodeD (lens : Vector (BitVec 4) 316) (s : State) : Vector (BitVec 4) 32 :=
  distLengths lens s.hlit.toNat s.hdist.toNat

/-- Both codes are accepted (R161, R123, R124). -/
def endChecksOk (lens : Vector (BitVec 4) 316) (s : State) : Bool :=
  llAccepted (lengthsOf (newCodeLL lens s)) && distAccepted (lengthsOf (newCodeD lens s))

/-- The frame of a code-length symbol (R156): a run of `r` lengths `val`, by an element of `u` bits.
The run that reaches `tot` is checked before the commit and installs the codes after it (R161). -/
def applyRun (r : Nat) (val : BitVec 4) (u : Nat) (s : State) : Outcome :=
  if s.dynIdx.toNat + r = lengthTotal s ∧ endChecksOk (runLens r val s) s = false then
    raise .malformedHuffmanTable s
  else
    andThen (consume u s) fun t =>
      let n : State := { t with
        lens := runLens r val s
        dynIdx := BitVec.ofNat 9 (s.dynIdx.toNat + r) }
      if s.dynIdx.toNat + r = lengthTotal s then
        .next { n with
          codeLL := newCodeLL (runLens r val s) s
          codeD := newCodeD (runLens r val s) s
          phase := .symbolLoop }
      else .next n

/-- A repeat that runs past `tot` is refused (R158 to R160). -/
def applyRepeat (r : Nat) (val : BitVec 4) (u : Nat) (s : State) : Outcome :=
  if s.dynIdx.toNat + r > lengthTotal s then raise .malformedHuffmanTable s
  else applyRun r val u s

/-- The code length of a code-length symbol: the bits of its code word. -/
def clWidth (s : State) (sym : Nat) : Nat := lengthAt s.clLen sym

/-- The previous length `lens[j − 1]` (R158). -/
def previousLength (s : State) : BitVec 4 := s.lens.toList.getD (s.dynIdx.toNat - 1) 0

/-- Symbols 0..15 (R157): one code length. -/
def execClsymLen (sym : BitVec 4) (s : State) : Outcome := applyRun 1 sym (clWidth s sym.toNat) s

/-- Symbol 16 (R158): repeat the previous length 3 to 6 times; with no previous length it is refused
whatever its extra bits are. -/
def execClsym16 (extra : BitVec 2) (s : State) : Outcome :=
  if s.dynIdx = 0 then raise .malformedHuffmanTable s
  else applyRepeat (3 + extra.toNat) (previousLength s) (clWidth s 16 + 2) s

/-- Symbol 17 (R159): a run of 3 to 10 zeros. -/
def execClsym17 (extra : BitVec 3) (s : State) : Outcome :=
  applyRepeat (3 + extra.toNat) 0 (clWidth s 17 + 3) s

/-- Symbol 18 (R160): a run of 11 to 138 zeros. -/
def execClsym18 (extra : BitVec 7) (s : State) : Outcome :=
  applyRepeat (11 + extra.toNat) 0 (clWidth s 18 + 7) s

end Sys2Proof.Machine
end

