-- ==== Sys2Proof/Machine/Symbols.lean ====
section
/-! DEFINITION. Literal/length symbols (R190 to R198). -/

namespace Sys2Proof.Machine

/-- The code length of a literal/length symbol: the bits of its code word. -/
def llWidth (s : State) (sym : Nat) : Nat := lengthAt s.codeLL sym

/-- The length part of an F_LL element (R195): `length <- LEN_BASE[i] + e`, with the code word and
the extra field counted in `u`. Nothing is committed: the element goes on with a distance symbol. -/
def lengthPart (sym e : Nat) (s : State) : Outcome :=
  match s.call with
  | none => .fault .noCall
  | some c =>
    .next { s with
      call := some { c with
        pend := some ⟨BitVec.ofNat 9 (lenBase sym + e), llWidth s sym + lenExtra sym⟩ } }

/-- LIT (R191): with no room the literal stalls with its bits pending. -/
def execLit (b : Byte) (s : State) : Outcome :=
  if room s = 0 then stall s
  else andThen (consume (llWidth s b.toNat) s) (emit b)

/-- EOB (R192): commits with no room needed. -/
def execEob (s : State) : Outcome :=
  andThen (consume (llWidth s 256) s) fun t => .next (endBlock t)

/-- Length symbol 257 (R195). -/
def execLen257 (s : State) : Outcome := lengthPart 257 0 s

/-- Length symbol 258 (R195). -/
def execLen258 (s : State) : Outcome := lengthPart 258 0 s

/-- Length symbol 259 (R195). -/
def execLen259 (s : State) : Outcome := lengthPart 259 0 s

/-- Length symbol 260 (R195). -/
def execLen260 (s : State) : Outcome := lengthPart 260 0 s

/-- Length symbol 261 (R195). -/
def execLen261 (s : State) : Outcome := lengthPart 261 0 s

/-- Length symbol 262 (R195). -/
def execLen262 (s : State) : Outcome := lengthPart 262 0 s

/-- Length symbol 263 (R195). -/
def execLen263 (s : State) : Outcome := lengthPart 263 0 s

/-- Length symbol 264 (R195). -/
def execLen264 (s : State) : Outcome := lengthPart 264 0 s

/-- Length symbol 265 (R195). -/
def execLen265 (extra : BitVec 1) (s : State) : Outcome := lengthPart 265 extra.toNat s

/-- Length symbol 266 (R195). -/
def execLen266 (extra : BitVec 1) (s : State) : Outcome := lengthPart 266 extra.toNat s

/-- Length symbol 267 (R195). -/
def execLen267 (extra : BitVec 1) (s : State) : Outcome := lengthPart 267 extra.toNat s

/-- Length symbol 268 (R195). -/
def execLen268 (extra : BitVec 1) (s : State) : Outcome := lengthPart 268 extra.toNat s

/-- Length symbol 269 (R195). -/
def execLen269 (extra : BitVec 2) (s : State) : Outcome := lengthPart 269 extra.toNat s

/-- Length symbol 270 (R195). -/
def execLen270 (extra : BitVec 2) (s : State) : Outcome := lengthPart 270 extra.toNat s

/-- Length symbol 271 (R195). -/
def execLen271 (extra : BitVec 2) (s : State) : Outcome := lengthPart 271 extra.toNat s

/-- Length symbol 272 (R195). -/
def execLen272 (extra : BitVec 2) (s : State) : Outcome := lengthPart 272 extra.toNat s

/-- Length symbol 273 (R195). -/
def execLen273 (extra : BitVec 3) (s : State) : Outcome := lengthPart 273 extra.toNat s

/-- Length symbol 274 (R195). -/
def execLen274 (extra : BitVec 3) (s : State) : Outcome := lengthPart 274 extra.toNat s

/-- Length symbol 275 (R195). -/
def execLen275 (extra : BitVec 3) (s : State) : Outcome := lengthPart 275 extra.toNat s

/-- Length symbol 276 (R195). -/
def execLen276 (extra : BitVec 3) (s : State) : Outcome := lengthPart 276 extra.toNat s

/-- Length symbol 277 (R195). -/
def execLen277 (extra : BitVec 4) (s : State) : Outcome := lengthPart 277 extra.toNat s

/-- Length symbol 278 (R195). -/
def execLen278 (extra : BitVec 4) (s : State) : Outcome := lengthPart 278 extra.toNat s

/-- Length symbol 279 (R195). -/
def execLen279 (extra : BitVec 4) (s : State) : Outcome := lengthPart 279 extra.toNat s

/-- Length symbol 280 (R195). -/
def execLen280 (extra : BitVec 4) (s : State) : Outcome := lengthPart 280 extra.toNat s

/-- Length symbol 281 (R195). -/
def execLen281 (extra : BitVec 5) (s : State) : Outcome := lengthPart 281 extra.toNat s

/-- Length symbol 282 (R195). -/
def execLen282 (extra : BitVec 5) (s : State) : Outcome := lengthPart 282 extra.toNat s

/-- Length symbol 283 (R195). -/
def execLen283 (extra : BitVec 5) (s : State) : Outcome := lengthPart 283 extra.toNat s

/-- Length symbol 284 (R195, R198): the extra value 31 is refused before the distance symbol. -/
def execLen284 (extra : BitVec 5) (s : State) : Outcome :=
  if extra = 31 then raise .invalidSymbol s else lengthPart 284 extra.toNat s

/-- Length symbol 285 (R195). -/
def execLen285 (s : State) : Outcome := lengthPart 285 0 s

/-- Symbol 286 (R196). -/
def execLlInvalid286 (s : State) : Outcome := raise .invalidSymbol s

/-- Symbol 287 (R196). -/
def execLlInvalid287 (s : State) : Outcome := raise .invalidSymbol s

end Sys2Proof.Machine
end

