-- ==== Sys2Proof/Machine/Wrapper.lean ====
section
/-! DEFINITION. The zlib wrapper: header and trailer (R243 to R245). -/

namespace Sys2Proof.Machine

/-- ZHDR (R243): a bad header raises MalformedHeader (R244). -/
def execZhdr (cmf flg : Byte) (s : State) : Outcome :=
  if headerBad cmf flg then raise .malformedHeader s
  else andThen (consume 16 s) fun t => .next { t with phase := .blockHeader }

/-- TRAILER (R245): compared with `ck` unless `ignore_ck = 1`. -/
def execTrailer (b0 b1 b2 b3 : Byte) (s : State) : Outcome :=
  if s.ignoreCk = false ∧ trailerValue b0 b1 b2 b3 ≠ s.ck then raise .checksumMismatch s
  else andThen (consume 32 s) fun t => .next { t with phase := .done }

end Sys2Proof.Machine
end

