-- ==== Sys2Proof/WellFormed.lean ====
section
/-! DEFINITION. What a well-formed instruction is. The operand types already bound every field of
the stream (R72: a field of n bits is an n-bit value), so the checks left are the port's bounds on
the two buffers of ADVANCE (R11, R267). -/

namespace Sys2Proof

/-- A buffer the port can carry: at most `BUF_MAX` bytes (R11). -/
def bufferFits (buf : List Byte) : Bool := decide (buf.length ≤ Config.bufMax)

/-- `WellFormed i`: every operand of `i` is one the port or the stream can carry. -/
def WellFormed : Instr → Bool
  | .advance inp out _ _ => bufferFits inp && bufferFits out
  | _ => true

/-- A transaction the port can carry (R11, R267). -/
def Transaction.fits (t : Transaction) : Bool := bufferFits t.inp && bufferFits t.out

end Sys2Proof
end

