-- ==== Sys2Proof/Decode.lean ====
section
/-! DEFINITION. Decoding, total on any bits and rejecting by name, and the encoder written from the
same tables. Two levels (R70): a host command is read from its transaction (R83); a stream element
is read from a bit window, in the format its phase expects (R71) and with the active code (R85).
Last, the host's view of the opcode table (`decodeTableWord`). -/

namespace Sys2Proof

open Machine

/-! ### Host commands (R83) -/

/-- Read the command word (R83). `none`: the port refuses the word, because OPC is 5..15 or a bit
that must be 0 is set (R84, R261). -/
def decodeCommand (t : Transaction) : Option Instr :=
  let w := t.word.toNat
  let c := field w 4 1
  let z := field w 5 1
  let e := field w 6 1
  let top := field w 7 1
  match field w 0 4 with
  | 0 =>
    if e = 0 ∧ top = 0 then
      some (.reset (if c = 1 then .small else .fast) (if z = 1 then .zlib else .raw))
    else none
  | 1 => if c = 0 ∧ z = 0 ∧ top = 0 then some (.advance t.inp t.out t.off (decide (e = 1))) else none
  | 2 => if c = 0 ∧ z = 0 ∧ e = 0 ∧ top = 0 then some .isDone else none
  | 3 => if c = 0 ∧ z = 0 ∧ e = 0 ∧ top = 0 then some .ignoreChecksum else none
  | 4 => if c = 0 ∧ z = 0 ∧ e = 0 ∧ top = 0 then some .checksum else none
  | _ => none

/-! ### Stream elements (R71 to R82) -/

/-- The format the machine expects next (R71), with the active code where the format is Huffman
coded (R85). -/
inductive ElemCtx where
  /-- F_ZH, the zlib header. -/
  | zh
  /-- F_BH, the block header. -/
  | bh
  /-- F_SL, stored LEN/NLEN. -/
  | sl
  /-- F_SD, a stored byte. -/
  | sd
  /-- F_DH, the dynamic header. -/
  | dh
  /-- F_CLL, a code-length-code length. -/
  | cll
  /-- F_CLS, a code-length symbol. `noPrev` says that no length has been read yet: symbol 16 is
  then refused before its extra bits are read (R158). -/
  | cls (code : Lengths) (noPrev : Bool)
  /-- F_LL, a literal/length symbol with the extra field of a length. -/
  | ll (code : Lengths)
  /-- The distance part of F_LL, at element offset `u` (R101). -/
  | dist (code : Lengths) (u : Nat)
  /-- F_TR, the trailer. -/
  | tr
deriving DecidableEq, Repr

/-- The element offset at which the format starts (R101). -/
def ElemCtx.offset : ElemCtx → Nat
  | .dist _ u => u
  | _ => 0

/-- The instruction of a literal/length symbol with extra value `e` (R80). `none`: no symbol. -/
def litLenInstr : Nat → Nat → Option Instr
  | 256, _ => some .eob
  | 257, _ => some .len257
  | 258, _ => some .len258
  | 259, _ => some .len259
  | 260, _ => some .len260
  | 261, _ => some .len261
  | 262, _ => some .len262
  | 263, _ => some .len263
  | 264, _ => some .len264
  | 265, e => some (.len265 (BitVec.ofNat 1 e))
  | 266, e => some (.len266 (BitVec.ofNat 1 e))
  | 267, e => some (.len267 (BitVec.ofNat 1 e))
  | 268, e => some (.len268 (BitVec.ofNat 1 e))
  | 269, e => some (.len269 (BitVec.ofNat 2 e))
  | 270, e => some (.len270 (BitVec.ofNat 2 e))
  | 271, e => some (.len271 (BitVec.ofNat 2 e))
  | 272, e => some (.len272 (BitVec.ofNat 2 e))
  | 273, e => some (.len273 (BitVec.ofNat 3 e))
  | 274, e => some (.len274 (BitVec.ofNat 3 e))
  | 275, e => some (.len275 (BitVec.ofNat 3 e))
  | 276, e => some (.len276 (BitVec.ofNat 3 e))
  | 277, e => some (.len277 (BitVec.ofNat 4 e))
  | 278, e => some (.len278 (BitVec.ofNat 4 e))
  | 279, e => some (.len279 (BitVec.ofNat 4 e))
  | 280, e => some (.len280 (BitVec.ofNat 4 e))
  | 281, e => some (.len281 (BitVec.ofNat 5 e))
  | 282, e => some (.len282 (BitVec.ofNat 5 e))
  | 283, e => some (.len283 (BitVec.ofNat 5 e))
  | 284, e => some (.len284 (BitVec.ofNat 5 e))
  | 285, _ => some .len285
  | 286, _ => some .llInvalid286
  | 287, _ => some .llInvalid287
  | s, _ => if s < 256 then some (.lit (BitVec.ofNat 8 s)) else none

/-- The instruction of a distance symbol with extra value `e` (R81). `none`: no symbol. -/
def distInstr : Nat → Nat → Option Instr
  | 0, _ => some .dist0
  | 1, _ => some .dist1
  | 2, _ => some .dist2
  | 3, _ => some .dist3
  | 4, e => some (.dist4 (BitVec.ofNat 1 e))
  | 5, e => some (.dist5 (BitVec.ofNat 1 e))
  | 6, e => some (.dist6 (BitVec.ofNat 2 e))
  | 7, e => some (.dist7 (BitVec.ofNat 2 e))
  | 8, e => some (.dist8 (BitVec.ofNat 3 e))
  | 9, e => some (.dist9 (BitVec.ofNat 3 e))
  | 10, e => some (.dist10 (BitVec.ofNat 4 e))
  | 11, e => some (.dist11 (BitVec.ofNat 4 e))
  | 12, e => some (.dist12 (BitVec.ofNat 5 e))
  | 13, e => some (.dist13 (BitVec.ofNat 5 e))
  | 14, e => some (.dist14 (BitVec.ofNat 6 e))
  | 15, e => some (.dist15 (BitVec.ofNat 6 e))
  | 16, e => some (.dist16 (BitVec.ofNat 7 e))
  | 17, e => some (.dist17 (BitVec.ofNat 7 e))
  | 18, e => some (.dist18 (BitVec.ofNat 8 e))
  | 19, e => some (.dist19 (BitVec.ofNat 8 e))
  | 20, e => some (.dist20 (BitVec.ofNat 9 e))
  | 21, e => some (.dist21 (BitVec.ofNat 9 e))
  | 22, e => some (.dist22 (BitVec.ofNat 10 e))
  | 23, e => some (.dist23 (BitVec.ofNat 10 e))
  | 24, e => some (.dist24 (BitVec.ofNat 11 e))
  | 25, e => some (.dist25 (BitVec.ofNat 11 e))
  | 26, e => some (.dist26 (BitVec.ofNat 12 e))
  | 27, e => some (.dist27 (BitVec.ofNat 12 e))
  | 28, e => some (.dist28 (BitVec.ofNat 13 e))
  | 29, e => some (.dist29 (BitVec.ofNat 13 e))
  | 30, _ => some .distInvalid30
  | 31, _ => some .distInvalid31
  | _, _ => none

/-- The instruction of a code-length symbol with extra value `e` (R79). Values 19..31 are no
symbol. -/
def clsymInstr : Nat → Nat → Option Instr
  | 16, e => some (.clsym16 (BitVec.ofNat 2 e))
  | 17, e => some (.clsym17 (BitVec.ofNat 3 e))
  | 18, e => some (.clsym18 (BitVec.ofNat 7 e))
  | s, _ => if s < 16 then some (.clsymLen (BitVec.ofNat 4 s)) else none

/-- Turn a symbol into its instruction; a number that is no symbol of its alphabet is refused by
name (R80, R81; the alphabets have no such symbol, so the codes never give one). -/
def orInvalid : Option Instr → Peek Instr
  | some i => .got i
  | none => .bad .invalidSymbol

/-- The block header instruction of a 3-bit F_BH (R74, R75). -/
def blockInstr (v : Nat) : Instr :=
  let bf := decide (field v 0 1 = 1)
  match field v 1 2 with
  | 0 => .blkStored bf
  | 1 => .blkFixed bf
  | 2 => .blkDynamic bf
  | _ => .blkReserved bf

/-- Read one element from the window `v`, of which the first `k` bits are known (R85, R101). Every
read is a peek: `needMore` asks for one more byte (R104, R106). -/
def decodeElem : ElemCtx → Nat → Nat → Peek Instr
  | .zh, v, k => (bitsAt v k 0 16).bind fun x =>
      .got (.zhdr (BitVec.ofNat 8 (field x 0 8)) (BitVec.ofNat 8 (field x 8 8)))
  | .bh, v, k => (bitsAt v k 0 3).bind fun x => .got (blockInstr x)
  | .sl, v, k => (bitsAt v k 0 16).bind fun len => (bitsAt v k 16 16).bind fun nlen =>
      .got (.slen (BitVec.ofNat 16 len) (BitVec.ofNat 16 nlen))
  | .sd, v, k => (bitsAt v k 0 8).bind fun x => .got (.sdata (BitVec.ofNat 8 x))
  | .dh, v, k => (bitsAt v k 0 14).bind fun x =>
      .got (.dhdr (BitVec.ofNat 5 (field x 0 5)) (BitVec.ofNat 5 (field x 5 5))
        (BitVec.ofNat 4 (field x 10 4)))
  | .cll, v, k => (bitsAt v k 0 3).bind fun x => .got (.cll (BitVec.ofNat 3 x))
  | .cls code noPrev, v, k => (hdecodeAt code v k 0).bind fun sl =>
      if sl.1 = 16 ∧ noPrev = true then .got (.clsym16 0)
      else (extraAt v k sl.2 (clExtra sl.1)).bind fun e => orInvalid (clsymInstr sl.1 e)
  | .ll code, v, k => (hdecodeAt code v k 0).bind fun sl =>
      (extraAt v k sl.2 (lenExtra sl.1)).bind fun e => orInvalid (litLenInstr sl.1 e)
  | .dist code u, v, k => (hdecodeAt code v k u).bind fun sl =>
      (extraAt v k (u + sl.2) (distExtra sl.1)).bind fun e => orInvalid (distInstr sl.1 e)
  | .tr, v, k => (bitsAt v k 0 16).bind fun lo => (bitsAt v k 16 16).bind fun hi =>
      .got (.trailer (BitVec.ofNat 8 (field lo 0 8)) (BitVec.ofNat 8 (field lo 8 8))
        (BitVec.ofNat 8 (field hi 0 8)) (BitVec.ofNat 8 (field hi 8 8)))

/-! ### The encoder -/

/-- The transaction that carries a host command (R83). `none`: not a command. -/
def encodeCommand : Instr → Option Transaction
  | .reset cfg wrap =>
    some ⟨BitVec.ofNat 8 ((if cfg = .small then 16 else 0) + (if wrap = .zlib then 32 else 0)),
      [], [], 0⟩
  | .advance inp out off eoi => some ⟨BitVec.ofNat 8 (1 + if eoi then 64 else 0), inp, out, off⟩
  | .isDone => some ⟨2, [], [], 0⟩
  | .ignoreChecksum => some ⟨3, [], [], 0⟩
  | .checksum => some ⟨4, [], [], 0⟩
  | _ => none

/-- The literal/length symbol and extra value of an instruction (R80). -/
def litLenSym : Instr → Option (Nat × Nat)
  | .lit b => some (b.toNat, 0)
  | .eob => some (256, 0)
  | .len257 => some (257, 0)
  | .len258 => some (258, 0)
  | .len259 => some (259, 0)
  | .len260 => some (260, 0)
  | .len261 => some (261, 0)
  | .len262 => some (262, 0)
  | .len263 => some (263, 0)
  | .len264 => some (264, 0)
  | .len265 e => some (265, e.toNat)
  | .len266 e => some (266, e.toNat)
  | .len267 e => some (267, e.toNat)
  | .len268 e => some (268, e.toNat)
  | .len269 e => some (269, e.toNat)
  | .len270 e => some (270, e.toNat)
  | .len271 e => some (271, e.toNat)
  | .len272 e => some (272, e.toNat)
  | .len273 e => some (273, e.toNat)
  | .len274 e => some (274, e.toNat)
  | .len275 e => some (275, e.toNat)
  | .len276 e => some (276, e.toNat)
  | .len277 e => some (277, e.toNat)
  | .len278 e => some (278, e.toNat)
  | .len279 e => some (279, e.toNat)
  | .len280 e => some (280, e.toNat)
  | .len281 e => some (281, e.toNat)
  | .len282 e => some (282, e.toNat)
  | .len283 e => some (283, e.toNat)
  | .len284 e => some (284, e.toNat)
  | .len285 => some (285, 0)
  | .llInvalid286 => some (286, 0)
  | .llInvalid287 => some (287, 0)
  | _ => none

/-- The distance symbol and extra value of an instruction (R81). -/
def distSym : Instr → Option (Nat × Nat)
  | .dist0 => some (0, 0)
  | .dist1 => some (1, 0)
  | .dist2 => some (2, 0)
  | .dist3 => some (3, 0)
  | .dist4 e => some (4, e.toNat)
  | .dist5 e => some (5, e.toNat)
  | .dist6 e => some (6, e.toNat)
  | .dist7 e => some (7, e.toNat)
  | .dist8 e => some (8, e.toNat)
  | .dist9 e => some (9, e.toNat)
  | .dist10 e => some (10, e.toNat)
  | .dist11 e => some (11, e.toNat)
  | .dist12 e => some (12, e.toNat)
  | .dist13 e => some (13, e.toNat)
  | .dist14 e => some (14, e.toNat)
  | .dist15 e => some (15, e.toNat)
  | .dist16 e => some (16, e.toNat)
  | .dist17 e => some (17, e.toNat)
  | .dist18 e => some (18, e.toNat)
  | .dist19 e => some (19, e.toNat)
  | .dist20 e => some (20, e.toNat)
  | .dist21 e => some (21, e.toNat)
  | .dist22 e => some (22, e.toNat)
  | .dist23 e => some (23, e.toNat)
  | .dist24 e => some (24, e.toNat)
  | .dist25 e => some (25, e.toNat)
  | .dist26 e => some (26, e.toNat)
  | .dist27 e => some (27, e.toNat)
  | .dist28 e => some (28, e.toNat)
  | .dist29 e => some (29, e.toNat)
  | .distInvalid30 => some (30, 0)
  | .distInvalid31 => some (31, 0)
  | _ => none

/-- The code-length symbol and extra value of an instruction (R79). -/
def clsymSym : Instr → Option (Nat × Nat)
  | .clsymLen s => some (s.toNat, 0)
  | .clsym16 e => some (16, e.toNat)
  | .clsym17 e => some (17, e.toNat)
  | .clsym18 e => some (18, e.toNat)
  | _ => none

/-- A number of stream bits, the first one least significant (R54, R72). -/
structure BitString where
  bits : Nat
  width : Nat
deriving DecidableEq, Repr

/-- The code word of a symbol in stream order, then its extra field (R121, R72). `none`: the code
has no word for the symbol. -/
def encodeSym (code : Lengths) (extraWidth : Nat) : Nat × Nat → Option BitString
  | (s, e) =>
    match (codeWords code).find? (fun w => decide (w.sym = s)) with
    | some w => some ⟨rev w.len w.code + e * 2 ^ w.len, w.len + extraWidth⟩
    | none => none

/-- The stream bits of an element in a format (R72 to R82, R121). `none`: the instruction is not of
that format, or the active code has no word for its symbol. -/
def encodeElem : ElemCtx → Instr → Option BitString
  | .zh, .zhdr cmf flg => some ⟨cmf.toNat + flg.toNat * 2 ^ 8, 16⟩
  | .bh, .blkStored f => some ⟨f.toNat, 3⟩
  | .bh, .blkFixed f => some ⟨f.toNat + 2, 3⟩
  | .bh, .blkDynamic f => some ⟨f.toNat + 4, 3⟩
  | .bh, .blkReserved f => some ⟨f.toNat + 6, 3⟩
  | .sl, .slen len nlen => some ⟨len.toNat + nlen.toNat * 2 ^ 16, 32⟩
  | .sd, .sdata b => some ⟨b.toNat, 8⟩
  | .dh, .dhdr hl hd hc => some ⟨hl.toNat + hd.toNat * 2 ^ 5 + hc.toNat * 2 ^ 10, 14⟩
  | .cll, .cll v => some ⟨v.toNat, 3⟩
  | .cls code _, i => (clsymSym i).bind fun se => encodeSym code (clExtra se.1) se
  | .ll code, i => (litLenSym i).bind fun se => encodeSym code (lenExtra se.1) se
  | .dist code _, i => (distSym i).bind fun se => encodeSym code (distExtra se.1) se
  | .tr, .trailer b0 b1 b2 b3 =>
    some ⟨b0.toNat + b1.toNat * 2 ^ 8 + b2.toNat * 2 ^ 16 + b3.toNat * 2 ^ 24, 32⟩
  | _, _ => none

/-! ### The opcode table's words -/

/-- The code-length code used to lay out a table row's symbol: 13 symbols of length 4 and 6 of
length 5, a complete code of all 19 symbols (assumption log 12). -/
def tableClCode : Vector (BitVec 3) 19 := ⟨⟨List.replicate 13 4 ++ List.replicate 6 5⟩, by
  rw [List.size_toArray, List.length_append, List.length_replicate, List.length_replicate]⟩

/-- What a word of the opcode table is laid out as (R88): a command on the port, or an element's
stream bits in its format. -/
inductive TableWord where
  | command (t : Transaction)
  | element (c : ElemCtx) (b : BitString)
deriving DecidableEq, Repr

/-- Lay a table word out. A row of a symbol format matches the decoded symbol (R88), so its word is
laid out as that symbol's code word with a zero extra field: literal/length and distance symbols in
the fixed codes, code-length symbols in `tableClCode`. Rows of different formats overlap, because
the phase and not the word says which format is next (R70); the order tried here is: a command; a
3-bit block header; a code-length symbol 17 or 18; a distance symbol; a stored byte; and among the
wider words a literal/length symbol, a zlib header that passes its checks, a dynamic header; a
distance symbol, a stored LEN/NLEN, a trailer (assumption log 12). -/
def layTableWord (nbits w : Nat) : Option TableWord :=
  let dist : Option TableWord :=
    (encodeSym (lengthsOf fixedD) (distExtra w) (w, 0)).map (.element (.dist (lengthsOf fixedD) 0))
  if nbits ≤ 8 then
    let t : Transaction := ⟨BitVec.ofNat 8 w, [], [], 0⟩
    if (decodeCommand t).isSome then some (.command t)
    else if w < 8 then some (.element .bh ⟨w, 3⟩)
    else if w = 17 ∨ w = 18 then
      (encodeSym (lengthsOf tableClCode) (clExtra w) (w, 0)).map
        (.element (.cls (lengthsOf tableClCode) false))
    else if w < 32 then dist
    else some (.element .sd ⟨w % 2 ^ 8, 8⟩)
  else if nbits ≤ 16 then
    if w < 288 then
      (encodeSym (lengthsOf fixedLL) (lenExtra w) (w, 0)).map (.element (.ll (lengthsOf fixedLL)))
    else if headerBad (BitVec.ofNat 8 (field w 0 8)) (BitVec.ofNat 8 (field w 8 8)) = false then
      some (.element .zh ⟨w % 2 ^ 16, 16⟩)
    else if w < 2 ^ 14 then some (.element .dh ⟨w, 14⟩)
    else some (.element .zh ⟨w % 2 ^ 16, 16⟩)
  else if nbits ≤ 24 then
    if w < 32 then dist else none
  else if nbits ≤ 32 then
    if 0 < w ∧ w < 32 then dist
    else if w = 0 ∨ storedLengthOk (BitVec.ofNat 16 (field w 0 16)) (BitVec.ofNat 16 (field w 16 16)) = true
    then some (.element .sl ⟨w % 2 ^ 32, 32⟩)
    else some (.element .tr ⟨w % 2 ^ 32, 32⟩)
  else none

/-- The number of whole bytes that hold `width` bits. -/
def byteCount (width : Nat) : Nat := (width + 7) / 8

/-- The bytes of a bit string in stream order, padded with zero bits (R54). -/
def BitString.bytes (b : BitString) : List Byte :=
  (List.range (byteCount b.width)).map fun i => BitVec.ofNat 8 (field b.bits (8 * i) 8)

/-- The instruction this decoder reads from a word of the opcode table, laid out by
`layTableWord` in whole bytes. -/
def decodeTableWord (nbits w : Nat) : Option Instr :=
  match layTableWord nbits w with
  | some (.command t) => decodeCommand t
  | some (.element c b) =>
    match decodeElem c b.bits (8 * byteCount b.width) with
    | .got i => some i
    | _ => none
  | none => none

end Sys2Proof
end

