-- ==== Sys2Proof/Machine/Fetch.lean ====
section
/-! DEFINITION. What the machine runs next (R164, R263): the next host command when the port is
idle, or the next element of the ADVANCE in progress, read from the pending bits with one FETCH for
every byte it needs. Also how a word of the opcode table is placed where this reads. -/

namespace Sys2Proof.Machine

/-- What a step finds to do: an instruction and the state after its FETCHes, or an outcome that
needs no instruction (idle, a refused command, a zero-width transition, the copy of a byte of a
back-reference, a stall, an error while reading, the end of the call). -/
inductive Fetched where
  | run (i : Instr) (s : State)
  | ended (o : Outcome)

/-- The element the phase expects as a run of peeks (R71, R101, R106). -/
def readElem (c : ElemCtx) (s : State) : Fetched :=
  match probe (decodeElem c) s with
  | .got i t => .run i t
  | .ended o => .ended o

/-- The next host command (R261). A word the port does not accept is REFUSED and changes no state
of the block. With no command presented the block is idle, with its state retained (R61, R314). -/
def nextCommand (s : State) : Fetched :=
  match s.cmds with
  | [] => .ended (.next s)
  | t :: rest =>
    match decodeCommand t with
    | none => .ended (.next (respond .refused { s with cmds := rest }))
    | some i => .run i { s with cmds := rest }

/-- The STORED_COPY step up to its byte (R153): the block ends when no byte is left; otherwise the
byte is read at `IN[ip]` and not consumed before it is written. -/
def readStored (c : Call) (s : State) : Fetched :=
  if s.stRem = 0 then .ended (.next (endBlock s))
  else
    match c.inp[c.ip]? with
    | none => .ended (shortage s)
    | some b => .run (.sdata b) s

/-- The format the machine expects next inside the call `c` (R71, R164), in a phase that reads an
element through `acc`: in SYMBOL_LOOP a literal/length symbol, or the distance part of the length
symbol just read (R190, R195). The other phases expect none. -/
def expected (c : Call) (s : State) : Option ElemCtx :=
  match s.phase with
  | .zlibHeader => some .zh
  | .blockHeader => some .bh
  | .storedLen => some .sl
  | .dynHeader => some .dh
  | .dynClLens => some .cll
  | .dynLens => some (.cls (lengthsOf s.clLen) (decide (s.dynIdx = 0)))
  | .symbolLoop =>
    match c.pend with
    | none => some (.ll (lengthsOf s.codeLL))
    | some p => some (.dist (lengthsOf s.codeD) p.used)
  | .trailer => some .tr
  | .storedCopy => none
  | .backReference => none
  | .done => none
  | .error => none

/-- The step of a phase that reads no element through `acc` (R153, R224), the end of the loop in
DONE (R263), and ERROR, in which nothing executes (R310). -/
def transfer (c : Call) (s : State) : Fetched :=
  match s.phase with
  | .storedCopy => readStored c s
  | .backReference => .ended (backReference s)
  | .done => .ended (finishCall statusOk s)
  | _ => .ended (.fault .stepInError)

/-- The step function of R164 inside the loop of R263, up to the instruction it runs. -/
def fetch (s : State) : Fetched :=
  match s.call with
  | none => nextCommand s
  | some c =>
    match expected c s with
    | some x => readElem x s
    | none => transfer c s

/-! ### Placing a word of the opcode table -/

/-- The phase that expects a format (R71). -/
def formatPhase : ElemCtx → Phase
  | .zh => .zlibHeader
  | .bh => .blockHeader
  | .sl => .storedLen
  | .sd => .storedCopy
  | .dh => .dynHeader
  | .cll => .dynClLens
  | .cls _ _ => .dynLens
  | .ll _ => .symbolLoop
  | .dist _ _ => .symbolLoop
  | .tr => .trailer

/-- A call whose input is the bytes given, with one byte of output room. -/
def placedCall (inp : List Byte) (pend : Option PendingLength) : Call where
  inp := inp
  out := [0]
  off := 0
  eoi := false
  ip := 0
  prod := 0
  pend := pend

/-- Put an element where the next step reads it: an ADVANCE in progress with the element's bytes as
its input, no bit pending, the phase that expects the format, and the code the word is laid out in
(assumption log 12). -/
def placeElem (c : ElemCtx) (b : BitString) (s : State) : State :=
  let t : State := { s with
    phase := formatPhase c
    acc := 0
    nb := 0
    call := some (placedCall b.bytes none) }
  match c with
  | .sd => { t with stRem := 1 }
  | .cls _ _ => { t with clLen := tableClCode }
  | .ll _ => { t with codeLL := fixedLL }
  | .dist _ _ => { t with codeD := fixedD, call := some (placedCall b.bytes (some ⟨3, 0⟩)) }
  | _ => t

/-- Put a word of the opcode table where the next step reads it: a command at the head of the
commands presented, with the port idle; an element as in `placeElem`. -/
def placeTableWord (s : State) (nbits w : Nat) : State :=
  match layTableWord nbits w with
  | some (.command t) => { s with call := none, cmds := t :: s.cmds }
  | some (.element c b) => placeElem c b s
  | none => s

end Sys2Proof.Machine
end

