-- ==== Sys2Proof/Machine/Step.lean ====
section
/-! DEFINITION. One step of the machine: what `fetch` finds next, and the meaning of the instruction
it finds. -/

namespace Sys2Proof.Machine

/-- One step (R164, R261, R263): run the next command of the port or the next element of the call in
progress, or make the transition that needs no instruction. -/
def step (s : State) : Host.Outcome State Fault Refusal :=
  match fetch s with
  | .run i t => exec i t
  | .ended o => o

/-- `s` with a word of the opcode table where the next step reads its instruction (assumption
log 12). -/
def State.withFetchWord (s : State) (nbits w : Nat) : State := placeTableWord s nbits w

end Sys2Proof.Machine
end

