-- ==== Sys2Proof/Machine/Assembler.lean ====
section
/-! DEFINITION. The spec's own notation for streams and host programs: the text of an instruction
(R86) and the expansion of the pseudo-instructions (R87). The machine uses neither. -/

namespace Sys2Proof.Machine

/-! ### Pseudo-instructions (R87) -/

/-- The index of the row whose range holds `n`: the last one whose base is at most `n`. -/
def rowFor (bases : List Nat) (n : Nat) : Option Nat :=
  (List.range bases.length).reverse.find? fun i => decide (bases.getD i 0 ≤ n)

/-- `LEN s, length − LEN_BASE(s)` for the symbol whose range holds `length` (R193). Length 258 is
always symbol 285. -/
def lengthInstr (length : Nat) : Option Instr :=
  (rowFor lenBaseTable length).bind fun i => litLenInstr (257 + i) (length - lenBaseTable.getD i 0)

/-- `DIST t, distance − DIST_BASE(t)` for the symbol whose range holds `distance` (R194). -/
def distanceInstr (distance : Nat) : Option Instr :=
  (rowFor distBaseTable distance).bind fun t => distInstr t (distance - distBaseTable.getD t 0)

/-- `MATCH length, distance` (R87). `none`: outside the ranges the notation admits. -/
def expandMatch (length distance : Nat) : Option (List Instr) :=
  if 3 ≤ length ∧ length ≤ 258 ∧ 1 ≤ distance ∧ distance ≤ Config.window then
    match lengthInstr length, distanceInstr distance with
    | some i, some j => some [i, j]
    | _, _ => none
  else none

/-- `STORED final, b0 ... b(n−1)` (R87). `none`: more bytes than LEN can count. -/
def expandStored (final : Bool) (bytes : List Byte) : Option (List Instr) :=
  let len := BitVec.ofNat 16 bytes.length
  if bytes.length < 2 ^ 16 then
    some (.blkStored final :: .slen len (len ^^^ 0xFFFF#16) :: bytes.map .sdata)
  else none

/-- `REPEAT_PREV n` (R87). -/
def expandRepeatPrev (n : Nat) : Option Instr :=
  if 3 ≤ n ∧ n ≤ 6 then clsymInstr 16 (n - 3) else none

/-- `ZEROS n` (R87). -/
def expandZeros (n : Nat) : Option Instr :=
  if 3 ≤ n ∧ n ≤ 10 then clsymInstr 17 (n - 3)
  else if 11 ≤ n ∧ n ≤ 138 then clsymInstr 18 (n - 11)
  else none

/-! ### Text (R86) -/

/-- A bit operand in the text syntax. -/
def bitText (b : Bool) : String := if b then "1" else "0"

/-- The hex digits of a byte string, two for each byte. -/
def hexText (bytes : List Byte) : String := String.join (bytes.map fun b => b.toHex)

/-- Join operands with a comma. -/
def operandsText (xs : List Nat) : String := String.intercalate ", " (xs.map fun x => toString x)

/-- The text of a symbol and its extra value, under the mnemonic of its alphabet. -/
def symbolText (i : Instr) : String :=
  match litLenSym i, distSym i, clsymSym i with
  | some (s, e), _, _ => "LEN " ++ operandsText [s, e]
  | _, some (t, e), _ => "DIST " ++ operandsText [t, e]
  | _, _, some (s, e) => "CLSYM " ++ operandsText (if s < 16 then [s] else [s, e])
  | _, _, _ => ""

/-- One instruction in the text syntax (R86). DHDR is written with the decoded counts. -/
def text (i : Instr) : String :=
  match i with
  | .reset cfg wrap =>
    "RESET " ++ (match cfg with | .fast => "FAST" | .small => "SMALL") ++ ", " ++
      (match wrap with | .raw => "RAW" | .zlib => "ZLIB")
  | .advance inp out off eoi =>
    "ADVANCE in=" ++ hexText inp ++ ", out=" ++ toString out.length ++ ", off=" ++ toString off ++
      ", eoi=" ++ bitText eoi
  | .isDone => "IS_DONE"
  | .ignoreChecksum => "IGNORE_CHECKSUM"
  | .checksum => "CHECKSUM"
  | .zhdr cmf flg => "ZHDR " ++ operandsText [cmf.toNat, flg.toNat]
  | .blkStored f => "BLK " ++ bitText f ++ ", STORED"
  | .blkFixed f => "BLK " ++ bitText f ++ ", FIXED"
  | .blkDynamic f => "BLK " ++ bitText f ++ ", DYNAMIC"
  | .blkReserved f => "BLK " ++ bitText f ++ ", RESERVED"
  | .slen len nlen => "SLEN " ++ operandsText [len.toNat, nlen.toNat]
  | .sdata b => "SDATA " ++ toString b.toNat
  | .dhdr hl hd hc => "DHDR " ++ operandsText [hl.toNat + 257, hd.toNat + 1, hc.toNat + 4]
  | .cll v => "CLL " ++ toString v.toNat
  | .lit b => "LIT " ++ toString b.toNat
  | .eob => "EOB"
  | .trailer b0 b1 b2 b3 => "TRAILER " ++ toString (trailerValue b0 b1 b2 b3).toNat
  | i => symbolText i

end Sys2Proof.Machine
end

