-- ==== Sys2Proof/Safety.lean ====
section
/-! DEFINITION. What a safe state is, in the terms the claims use: the invariant of every state a
run from RESET reaches, the return of a call, and the transitions of the phase register. -/

namespace Sys2Proof.Machine

/-- The bit reader's cursor (R22, R24): at most 55 pending bits, and zeros above them. -/
def BitsOk (s : State) : Prop := s.nb.toNat ≤ 55 ∧ s.acc.toNat < 2 ^ s.nb.toNat

/-- The window (R31, R53, R226): canonical, inside 0..32767, and holding each of the last `hist`
bytes emitted. -/
def WindowOk (s : State) : Prop :=
  Memory.wf s.win = true ∧
  (∀ cell ∈ s.win, cell.1 < Config.window) ∧
  s.hist.toNat ≤ Config.window ∧
  ∀ d, 1 ≤ d → d ≤ s.hist.toNat → (Memory.read s.win (windowSource s.wp d)).isSome = true

/-- The call in progress (R38, R51, R52): the cursors stay inside the buffers, and an element in
progress is a length symbol whose bits are pending. -/
def CallOk (s : State) : Prop :=
  ∀ c, s.call = some c →
    s.phase ≠ .error ∧ c.ip ≤ c.inp.length ∧ c.off + c.prod ≤ c.out.length ∧
    ∀ p, c.pend = some p →
      s.phase = .symbolLoop ∧ 3 ≤ p.length.toNat ∧ p.length.toNat ≤ 258 ∧
      1 ≤ p.used ∧ p.used ≤ 20 ∧ p.used ≤ s.nb.toNat

/-- `err` is non-zero exactly when the phase is ERROR (R34). -/
def ErrOk (s : State) : Prop := s.err ≠ 0 ↔ s.phase = .error

/-- The counts of the dynamic header are legal (R27). -/
def CountsOk (s : State) : Prop :=
  257 ≤ s.hlit.toNat ∧ s.hlit.toNat ≤ 286 ∧ 1 ≤ s.hdist.toNat ∧ s.hdist.toNat ≤ 30

/-- What holds in each phase: the registers its steps read are as the phase needs them. -/
def PhaseOk (s : State) : Prop :=
  match s.phase with
  | .zlibHeader => s.wrap = .zlib
  | .storedLen => s.nb.toNat % 8 = 0 ∧ s.nb.toNat ≤ 24
  | .storedCopy => s.nb = 0
  | .dynClLens =>
    CountsOk s ∧ 4 ≤ s.hclen.toNat ∧ s.hclen.toNat ≤ 19 ∧ s.clIdx.toNat < s.hclen.toNat
  | .dynLens =>
    CountsOk s ∧ s.dynIdx.toNat < s.hlit.toNat + s.hdist.toNat ∧
    clAccepted (lengthsOf s.clLen) = true
  | .symbolLoop => llAccepted (lengthsOf s.codeLL) = true ∧ distAccepted (lengthsOf s.codeD) = true
  | .backReference =>
    llAccepted (lengthsOf s.codeLL) = true ∧ distAccepted (lengthsOf s.codeD) = true ∧
    s.brLen.toNat ≤ 258 ∧ 1 ≤ s.brDist.toNat ∧ s.brDist.toNat ≤ s.hist.toNat
  | .trailer => s.wrap = .zlib ∧ s.nb.toNat % 8 = 0 ∧ s.nb.toNat ≤ 24
  | _ => True

/-- The invariant of the block. -/
structure Inv (s : State) : Prop where
  bits : BitsOk s
  window : WindowOk s
  call : CallOk s
  err : ErrOk s
  phase : PhaseOk s

/-- The length symbol in progress is the one the pending bits decode to (R101, R195). -/
def PendingMatches (p : PendingLength) (s : State) : Prop :=
  ∃ i sym e, decodeElem (.ll (lengthsOf s.codeLL)) s.acc.toNat s.nb.toNat = .got i ∧
    litLenSym i = some (sym, e) ∧ 257 ≤ sym ∧ sym ≤ 285 ∧
    p.used = lengthAt s.codeLL sym + lenExtra sym

/-- No byte is fetched before it is needed (R24, R104): in a phase that reads an element through
`acc`, the pending bits less the last byte are not yet a whole element; after a commit at most 7
bits are left. In ERROR the bits of the failing element may stay (R309). -/
def Lookahead (s : State) : Prop :=
  match s.phase with
  | .error => True
  | .storedCopy | .backReference | .done => s.nb.toNat ≤ 7
  | .symbolLoop =>
    match s.call.bind (fun c => c.pend) with
    | some p => PendingMatches p s ∧ (8 ≤ s.nb.toNat → ∀ j,
        decodeElem (.dist (lengthsOf s.codeD) p.used) s.acc.toNat (s.nb.toNat - 8) ≠ .got j)
    | none => 8 ≤ s.nb.toNat → ∀ i,
        decodeElem (.ll (lengthsOf s.codeLL)) s.acc.toNat (s.nb.toNat - 8) = .got i →
        ∃ sym e, litLenSym i = some (sym, e) ∧ 257 ≤ sym ∧ sym ≤ 285 ∧ ∀ j,
          decodeElem (.dist (lengthsOf s.codeD) (lengthAt s.codeLL sym + lenExtra sym))
            s.acc.toNat (s.nb.toNat - 8) ≠ .got j
  | _ => 8 ≤ s.nb.toNat → ∀ c x i, expected c s = some x →
      decodeElem x s.acc.toNat (s.nb.toNat - 8) ≠ .got i

/-- The call in progress in `s` returns, and `t` is the state at its return (R263). -/
def CallReturns (s t : State) : Prop :=
  ∃ k, Host.Core.run Sys2Proof.core k s = .next t ∧ t.call = none ∧
    ∀ j, j < k → ∀ u, Host.Core.run Sys2Proof.core j s = .next u → u.call ≠ none

/-- An ADVANCE with these operands, run in `s`, returns `(status, consumed, produced)` and hands the
buffer back as `buf`; `t` is the state at its return (R262, R264). Outside DONE and ERROR it is a call
that returns; in DONE and ERROR it returns at once (R265, R266). -/
def AdvanceReturns (inp out : List Byte) (off : Nat) (eoi : Bool) (s t : State)
    (status : BitVec 3) (consumed produced : Nat) (buf : List Byte) : Prop :=
  ∃ u, exec (.advance inp out off eoi) s = .next u ∧ CallReturns u t ∧
    t.resps = .advanced status consumed produced buf :: s.resps

/-- The most steps the call in progress can still take (R271):
`2 × (nb + 8 × len(IN) + len(OUT) − off) + 2`, counted from where the cursors stand. -/
def stepBound (s : State) : Nat :=
  match s.call with
  | none => 0
  | some c => 2 * (s.nb.toNat + 8 * (c.inp.length - c.ip) + (c.out.length - c.off - c.prod)) + 2

/-- A code whose canonical code words exist (R120): no length above 15, and a Kraft sum of at most
`2^15` (R122). -/
def CodeFits (x : Lengths) : Prop := (∀ l ∈ x, l ≤ Config.maxLen) ∧ kraft x ≤ 2 ^ Config.maxLen

/-- The active code of a format, where it has one, fits. -/
def CtxFits : ElemCtx → Prop
  | .cls code _ => CodeFits code
  | .ll code => CodeFits code
  | .dist code _ => CodeFits code
  | _ => True

/-- The instruction is symbol 16 where no length has been read yet: its extra bits are not read
(R158). -/
def firstRepeat : ElemCtx → Instr → Bool
  | .cls _ true, .clsym16 _ => true
  | _, _ => false

/-- A code the block can hold as its active code (R123 to R125, R134, R135): no length above 15,
and complete or one of the two degenerate distance codes. -/
def CodeAccepted (x : Lengths) : Prop := (∀ l ∈ x, l ≤ Config.maxLen) ∧ distAccepted x = true

/-- The run of a code-length symbol (R157 to R160): its count `r`, its value, and the bits `u` the
element uses. The value of symbol 16 is the previous length `lens[j − 1]`. -/
def runOf (s : State) : Instr → Option (Nat × BitVec 4 × Nat)
  | .clsymLen sym => some (1, sym, lengthAt s.clLen sym.toNat)
  | .clsym16 e =>
    some (3 + e.toNat, s.lens.toList.getD (s.dynIdx.toNat - 1) 0, lengthAt s.clLen 16 + 2)
  | .clsym17 e => some (3 + e.toNat, 0, lengthAt s.clLen 17 + 3)
  | .clsym18 e => some (11 + e.toNat, 0, lengthAt s.clLen 18 + 7)
  | _ => none

/-- Where `end_block` goes (R162). -/
def afterBlock (final : Bool) (wrap : Wrap) : Phase :=
  if final then (match wrap with | .zlib => .trailer | .raw => .done) else .blockHeader

/-- The transition relation of R163 for a step of a call: the rows of the table, a stall (which
leaves the phase), and the raise of an error. BACK_REFERENCE and DONE raise nothing. -/
def phaseEdge (final : Bool) (wrap : Wrap) : Phase → Phase → Bool
  | .zlibHeader, q => q = .zlibHeader || q = .blockHeader || q = .error
  | .blockHeader, q =>
    q = .blockHeader || q = .storedLen || q = .symbolLoop || q = .dynHeader || q = .error
  | .storedLen, q => q = .storedLen || q = .storedCopy || q = .error
  | .storedCopy, q => q = .storedCopy || q = afterBlock final wrap || q = .error
  | .dynHeader, q => q = .dynHeader || q = .dynClLens || q = .error
  | .dynClLens, q => q = .dynClLens || q = .dynLens || q = .error
  | .dynLens, q => q = .dynLens || q = .symbolLoop || q = .error
  | .symbolLoop, q =>
    q = .symbolLoop || q = afterBlock final wrap || q = .backReference || q = .error
  | .backReference, q => q = .backReference || q = .symbolLoop
  | .trailer, q => q = .trailer || q = .done || q = .error
  | .done, q => q = .done
  | .error, q => q = .error

end Sys2Proof.Machine
end

