-- ==== Sys2Proof/Certificates/Slice0/Obligations.lean ====
section
/-! DEFINITION. The statements for the provers, in the order of the spec's files. -/

open Sys2Proof Sys2Proof.Machine

/-! ### Bit reader (40_bit_reader.md) -/

/-- R103, R107: FETCH puts the byte above the pending bits, counts 8 more bits and one more byte;
`consume(n)` shifts the n oldest bits out and keeps the rest in place. Both keep zeros above the
pending bits and change nothing else. `n > nb` is a bug of the model. -/
def Obligations.FetchAndConsumeMoveTheCursor : Prop :=
  (∀ (b : Byte) (s : State) (c : Call), s.call = some c → s.nb.toNat ≤ 47 →
    s.acc.toNat < 2 ^ s.nb.toNat →
    (fetchByte b s).acc.toNat = s.acc.toNat + b.toNat * 2 ^ s.nb.toNat ∧
    (fetchByte b s).nb.toNat = s.nb.toNat + 8 ∧
    (fetchByte b s).call = some { c with ip := c.ip + 1 } ∧
    (fetchByte b s).acc.toNat < 2 ^ (fetchByte b s).nb.toNat ∧
    fetchByte b s = { s with
      acc := (fetchByte b s).acc, nb := (fetchByte b s).nb, call := (fetchByte b s).call }) ∧
  (∀ (n : Nat) (s : State), n ≤ s.nb.toNat →
    ∃ t, consume n s = .next t ∧ t.nb.toNat = s.nb.toNat - n ∧
      (∀ i, t.acc.getLsbD i = s.acc.getLsbD (i + n)) ∧
      (s.acc.toNat < 2 ^ s.nb.toNat → t.acc.toNat < 2 ^ t.nb.toNat) ∧
      (n = 0 → t = s) ∧ t = { s with acc := t.acc, nb := t.nb }) ∧
  (∀ (n : Nat) (s : State), s.nb.toNat < n → consume n s = .fault .consumeBeyond)

/-- R104: `need(m)` is n FETCHes of the next bytes of `IN`, for the fewest n that make m known bits,
so nothing at all when m bits are known. Where the bytes left are too few, every one of them is
FETCHed, and then it raises TruncatedInput if `eoi = 1` and stalls otherwise. -/
def Obligations.NeedFetchesTheFewestBytes : Prop :=
  ∀ (m : Nat) (s : State) (c : Call), s.call = some c → m ≤ 48 → s.nb.toNat ≤ 55 →
    c.ip ≤ c.inp.length →
    (m ≤ s.nb.toNat → need m s = .got () s) ∧
    (∀ n, n ≤ c.inp.length - c.ip → m ≤ s.nb.toNat + 8 * n →
      (∀ j, j < n → s.nb.toNat + 8 * j < m) →
      need m s = .got () (fetchBytes ((c.inp.drop c.ip).take n) s) ∧
      (fetchBytes ((c.inp.drop c.ip).take n) s).nb.toNat = s.nb.toNat + 8 * n ∧
      (fetchBytes ((c.inp.drop c.ip).take n) s).call = some { c with ip := c.ip + n }) ∧
    (s.nb.toNat + 8 * (c.inp.length - c.ip) < m →
      need m s = .ended (if c.eoi then raise .truncatedInput (fetchBytes (c.inp.drop c.ip) s)
        else stall (fetchBytes (c.inp.drop c.ip) s)) ∧
      (fetchBytes (c.inp.drop c.ip) s).nb.toNat = s.nb.toNat + 8 * (c.inp.length - c.ip) ∧
      (fetchBytes (c.inp.drop c.ip) s).call = some { c with ip := c.inp.length })

/-! ### Huffman codes (41_huffman_tables.md) -/

/-- R120: the code words of a code that passes the Kraft check fit their lengths, and none of them
begins another. -/
def Obligations.CanonicalCodeWordsArePrefixFree : Prop :=
  ∀ x : Lengths, CodeFits x →
    (∀ w ∈ codeWords x, w.code < 2 ^ w.len) ∧
    ∀ w ∈ codeWords x, ∀ u ∈ codeWords x, w.len ≤ u.len →
      u.code >>> (u.len - w.len) = w.code → u = w

/-- R129, its corner cases: a decode never goes back on a result as more bits arrive; with 15 known
bits it never asks for more; with no known bit it asks for more unless the code is empty; and with a
complete code no window is Invalid. -/
def Obligations.DecodeCornerCases : Prop :=
  (∀ (x : Lengths) (v k s len : Nat), CodeFits x → decodeSym x v k = .sym s len →
    (∀ j, len ≤ j → decodeSym x v j = .sym s len) ∧
    (∀ j, j < len → decodeSym x v j = .needMore)) ∧
  (∀ (x : Lengths) (v k : Nat), CodeFits x → 15 ≤ k → decodeSym x v k ≠ .needMore) ∧
  (∀ (x : Lengths) (v : Nat), CodeFits x →
    decodeSym x v 0 = if x.all (fun l => decide (l = 0)) then .invalid else .needMore) ∧
  (∀ (x : Lengths) (v k : Nat), (∀ l ∈ x, l ≤ Config.maxLen) → complete x = true →
    decodeSym x v k ≠ .invalid)

/-- R124: the distance codes accepted are the complete ones, the empty one, and those whose one
used symbol has length 1. -/
def Obligations.DistanceCodesAccepted : Prop :=
  ∀ x : Lengths, distAccepted x = true ↔
    (kraft x = 2 ^ 15 ∨ (∀ l ∈ x, l = 0) ∨
      ∃ s, s < x.length ∧ x.getD s 0 = 1 ∧ ∀ t, t ≠ s → x.getD t 0 = 0)

/-- R126: which slot of the primary table holds which entry. -/
def Obligations.PrimaryTableSlots : Prop :=
  ∀ (x : Lengths) (p i : Nat), CodeFits x → i < 2 ^ p →
    (∀ s len, primaryEntry x p i = .direct s len ↔
      ∃ w ∈ codeWords x, w.sym = s ∧ w.len = len ∧ len ≤ p ∧ i % 2 ^ len = rev len w.code) ∧
    (primaryEntry x p i = .sub ↔
      ∃ w ∈ codeWords x, p < w.len ∧ i = rev p (w.code >>> (w.len - p)))

/-- R128: the 15-bit form of an entry, TAG in bits 14:13, SYM in 12:4 and LEN in 3:0, and back;
TAG = 11 stands for no entry. R128 treats TAG = 11 as stuck; that its form reads as no entry, and every
other form as one, is this model's choice (assumption log 17). -/
def Obligations.EntryFormatRoundTrip : Prop :=
  (∀ s len : Nat, s ≤ 287 → len ≤ 15 →
    (Entry.direct s len).toBits.toNat = 1 * 2 ^ 13 + s * 2 ^ 4 + len) ∧
  Entry.sub.toBits.toNat = 2 * 2 ^ 13 ∧ Entry.hole.toBits = 0 ∧
  (∀ e : Entry, (∀ s len, e = .direct s len → s ≤ 287 ∧ len ≤ 15) →
    Entry.ofBits e.toBits = some e) ∧
  (∀ b : BitVec 15, b.toNat / 2 ^ 13 = 3 ↔ Entry.ofBits b = none)

/-- R132: the counting fallback of a complete code is the normative decode. -/
def Obligations.FallbackEqualsDecode : Prop :=
  ∀ (x : Lengths) (v k : Nat), (∀ l ∈ x, l ≤ Config.maxLen) → complete x = true →
    fallback x v k = decodeSym x v k

/-- R133 (which the spec marks as derived from R126, R129, R130 and R132): for every accepted code and
every legal prefix width, the table lookup is the normative decode; the widths of both
configurations are legal (R7), so the configuration changes no result of any decode. -/
def Obligations.LookupEqualsDecode : Prop :=
  (∀ (x : Lengths) (p v k : Nat), CodeAccepted x → 1 ≤ p → p ≤ 15 → v < 2 ^ k →
    lookup x p v k = decodeSym x v k) ∧
  (∀ cfg : Cfg, (1 ≤ Config.llPrefix cfg ∧ Config.llPrefix cfg ≤ 15) ∧
    (1 ≤ Config.dPrefix cfg ∧ Config.dPrefix cfg ≤ 15) ∧
    (1 ≤ Config.clPrefix cfg ∧ Config.clPrefix cfg ≤ 7))

/-- R134, R135: the fixed codes: their lengths, their code words, that both are complete, and that
symbols 286 and 287 and distance symbols 30 and 31, which have code words, are invalid. -/
def Obligations.FixedCodes : Prop :=
  (∀ s : Fin 288, (lengthsOf fixedLL).getD s.val 0 =
    if s.val < 144 then 8 else if s.val < 256 then 9 else if s.val < 280 then 7 else 8) ∧
  (∀ s : Fin 288, (codeWords (lengthsOf fixedLL))[s.val]? = some
    (if s.val < 144 then ⟨s.val, 8, 0b00110000 + s.val⟩
     else if s.val < 256 then ⟨s.val, 9, 0b110010000 + (s.val - 144)⟩
     else if s.val < 280 then ⟨s.val, 7, s.val - 256⟩
     else ⟨s.val, 8, 0b11000000 + (s.val - 280)⟩)) ∧
  (∀ d : Fin 32, (codeWords (lengthsOf fixedD))[d.val]? = some ⟨d.val, 5, d.val⟩) ∧
  (∀ d : Fin 32, (lengthsOf fixedD).getD d.val 0 = 5) ∧
  llAccepted (lengthsOf fixedLL) = true ∧ complete (lengthsOf fixedD) = true ∧
  (∀ s : State, exec .llInvalid286 s = raise .invalidSymbol s ∧
    exec .llInvalid287 s = raise .invalidSymbol s ∧
    exec .distInvalid30 s = raise .invalidSymbol s ∧
    exec .distInvalid31 s = raise .invalidSymbol s)

/-! ### Encoding (30_encoding.md) -/

/-- R83: a host command is read back from the transaction that carries it. -/
def Obligations.CommandDecodeInvertsEncode : Prop :=
  ∀ (i : Instr) (t : Transaction), encodeCommand i = some t → decodeCommand t = some i

/-- R72 to R82, R121: every element, with every operand at every value its fields admit, is read
back from its stream bits, whatever bits stand before and after them. Symbol 16 as the first length
is read as soon as its code word is known, whatever follows: its extra bits are not read (R158,
R308); that its instruction then has the operand 0 is this model's choice (assumption log 11). -/
def Obligations.ElementDecodeInvertsEncode : Prop :=
  (∀ (c : ElemCtx) (i : Instr) (b : BitString) (v k : Nat), CtxFits c →
    encodeElem c i = some b → firstRepeat c i = false →
    field v c.offset b.width = b.bits → c.offset + b.width ≤ k →
    decodeElem c v k = .got i) ∧
  (∀ (code : Lengths) (w : CodeWord) (v k : Nat), CodeFits code → w ∈ codeWords code → w.sym = 16 →
    field v 0 w.len = rev w.len w.code → w.len ≤ k →
    decodeElem (.cls code true) v k = .got (.clsym16 0))

/-- R104, R106: a part of an element is a want of more bits, never a value: the block fetches every
byte of an element and none beyond the byte that completes it. The element of symbol 16 as the first
length is its code word alone (R158, R308). -/
def Obligations.PartOfAnElementNeedsMore : Prop :=
  (∀ (c : ElemCtx) (i : Instr) (b : BitString) (v k : Nat), CtxFits c →
    encodeElem c i = some b → firstRepeat c i = false →
    field v c.offset b.width = b.bits → c.offset ≤ k → k < c.offset + b.width →
    decodeElem c v k = .needMore) ∧
  (∀ (code : Lengths) (w : CodeWord) (v k : Nat), CodeFits code → w ∈ codeWords code → w.sym = 16 →
    field v 0 w.len = rev w.len w.code → k < w.len →
    decodeElem (.cls code true) v k = .needMore)

/-- R87: the notation `MATCH length, distance` stands for a length symbol and a distance symbol whose
ranges hold the two values, for every length 3..258 and distance 1..32768; length 258 is always
symbol 285, and symbol 284 never takes the refused extra value 31. -/
def Obligations.MatchNotationCoversEveryPair : Prop :=
  ∀ length distance : Nat, 3 ≤ length → length ≤ 258 → 1 ≤ distance → distance ≤ 32768 →
    ∃ i j sym e t e2, expandMatch length distance = some [i, j] ∧
      litLenSym i = some (sym, e) ∧ 257 ≤ sym ∧ sym ≤ 285 ∧ ¬(sym = 284 ∧ e = 31) ∧
      lenBaseTable.getD (sym - 257) 0 + e = length ∧ (length = 258 → sym = 285) ∧
      distSym j = some (t, e2) ∧ t ≤ 29 ∧ distBaseTable.getD t 0 + e2 = distance

/-- Words written out from the spec's encodings and examples decode to the instructions they stand
for: R75 (`01`, `07`), R76 (S1), R77 (P3), R73 (`78 9C`), R106 and R129 (the letter `a`), R193
(symbol 284 with extra value 31, V-SYM-8), R194 (distance symbol 29, all ones), R245 (S1 in zlib
form). -/
def Obligations.WordsOfTheSpecDecode : Prop :=
  decodeElem .bh 0x01 8 = .got (.blkStored true) ∧
  decodeElem .bh 0x07 3 = .got (.blkReserved true) ∧
  decodeElem .sl 0xFFFD0002 32 = .got (.slen 2 0xFFFD) ∧
  decodeElem .dh (2 + 14 * 1024) 14 = .got (.dhdr 2 0 14) ∧
  decodeElem .zh 0x9C78 16 = .got (.zhdr 0x78 0x9C) ∧
  decodeElem (.ll (lengthsOf fixedLL)) 0x89 8 = .got (.lit 97) ∧
  decodeElem (.ll (lengthsOf fixedLL)) (0b00100011 + 31 * 2 ^ 8) 13 = .got (.len284 31) ∧
  decodeElem (.dist (lengthsOf fixedD) 7) ((0b10111 + 0x1FFF * 2 ^ 5) * 2 ^ 7) 25 =
    .got (.dist29 0x1FFF) ∧
  decodeElem .tr 0xD2003B01 32 = .got (.trailer 0x01 0x3B 0x00 0xD2)

/-- R261, R83, R84: the command port. Which command words it refuses, and that a refused word
changes no state of the block; every other word is a command; and no command overlaps another: a
step inside a call takes none from the host. That a refused word leaves the port is this model's
reading (assumption log 10). -/
def Obligations.PortTakesOneCommandAtATime : Prop :=
  (∀ t : Transaction,
    (5 ≤ t.word.toNat % 16 ∨ t.word.getLsbD 7 = true ∨
      (t.word.toNat % 16 ≠ 0 ∧ (t.word.getLsbD 4 = true ∨ t.word.getLsbD 5 = true)) ∨
      (t.word.toNat % 16 ≠ 1 ∧ t.word.getLsbD 6 = true)) ↔ decodeCommand t = none) ∧
  (∀ (s : State) (t : Transaction) (rest : List Transaction), s.call = none →
    s.cmds = t :: rest → decodeCommand t = none →
    step s = .next { s with cmds := rest, resps := .refused :: s.resps }) ∧
  (∀ (s t : State) (c : Call), s.call = some c → step s = .next t → t.cmds = s.cmds)

/-! ### A step runs the decoded instruction -/

/-- R261, R61, R314: with no call in progress, a step runs the command the next transaction decodes
to; with no command presented the block is idle and keeps its state. -/
def Obligations.StepRunsTheNextCommand : Prop :=
  (∀ (s : State) (t : Transaction) (rest : List Transaction) (i : Instr), s.call = none →
    s.cmds = t :: rest → decodeCommand t = some i → step s = exec i { s with cmds := rest }) ∧
  (∀ s : State, s.call = none → s.cmds = [] → step s = .next s)

/-- R164, R263: inside a call, when the pending bits decode to an element of the format the phase
expects, a step is the meaning of that element. -/
def Obligations.StepRunsTheDecodedElement : Prop :=
  ∀ (s : State) (c : Call) (x : ElemCtx) (i : Instr), s.call = some c → expected c s = some x →
    decodeElem x s.acc.toNat s.nb.toNat = .got i → step s = exec i s

/-- R104, R106, R111: when the pending bits are a part of an element, a step fetches the next byte
of `IN` and goes on from there; with `IN` exhausted it raises TruncatedInput if `eoi = 1` and stalls
otherwise; bits that begin no element raise the error they show. -/
def Obligations.StepFetchesOnDemand : Prop :=
  ∀ (s : State) (c : Call) (x : ElemCtx), s.call = some c → expected c s = some x →
    c.ip ≤ c.inp.length →
    (decodeElem x s.acc.toNat s.nb.toNat = .needMore →
      (∀ b, c.inp[c.ip]? = some b → step s = step (fetchByte b s)) ∧
      (c.ip = c.inp.length → step s = if c.eoi then raise .truncatedInput s else stall s)) ∧
    (∀ e, decodeElem x s.acc.toNat s.nb.toNat = .bad e → step s = raise e s)

/-- R153: in STORED_COPY a step runs SDATA on the byte at `IN[ip]`, or ends the block when no byte
is left, or finds `IN` exhausted. -/
def Obligations.StepRunsTheStoredByte : Prop :=
  ∀ (s : State) (c : Call), s.call = some c → s.phase = .storedCopy →
    (s.stRem = 0 → step s = .next (endBlock s)) ∧
    (s.stRem ≠ 0 →
      (∀ b, c.inp[c.ip]? = some b → step s = exec (.sdata b) s) ∧
      (c.inp[c.ip]? = none →
        step s = if c.eoi then raise .truncatedInput s else stall s))

/-! ### The end of a call (46_host_interface.md, 60_exceptions.md) -/

/-- R309, R300, R263, R108: the ends of a call. Error entry: the phase becomes ERROR, `err` the code of
the error, the call returns that code with its counts, and every other register and all of the
window stay. A stall and the end of the loop in DONE return `(0, ip, prod)` and change no register. -/
def Obligations.RaiseStallAndDoneEndTheCall : Prop :=
  ∀ (s : State) (c : Call), s.call = some c →
    (∀ e, raise e s = .next { s with
      phase := .error
      err := e.code
      call := none
      resps := .advanced e.code c.ip c.prod c.out :: s.resps }) ∧
    (Err.code .malformedHeader = 1 ∧ Err.code .malformedHuffmanTable = 2 ∧
      Err.code .malformedStoredLength = 3 ∧ Err.code .invalidSymbol = 4 ∧
      Err.code .invalidDistance = 5 ∧ Err.code .truncatedInput = 6 ∧
      Err.code .checksumMismatch = 7) ∧
    stall s = .next { s with call := none, resps := .advanced 0 c.ip c.prod c.out :: s.resps } ∧
    (s.phase = .done → step s =
      .next { s with call := none, resps := .advanced 0 c.ip c.prod c.out :: s.resps })

/-! ### Host commands (46_host_interface.md) -/

/-- R260, R37: RESET, in every phase, gives every register R37 names a value for that value. That the
commands still to come stay and that a completion joins the results is this model's choice
(assumption log 7). -/
def Obligations.ResetSetsTheRegisters : Prop :=
  ∀ (cfg : Cfg) (wrap : Wrap) (s : State), ∃ t, exec (.reset cfg wrap) s = .next t ∧
    t.phase = (match wrap with | .raw => .blockHeader | .zlib => .zlibHeader) ∧
    t.final = false ∧ t.acc = 0 ∧ t.nb = 0 ∧ t.stRem = 0 ∧ t.hlit = 0 ∧ t.hdist = 0 ∧ t.hclen = 0 ∧
    t.clIdx = 0 ∧ t.dynIdx = 0 ∧ t.brLen = 0 ∧ t.wp = 0 ∧ t.hist = 0 ∧
    t.ck = (match wrap with | .raw => Config.ckInitRaw | .zlib => 1) ∧
    t.ignoreCk = false ∧ t.err = 0 ∧ t.cfg = cfg ∧ t.wrap = wrap ∧
    t.call = none ∧ t.cmds = s.cmds ∧ t.resps = .completed :: s.resps

/-- R262, R265, R266, R267: ADVANCE sets up the per-call state and changes no register; in ERROR it
returns `(err, 0, 0)`, in DONE `(0, 0, 0)`, whatever its operands are; elsewhere an `off` beyond the
buffer is REFUSED. None of these changes a register. That the setting up is a step of its own, with
the loop of R263 in the steps after it, is this model's choice (assumption log 9). -/
def Obligations.AdvanceSetsUpTheCall : Prop :=
  ∀ (inp out : List Byte) (off : Nat) (eoi : Bool) (s : State),
    (s.phase ≠ .error → s.phase ≠ .done → off ≤ out.length →
      exec (.advance inp out off eoi) s = .next { s with
        call := some
          { inp := inp, out := out, off := off, eoi := eoi, ip := 0, prod := 0, pend := none } }) ∧
    (s.phase = .error → exec (.advance inp out off eoi) s =
      .next { s with resps := .advanced s.err 0 0 out :: s.resps }) ∧
    (s.phase = .done → exec (.advance inp out off eoi) s =
      .next { s with resps := .advanced 0 0 0 out :: s.resps }) ∧
    (s.phase ≠ .error → s.phase ≠ .done → out.length < off →
      exec (.advance inp out off eoi) s = .next { s with resps := .refused :: s.resps })

/-- R268, R269, R270: IS_DONE reads the phase, IGNORE_CHECKSUM sets `ignore_ck`, CHECKSUM reads
`ck`, each in every phase; nothing else changes. -/
def Obligations.QueryAndControlCommands : Prop :=
  ∀ s : State,
    (s.phase = .done → exec .isDone s = .next { s with resps := .isDone true :: s.resps }) ∧
    (s.phase ≠ .done → exec .isDone s = .next { s with resps := .isDone false :: s.resps }) ∧
    exec .ignoreChecksum s = .next { s with ignoreCk := true, resps := .completed :: s.resps } ∧
    exec .checksum s = .next { s with resps := .checksum s.ck :: s.resps }

/-! ### Wrapper and checksum (45_wrapper_checksum.md) -/

/-- R240: Adler-32 for `WRAP = ZLIB`: the initial value, and the fold as the rule writes it; both
halves stay below 65521. For `WRAP = RAW` both are the OPEN parameters. -/
def Obligations.AdlerFoldStaysReduced : Prop :=
  ckInit .zlib = 1 ∧ ckInit .raw = Config.ckInitRaw ∧
  (∀ (ck : Word32) (b : Byte), ckFold .raw ck b = Config.ckFoldRaw ck b) ∧
  ∀ (ck : Word32) (b : Byte),
    let s1 := (ck.toNat % 65536 + b.toNat) % 65521
    let s2 := (ck.toNat / 65536 + s1) % 65521
    ckFold .zlib ck b = BitVec.ofNat 32 (s2 * 65536 + s1) ∧
    (ckFold .zlib ck b).toNat % 65536 = s1 ∧ (ckFold .zlib ck b).toNat / 65536 = s2 ∧
    s1 < 65521 ∧ s2 < 65521

/-- R243, R244: the zlib header commits 16 bits and leads to the first block header, or raises
MalformedHeader. -/
def Obligations.ZlibHeader : Prop :=
  ∀ (cmf flg : Byte) (s : State),
    ((cmf.toNat * 256 + flg.toNat) % 31 = 0 ∧ cmf.toNat % 16 = 8 ∧ cmf.toNat / 16 ≤ 7 ∧
        flg.getLsbD 5 = false → 16 ≤ s.nb.toNat →
      exec (.zhdr cmf flg) s = .next { s with
        acc := s.acc >>> 16, nb := s.nb - 16, phase := .blockHeader }) ∧
    ((cmf.toNat * 256 + flg.toNat) % 31 ≠ 0 ∨ cmf.toNat % 16 ≠ 8 ∨ cmf.toNat / 16 > 7 ∨
        flg.getLsbD 5 = true →
      exec (.zhdr cmf flg) s = raise .malformedHeader s)

/-- R245: the trailer, most significant byte first, must equal `ck` unless `ignore_ck = 1`; then it
commits 32 bits and the stream is DONE. -/
def Obligations.ZlibTrailer : Prop :=
  ∀ (b0 b1 b2 b3 : Byte) (s : State),
    let t := b0.toNat * 2 ^ 24 + b1.toNat * 2 ^ 16 + b2.toNat * 2 ^ 8 + b3.toNat
    ((s.ignoreCk = true ∨ t = s.ck.toNat) → 32 ≤ s.nb.toNat →
      exec (.trailer b0 b1 b2 b3) s = .next { s with
        acc := s.acc >>> 32, nb := s.nb - 32, phase := .done }) ∧
    (s.ignoreCk = false → t ≠ s.ck.toNat →
      exec (.trailer b0 b1 b2 b3) s = raise .checksumMismatch s)

/-! ### Block headers and stored blocks (42_decode_fsm.md) -/

/-- R150, R151: the block header: `final`, the 3 bits committed, and what each block type leads to.
The reserved type raises MalformedHeader, whatever BFINAL is, and commits nothing. -/
def Obligations.BlockHeaders : Prop :=
  ∀ (f : Bool) (s : State), 3 ≤ s.nb.toNat →
    exec (.blkStored f) s = .next { s with final := f, acc := 0, nb := 0, phase := .storedLen } ∧
    exec (.blkFixed f) s = .next { s with
      final := f, acc := s.acc >>> 3, nb := s.nb - 3
      codeLL := fixedLL, codeD := fixedD, phase := .symbolLoop } ∧
    exec (.blkDynamic f) s = .next { s with
      final := f, acc := s.acc >>> 3, nb := s.nb - 3, phase := .dynHeader } ∧
    (∀ c, s.call = some c → exec (.blkReserved f) s = .next { s with
      phase := .error, err := 1, call := none
      resps := .advanced 1 c.ip c.prod c.out :: s.resps })

/-- R152: LEN and its complement; 32 bits committed; `st_rem` is LEN. -/
def Obligations.StoredLength : Prop :=
  ∀ (len nlen : BitVec 16) (s : State),
    (nlen = len ^^^ 0xFFFF#16 → 32 ≤ s.nb.toNat →
      exec (.slen len nlen) s = .next { s with
        acc := s.acc >>> 32, nb := s.nb - 32, stRem := len, phase := .storedCopy }) ∧
    (nlen ≠ len ^^^ 0xFFFF#16 → exec (.slen len nlen) s = raise .malformedStoredLength s)

/-- R153: with no byte left the block ends; otherwise a stored byte is consumed, written to
`OUT[off + prod]` and to `W[wp]`, and counted, and `st_rem` goes down by one; missing input comes
before missing room; with no room nothing is consumed. -/
def Obligations.StoredByte : Prop :=
  ∀ (b : Byte) (s : State) (c : Call), s.call = some c →
    (s.stRem = 0 → exec (.sdata b) s = .next (endBlock s)) ∧
    (s.stRem ≠ 0 → c.ip < c.inp.length → c.off + c.prod < c.out.length →
      exec (.sdata b) s = .next { s with
        call := some { c with
          ip := c.ip + 1, out := c.out.set (c.off + c.prod) b, prod := c.prod + 1 }
        win := Memory.write s.win s.wp.toNat b
        wp := s.wp + 1
        hist := BitVec.ofNat 17 (min (s.hist.toNat + 1) 32768)
        ck := if s.ignoreCk then s.ck else ckFold s.wrap s.ck b
        stRem := s.stRem - 1 }) ∧
    (s.stRem ≠ 0 → c.ip < c.inp.length → c.out.length ≤ c.off + c.prod →
      exec (.sdata b) s = stall s) ∧
    (s.stRem ≠ 0 → c.inp.length ≤ c.ip →
      exec (.sdata b) s = if c.eoi then raise .truncatedInput s else stall s)

/-! ### Dynamic header (42_decode_fsm.md) -/

/-- R154: the counts, their limits, and the cleared code-length-code lengths. -/
def Obligations.DynamicHeader : Prop :=
  ∀ (hl hd : BitVec 5) (hc : BitVec 4) (s : State),
    (hl.toNat + 257 ≤ 286 → hd.toNat + 1 ≤ 30 → 14 ≤ s.nb.toNat →
      exec (.dhdr hl hd hc) s = .next { s with
        acc := s.acc >>> 14, nb := s.nb - 14
        hlit := BitVec.ofNat 9 (hl.toNat + 257)
        hdist := BitVec.ofNat 5 (hd.toNat + 1)
        hclen := BitVec.ofNat 5 (hc.toNat + 4)
        clLen := Vector.replicate 19 0, clIdx := 0, phase := .dynClLens }) ∧
    (286 < hl.toNat + 257 ∨ 30 < hd.toNat + 1 →
      exec (.dhdr hl hd hc) s = raise .malformedHuffmanTable s)

/-- R155, R78: a code-length-code length goes to the symbol `CL_ORDER[cl_idx]`; the last one leads
to the code lengths when the code is complete, and raises MalformedHuffmanTable when it is not. -/
def Obligations.CodeLengthCodeLength : Prop :=
  ∀ (v : BitVec 3) (s : State), s.clIdx.toNat < 19 →
    let x := s.clLen.setIfInBounds (clOrder.getD s.clIdx.toNat 0) v
    (s.clIdx.toNat + 1 ≠ s.hclen.toNat → 3 ≤ s.nb.toNat →
      exec (.cll v) s = .next { s with
        acc := s.acc >>> 3, nb := s.nb - 3, clLen := x, clIdx := s.clIdx + 1 }) ∧
    (s.clIdx.toNat + 1 = s.hclen.toNat → kraft (lengthsOf x) = 2 ^ 15 → 3 ≤ s.nb.toNat →
      exec (.cll v) s = .next { s with
        acc := s.acc >>> 3, nb := s.nb - 3, clLen := x, clIdx := s.clIdx + 1
        dynIdx := 0, phase := .dynLens }) ∧
    (s.clIdx.toNat + 1 = s.hclen.toNat → kraft (lengthsOf x) ≠ 2 ^ 15 →
      exec (.cll v) s = raise .malformedHuffmanTable s)

/-- R156 to R160: a run that ends before `tot` writes `lens[j .. j+r−1]`, advances `dyn_idx`, and
commits the element; every other length and register stays. -/
def Obligations.RunOfLengthsInside : Prop :=
  ∀ (i : Instr) (r : Nat) (val : BitVec 4) (u : Nat) (s : State), runOf s i = some (r, val, u) →
    (s.dynIdx = 0 → ∀ e, i ≠ .clsym16 e) →
    s.dynIdx.toNat + r < s.hlit.toNat + s.hdist.toNat → s.hlit.toNat + s.hdist.toNat ≤ 316 →
    u ≤ s.nb.toNat →
    ∃ lens : Vector (BitVec 4) 316,
      exec i s = .next { s with
        acc := s.acc >>> u, nb := s.nb - BitVec.ofNat 6 u
        lens := lens, dynIdx := BitVec.ofNat 9 (s.dynIdx.toNat + r) } ∧
      ∀ n : Fin 316, lens[n] =
        if s.dynIdx.toNat ≤ n.val ∧ n.val < s.dynIdx.toNat + r then val else s.lens[n]

/-- R156, R161: a run that reaches `tot` installs the literal/length code and the distance code the
lengths give, when both are accepted, and raises MalformedHuffmanTable when one is not. -/
def Obligations.RunOfLengthsAtTheEnd : Prop :=
  ∀ (i : Instr) (r : Nat) (val : BitVec 4) (u : Nat) (s : State), runOf s i = some (r, val, u) →
    (s.dynIdx = 0 → ∀ e, i ≠ .clsym16 e) →
    s.dynIdx.toNat + r = s.hlit.toNat + s.hdist.toNat → s.hlit.toNat ≤ 286 → s.hdist.toNat ≤ 30 →
    u ≤ s.nb.toNat →
    ∃ (lens : Vector (BitVec 4) 316) (ll : Vector (BitVec 4) 288) (d : Vector (BitVec 4) 32),
      (∀ n : Fin 316, lens[n] =
        if s.dynIdx.toNat ≤ n.val ∧ n.val < s.dynIdx.toNat + r then val else s.lens[n]) ∧
      (∀ n : Fin 288, ll[n] = if n.val < s.hlit.toNat then lens[n.val] else 0) ∧
      (∀ n : Fin 32, d[n] =
        if n.val < s.hdist.toNat then lens.toList.getD (s.hlit.toNat + n.val) 0 else 0) ∧
      (llAccepted (lengthsOf ll) = true → distAccepted (lengthsOf d) = true →
        exec i s = .next { s with
          acc := s.acc >>> u, nb := s.nb - BitVec.ofNat 6 u
          lens := lens, dynIdx := BitVec.ofNat 9 (s.dynIdx.toNat + r)
          codeLL := ll, codeD := d, phase := .symbolLoop }) ∧
      (llAccepted (lengthsOf ll) = false ∨ distAccepted (lengthsOf d) = false →
        exec i s = raise .malformedHuffmanTable s)

/-- R158 to R160: symbol 16 with no previous length, and a repeat that runs past `tot`, raise
MalformedHuffmanTable. -/
def Obligations.BadRepeatsRaise : Prop :=
  ∀ s : State,
    (∀ e : BitVec 2, s.dynIdx = 0 → exec (.clsym16 e) s = raise .malformedHuffmanTable s) ∧
    (∀ e : BitVec 2, s.hlit.toNat + s.hdist.toNat < s.dynIdx.toNat + (3 + e.toNat) →
      exec (.clsym16 e) s = raise .malformedHuffmanTable s) ∧
    (∀ e : BitVec 3, s.hlit.toNat + s.hdist.toNat < s.dynIdx.toNat + (3 + e.toNat) →
      exec (.clsym17 e) s = raise .malformedHuffmanTable s) ∧
    (∀ e : BitVec 7, s.hlit.toNat + s.hdist.toNat < s.dynIdx.toNat + (11 + e.toNat) →
      exec (.clsym18 e) s = raise .malformedHuffmanTable s)

/-! ### Symbols (43_symbol_decoder.md) -/

/-- R191, R221: a literal commits its code word and emits its byte: `OUT[off + prod]`, `W[wp]`,
`prod`, `wp`, `hist` and `ck`. With no room it stalls, nothing committed. -/
def Obligations.Literal : Prop :=
  ∀ (b : Byte) (s : State) (c : Call), s.call = some c →
    (c.off + c.prod < c.out.length → lengthAt s.codeLL b.toNat ≤ s.nb.toNat →
      exec (.lit b) s = .next { s with
        acc := s.acc >>> lengthAt s.codeLL b.toNat
        nb := s.nb - BitVec.ofNat 6 (lengthAt s.codeLL b.toNat)
        call := some { c with out := c.out.set (c.off + c.prod) b, prod := c.prod + 1 }
        win := Memory.write s.win s.wp.toNat b
        wp := s.wp + 1
        hist := BitVec.ofNat 17 (min (s.hist.toNat + 1) 32768)
        ck := if s.ignoreCk then s.ck else ckFold s.wrap s.ck b }) ∧
    (c.out.length ≤ c.off + c.prod → exec (.lit b) s = stall s)

/-- R192, R162: `end_block` leads to the next block header, to DONE, or, aligned, to the trailer, and
changes nothing else; EOB commits its code word and then ends the block, with no room needed. -/
def Obligations.EndOfBlock : Prop :=
  ∀ s : State,
    (s.final = false → endBlock s = { s with phase := .blockHeader }) ∧
    (s.final = true → s.wrap = .raw → endBlock s = { s with phase := .done }) ∧
    (s.final = true → s.wrap = .zlib → endBlock s = { s with acc := 0, nb := 0, phase := .trailer }) ∧
    (lengthAt s.codeLL 256 ≤ s.nb.toNat → exec .eob s = .next (endBlock { s with
      acc := s.acc >>> lengthAt s.codeLL 256
      nb := s.nb - BitVec.ofNat 6 (lengthAt s.codeLL 256) }))

/-- R193, R195: every length symbol 257..285 puts its match length, base plus extra value, and the
bits of its code word and extra field in progress, and commits nothing. That the distance symbol is
an instruction of its own is this model's choice (assumption log 6). -/
def Obligations.LengthSymbols : Prop :=
  ∀ (i : Instr) (sym e : Nat) (s : State) (c : Call), litLenSym i = some (sym, e) →
    257 ≤ sym → sym ≤ 285 → ¬(sym = 284 ∧ e = 31) → s.call = some c →
    exec i s = .next { s with
      call := some { c with
        pend := some ⟨BitVec.ofNat 9 (lenBaseTable.getD (sym - 257) 0 + e),
          lengthAt s.codeLL sym + lenExtraTable.getD (sym - 257) 0⟩ } }

/-- R194, R195, R226, R305: every distance symbol 0..29 completes the length symbol in progress: with the
distance, base plus extra value, inside the history, it commits the whole element and starts the
back-reference; with a distance greater than `hist` it raises InvalidDistance, before any byte is
copied and with nothing committed. (That it is an instruction of its own: assumption log 6.) -/
def Obligations.DistanceSymbols : Prop :=
  ∀ (i : Instr) (sym e : Nat) (s : State) (c : Call) (p : PendingLength),
    distSym i = some (sym, e) → sym ≤ 29 → s.call = some c → c.pend = some p →
    (distBaseTable.getD sym 0 + e ≤ s.hist.toNat →
      p.used + lengthAt s.codeD sym + distExtraTable.getD sym 0 ≤ s.nb.toNat →
      exec i s = .next { s with
        acc := s.acc >>> (p.used + lengthAt s.codeD sym + distExtraTable.getD sym 0)
        nb := s.nb - BitVec.ofNat 6 (p.used + lengthAt s.codeD sym + distExtraTable.getD sym 0)
        call := some { c with pend := none }
        brLen := p.length
        brDist := BitVec.ofNat 16 (distBaseTable.getD sym 0 + e)
        phase := .backReference }) ∧
    (s.hist.toNat < distBaseTable.getD sym 0 + e →
      exec i s = .next { s with
        phase := .error, err := 5, call := none
        resps := .advanced 5 c.ip c.prod c.out :: s.resps })

/-- R193, R194, R195: a length symbol and the distance symbol after it, run one after the other,
start the back-reference of the pair: `br_len`, `br_dist`, the phase, and all bits of the element
committed at once. -/
def Obligations.MatchStartsTheBackReference : Prop :=
  ∀ (i j : Instr) (sym e t e2 : Nat) (s : State) (c : Call),
    litLenSym i = some (sym, e) → 257 ≤ sym → sym ≤ 285 → ¬(sym = 284 ∧ e = 31) →
    distSym j = some (t, e2) → t ≤ 29 → s.call = some c → c.pend = none →
    let u := lengthAt s.codeLL sym + lenExtraTable.getD (sym - 257) 0 +
      lengthAt s.codeD t + distExtraTable.getD t 0
    u ≤ s.nb.toNat → distBaseTable.getD t 0 + e2 ≤ s.hist.toNat →
    andThen (exec i s) (exec j) = .next { s with
      acc := s.acc >>> u
      nb := s.nb - BitVec.ofNat 6 u
      brLen := BitVec.ofNat 9 (lenBaseTable.getD (sym - 257) 0 + e)
      brDist := BitVec.ofNat 16 (distBaseTable.getD t 0 + e2)
      phase := .backReference }

/-- R196, R197, R198: symbols 286 and 287, distance symbols 30 and 31, and symbol 284 with extra
value 31 raise InvalidSymbol, which enters ERROR with code 4 and commits nothing. -/
def Obligations.InvalidSymbolsRaise : Prop :=
  ∀ (i : Instr) (s : State) (c : Call),
    i = .llInvalid286 ∨ i = .llInvalid287 ∨ i = .distInvalid30 ∨ i = .distInvalid31 ∨
      i = .len284 31 →
    s.call = some c →
    exec i s = .next { s with
      phase := .error, err := 4, call := none
      resps := .advanced 4 c.ip c.prod c.out :: s.resps }

/-- R197: with an empty distance code any distance is Invalid, whatever its bits are and however few
are known; with a one-symbol code of length 1 it is Invalid when its bit is not that word. -/
def Obligations.UnusedDistanceCodeWords : Prop :=
  (∀ (x : Lengths) (u v k : Nat), (∀ l ∈ x, l = 0) →
    decodeElem (.dist x u) v k = .bad .invalidSymbol) ∧
  (∀ (x : Lengths) (u v k : Nat), x.filter (fun l => decide (l ≠ 0)) = [1] → u < k →
    v.testBit u = true → decodeElem (.dist x u) v k = .bad .invalidSymbol)

/-! ### Window and back-reference (20_memory.md, 44_lz77_copy.md) -/

/-- R14: a byte written to the window reads back, and every other byte reads as before. -/
def Obligations.WindowMemory : Prop :=
  ∀ (m : Memory) (a : Nat) (b : Byte),
    Memory.read (Memory.write m a b) a = some b ∧
    ∀ a', a' ≠ a → Memory.read (Memory.write m a b) a' = Memory.read m a'

/-- R53, R221, R222: after `emit(b)` the byte at distance 1 is `b`, and the byte at distance d + 1
is the one that stood at distance d, for every d below 32768. -/
def Obligations.WindowHoldsTheLastBytes : Prop :=
  ∀ (b : Byte) (s t : State), emit b s = .next t →
    Memory.read t.win (windowSource t.wp 1) = some b ∧
    ∀ d, 1 ≤ d → d < 32768 →
      Memory.read t.win (windowSource t.wp (d + 1)) = Memory.read s.win (windowSource s.wp d)

/-- R222, R224, R225: a BACK_REFERENCE step copies the byte at distance `br_dist` and counts it;
with none left it goes back to the symbols, no room needed; with no room it stalls. -/
def Obligations.BackReferenceStep : Prop :=
  ∀ (s : State) (c : Call), s.call = some c → s.phase = .backReference →
    (s.brLen = 0 → step s = .next { s with phase := .symbolLoop }) ∧
    (s.brLen ≠ 0 → c.out.length ≤ c.off + c.prod → step s = stall s) ∧
    (∀ b, s.brLen ≠ 0 → c.off + c.prod < c.out.length →
      Memory.read s.win ((s.wp.toNat + 32768 - s.brDist.toNat) % 32768) = some b →
      step s = .next { s with
        call := some { c with out := c.out.set (c.off + c.prod) b, prod := c.prod + 1 }
        win := Memory.write s.win s.wp.toNat b
        wp := s.wp + 1
        hist := BitVec.ofNat 17 (min (s.hist.toNat + 1) 32768)
        ck := if s.ignoreCk then s.ck else ckFold s.wrap s.ck b
        brLen := s.brLen - 1 })

/-- R223: a back-reference with room for all its bytes copies them one by one, so byte k of the copy
is the byte `br_dist` before it, which may be a byte of the same copy. -/
def Obligations.OverlappingCopyRepeats : Prop :=
  ∀ (s : State) (c : Call), Inv s → s.call = some c → s.phase = .backReference →
    s.brLen.toNat ≤ c.out.length - c.off - c.prod →
    ∃ (t : State) (d : Call), Host.Core.run Sys2Proof.core s.brLen.toNat s = .next t ∧
      t.call = some d ∧ t.phase = .backReference ∧ t.brLen = 0 ∧
      d.prod = c.prod + s.brLen.toNat ∧ d.ip = c.ip ∧ d.out.length = c.out.length ∧
      (∀ n, n < c.off + c.prod → d.out[n]? = c.out[n]?) ∧
      (∀ n, c.off + c.prod + s.brLen.toNat ≤ n → d.out[n]? = c.out[n]?) ∧
      ∀ k, k < s.brLen.toNat →
        d.out[c.off + c.prod + k]? =
          if k < s.brDist.toNat then
            Memory.read s.win ((s.wp.toNat + 32768 - (s.brDist.toNat - k)) % 32768)
          else d.out[c.off + c.prod + k - s.brDist.toNat]?

/-! ### The whole machine -/

/-- R37, R22, R34: every state a RESET gives, whatever the host has queued, meets the invariant. -/
def Obligations.ResetMeetsTheInvariant : Prop :=
  ∀ (cfg : Cfg) (wrap : Wrap) (cmds : List Transaction) (resps : List Response),
    Inv { State.resetTo cfg wrap with cmds := cmds, resps := resps }

/-- R22, R24, R31, R34, R226: every step from a state that meets the invariant gives a state that
meets it. -/
def Obligations.StepKeepsTheInvariant : Prop :=
  ∀ s t : State, Inv s → step s = .next t → Inv t

/-- R15, R107, R226: from a state that meets the invariant no step faults or is refused: no access
outside `IN`, `OUT` or `W`, no read of an unwritten byte, no bit consumed that is not there. -/
def Obligations.NoStepGoesOutOfBounds : Prop :=
  ∀ s : State, Inv s → ∃ t, step s = .next t

/-- R163: inside a call every step follows the transition table: no other change of phase exists. -/
def Obligations.PhasesFollowTheTransitionTable : Prop :=
  ∀ (s t : State) (c : Call), s.call = some c → step s = .next t →
    phaseEdge s.final s.wrap s.phase t.phase = true

/-- R33, R35, R260, R265, R266, R310: `CFG` and `WRAP` change, and `ignore_ck` goes back to 0, only in a
step that runs RESET. With no call in progress every other command leaves the phase and `err` as
they are, and in DONE and ERROR starts no call: only RESET leaves DONE and ERROR. -/
def Obligations.OnlyResetLeavesDoneAndError : Prop :=
  ∀ s t : State, step s = .next t →
    (s.call = none → ∀ x rest cfg wrap, s.cmds = x :: rest →
      decodeCommand x ≠ some (.reset cfg wrap)) →
    t.cfg = s.cfg ∧ t.wrap = s.wrap ∧ (s.ignoreCk = true → t.ignoreCk = true) ∧
    (s.call = none → t.phase = s.phase ∧ t.err = s.err ∧
      (s.phase = .done ∨ s.phase = .error → t.call = none)) ∧
    (s.phase = .done ∨ s.phase = .error → t.phase = s.phase)

/-- R38, R51, R52, R23: a step that stays in its call leaves the input slice, `off` and `eoi` alone,
moves the cursors only forward and inside the buffers, and writes at most the one byte
`OUT[off + prod]`, when it counts it. The stream position `8 × ip − nb` never moves backwards. -/
def Obligations.BuffersAreReadAndWrittenInOrder : Prop :=
  ∀ (s t : State) (c d : Call), Inv s → s.call = some c → step s = .next t → t.call = some d →
    d.inp = c.inp ∧ d.off = c.off ∧ d.eoi = c.eoi ∧ c.ip ≤ d.ip ∧ d.ip ≤ c.inp.length ∧
    d.out.length = c.out.length ∧ d.off + d.prod ≤ d.out.length ∧
    (d.prod = c.prod ∨ d.prod = c.prod + 1) ∧
    8 * c.ip + t.nb.toNat ≤ 8 * d.ip + s.nb.toNat ∧
    (∀ n, n < c.off + c.prod ∨ c.off + d.prod ≤ n → d.out[n]? = c.out[n]?)

/-- R31, R220, R221: the window, `wp`, `hist` and `ck` change only by `emit`: in a step inside a call
they stay, or one byte goes to `W[wp]`, to `OUT[off + prod]`, and into the counts and the checksum. -/
def Obligations.WindowIsWrittenOnlyByEmit : Prop :=
  ∀ (s t : State) (c : Call), s.call = some c → step s = .next t →
    (t.win = s.win ∧ t.wp = s.wp ∧ t.hist = s.hist ∧ t.ck = s.ck ∧
      ∀ d, t.call = some d → d.prod = c.prod ∧ d.out = c.out) ∨
    (∃ b d, t.call = some d ∧ d.prod = c.prod + 1 ∧ d.out[c.off + c.prod]? = some b ∧
      t.win = Memory.write s.win s.wp.toNat b ∧ t.wp = s.wp + 1 ∧
      t.hist.toNat = min (s.hist.toNat + 1) 32768 ∧
      t.ck = if s.ignoreCk then s.ck else ckFold s.wrap s.ck b)

/-- R264, R336, R309: the step that ends a call hands the buffer back, with its counts inside the
buffers and with every byte outside `OUT[off .. off+produced−1]` as the step found it. `consumed` is
the cursor `ip` and the bytes the last step fetched, which stay pending in `acc`: nothing is committed
in the step that ends a call. -/
def Obligations.CallEndsWithItsCounts : Prop :=
  ∀ (s t : State) (c : Call), Inv s → s.call = some c → step s = .next t → t.call = none →
    ∃ status consumed, t.resps = .advanced status consumed c.prod c.out :: s.resps ∧
      c.ip ≤ consumed ∧ consumed ≤ c.inp.length ∧ c.prod ≤ c.out.length - c.off ∧
      t.acc = (fetchBytes ((c.inp.drop c.ip).take (consumed - c.ip)) s).acc ∧
      t.nb = (fetchBytes ((c.inp.drop c.ip).take (consumed - c.ip)) s).nb ∧
      8 * consumed + s.nb.toNat = 8 * c.ip + t.nb.toNat ∧
      t.err = (if status = 0 then s.err else status) ∧
      (status ≠ 0 ↔ t.phase = .error)

/-- R24: no byte is fetched before it is needed, an invariant of every step; so after every commit (a step
that stays in its call and leaves no element in progress) at most 7 bits are pending. -/
def Obligations.LookaheadIsMinimal : Prop :=
  ∀ s t : State, Inv s → Lookahead s → step s = .next t → Lookahead t ∧
    ∀ c x d, s.call = some c → expected c s = some x → t.call = some d → d.pend = none →
      t.nb.toNat ≤ 7

/-- R6, R133: the configuration changes nothing a step inside a call does. -/
def Obligations.TableSizeDoesNotMatter : Prop :=
  ∀ (s t : State) (c : Call) (cfg : Cfg), s.call = some c → step s = .next t →
    step { s with cfg := cfg } = .next { t with cfg := cfg }

/-- R242: `ignore_ck` and the value of `ck` change nothing but `ck` itself, outside the comparison
of the trailer. -/
def Obligations.ChecksumOptOutIsTransparent : Prop :=
  ∀ (s t : State) (c : Call) (ck : Word32) (ignore : Bool), s.call = some c → s.phase ≠ .trailer →
    step s = .next t →
    ∃ u, step { s with ck := ck, ignoreCk := ignore } = .next u ∧
      u = { t with ck := u.ck, ignoreCk := ignore } ∧ (ignore = true → u.ck = ck)

/-- R271: every call returns, within the number of steps the rule gives. -/
def Obligations.EveryCallReturns : Prop :=
  ∀ (s : State) (c : Call), Inv s → s.call = some c →
    ∃ k t, k ≤ stepBound s ∧ Host.Core.run Sys2Proof.core k s = .next t ∧ t.call = none

/-- R272: a call that returns `(0, 0, 0)` outside DONE had no input and `eoi = 0`, or no room; and
the same call again returns `(0, 0, 0)` and leaves every register as it is. -/
def Obligations.ZeroProgressRepeats : Prop :=
  ∀ (inp out : List Byte) (off : Nat) (eoi : Bool) (s t : State), Inv s → s.call = none →
    s.phase ≠ .done → s.phase ≠ .error → off ≤ out.length →
    CallReturns (beginCall inp out off eoi s) t →
    t.resps = .advanced 0 0 0 out :: s.resps → t.phase ≠ .done →
    ((inp = [] ∧ eoi = false) ∨ out.length - off = 0) ∧
    CallReturns (beginCall inp out off eoi t) { t with resps := .advanced 0 0 0 out :: t.resps }

/-- R273, R108: chunk invariance. An ADVANCE on the first part of the input and a second one on what
is left are together one ADVANCE on all of it, however the input and the output room are split
between them, with whatever buffers, and whether the first stalls for input, stalls for room, or ends
in DONE or in an error: the same registers and window, the same status, the same counts, and the
bytes of the first output followed by those of the second. `eoi = 1` is given to the first only if it
has all of the input; the room of the one call is what the first produced and the room of the
second. -/
def Obligations.TwoCallsAreOneCall : Prop :=
  ∀ (a b out1 out2 out : List Byte) (off1 off2 off : Nat) (eoi1 eoi : Bool) (s t1 t2 : State)
    (status1 status : BitVec 3) (n1 p1 n2 p2 : Nat) (buf1 buf2 : List Byte),
    Inv s → s.call = none → (eoi1 = true → eoi = true ∧ b = []) →
    off ≤ out.length → out.length - off = p1 + (out2.length - off2) →
    AdvanceReturns a out1 off1 eoi1 s t1 status1 n1 p1 buf1 →
    AdvanceReturns (a.drop n1 ++ b) out2 off2 eoi t1 t2 status n2 p2 buf2 →
    ∃ t buf, AdvanceReturns (a ++ b) out off eoi s t status (n1 + n2) (p1 + p2) buf ∧
      t = { t2 with resps := t.resps } ∧ buf.length = out.length ∧
      (∀ k, k < p1 → buf[off + k]? = buf1[off1 + k]?) ∧
      (∀ k, k < p2 → buf[off + p1 + k]? = buf2[off2 + k]?) ∧
      ∀ k, k < off ∨ off + p1 + p2 ≤ k → buf[k]? = out[k]?
end

