-- ==== Sys2Proof/Laws/Decode.lean ====
section
/-! SUPPORT. What a decode can answer: the code words of a code, the symbol a decode finds, and the
instructions of each format. -/

namespace Sys2Proof.Machine

/-! ### Code words -/

theorem assignCodes_mem {x : Lengths} {next : List Nat} {base : Nat} {w : CodeWord}
    (h : w ∈ assignCodes x next base) :
    base ≤ w.sym ∧ x.getD (w.sym - base) 0 = w.len ∧ w.len ≠ 0 := by
  induction x generalizing next base with
  | nil => simp [assignCodes] at h
  | cons l rest ih =>
    have step : ∀ {nx : List Nat}, w ∈ assignCodes rest nx (base + 1) →
        base ≤ w.sym ∧ (l :: rest).getD (w.sym - base) 0 = w.len ∧ w.len ≠ 0 := by
      intro nx hm
      obtain ⟨h1, h2, h3⟩ := ih hm
      have hs : w.sym - base = (w.sym - (base + 1)) + 1 := by omega
      exact ⟨by omega, by rw [hs]; simpa using h2, h3⟩
    unfold assignCodes at h
    split at h
    · exact step h
    · next hl =>
      rcases List.mem_cons.mp h with rfl | hm
      · exact ⟨Nat.le_refl _, by simp, hl⟩
      · exact step hm

/-- A code word stands for a used symbol and has the symbol's length. -/
theorem codeWords_len {x : Lengths} {w : CodeWord} (h : w ∈ codeWords x) :
    x.getD w.sym 0 = w.len ∧ w.len ≠ 0 := by
  obtain ⟨-, h2, h3⟩ := assignCodes_mem h
  exact ⟨by simpa using h2, h3⟩

theorem assignCodes_sym {x : Lengths} {next : List Nat} {base s : Nat}
    (hx : x.getD s 0 ≠ 0) : ∃ w ∈ assignCodes x next base, w.sym = base + s := by
  induction x generalizing next base s with
  | nil => simp at hx
  | cons l rest ih =>
    unfold assignCodes
    cases s with
    | zero =>
      have hl : l ≠ 0 := by simpa using hx
      simp [hl]
    | succ s =>
      have hr : rest.getD s 0 ≠ 0 := by simpa using hx
      split
      · obtain ⟨w, hw, hs⟩ := ih (next := next) (base := base + 1) hr
        exact ⟨w, hw, by omega⟩
      · obtain ⟨w, hw, hs⟩ := ih (next := next.set l (next.getD l 0 + 1)) (base := base + 1) hr
        exact ⟨w, List.mem_cons_of_mem _ hw, by omega⟩

/-- Every used symbol has a code word. -/
theorem codeWords_sym {x : Lengths} {s : Nat} (hx : x.getD s 0 ≠ 0) :
    ∃ w ∈ codeWords x, w.sym = s := by
  obtain ⟨w, hw, hs⟩ := assignCodes_sym (next := nextTable x) (base := 0) hx
  exact ⟨w, hw, by omega⟩

/-! ### Decode -/

/-- A decoded symbol is used, and its whole code word stands in the known bits. -/
theorem decodeSym_sym {x : Lengths} {v k s len : Nat} (h : decodeSym x v k = .sym s len) :
    ∃ w ∈ codeWords x, w.sym = s ∧ w.len = len ∧ len ≤ k ∧ v % 2 ^ len = rev len w.code := by
  unfold decodeSym at h
  split at h
  · next w hw =>
    obtain ⟨rfl, rfl⟩ := Decoded.sym.inj h
    have hp := List.find?_some hw
    simp only [CodeWord.isPrefixOf, Bool.and_eq_true, decide_eq_true_eq] at hp
    exact ⟨w, List.mem_of_find?_eq_some hw, rfl, rfl, hp.1, hp.2⟩
  · split at h <;> cases h

/-- A want of more bits means that fewer bits are known than some code word has. -/
theorem decodeSym_needMore {x : Lengths} {v k : Nat} (h : decodeSym x v k = .needMore) :
    ∃ w ∈ codeWords x, k < w.len := by
  unfold decodeSym at h
  split at h
  · cases h
  · split at h
    · next ha =>
      obtain ⟨w, hw, he⟩ := List.any_eq_true.mp ha
      simp only [CodeWord.extendsBits, Bool.and_eq_true, decide_eq_true_eq] at he
      exact ⟨w, hw, he.1⟩
    · cases h

/-- A symbol read at an offset: its length is the code's, and all its bits are known. -/
theorem hdecodeAt_got {x : Lengths} {v k o s len : Nat} (h : hdecodeAt x v k o = .got (s, len)) :
    x.getD s 0 = len ∧ len ≠ 0 ∧ len ≤ k - o := by
  unfold hdecodeAt at h
  split at h
  · next s' len' hd =>
    obtain ⟨rfl, rfl⟩ := Prod.mk.inj (Peek.got.inj h)
    obtain ⟨w, hw, hs, hl, hk, -⟩ := decodeSym_sym hd
    obtain ⟨h1, h2⟩ := codeWords_len hw
    rw [hs, hl] at h1
    rw [hl] at h2
    exact ⟨h1, h2, hk⟩
  · cases h
  · cases h

theorem bitsAt_got {v k o n a : Nat} (h : bitsAt v k o n = .got a) :
    o + n ≤ k ∧ a = field v o n := by
  unfold bitsAt at h
  split at h
  · next hk => exact ⟨hk, (Peek.got.inj h).symm⟩
  · cases h

theorem extraAt_got {v k o n a : Nat} (h : extraAt v k o n = .got a) (ho : o ≤ k) :
    o + n ≤ k ∧ a < 2 ^ n := by
  unfold extraAt at h
  split at h
  · next hn => exact ⟨by omega, by rw [← Peek.got.inj h]; exact Nat.two_pow_pos n⟩
  · obtain ⟨hk, rfl⟩ := bitsAt_got h
    exact ⟨hk, Nat.mod_lt _ (Nat.two_pow_pos n)⟩

theorem bind_got {α β : Type} {p : Peek α} {f : α → Peek β} {b : β} :
    p.bind f = .got b ↔ ∃ a, p = .got a ∧ f a = .got b := by
  cases p <;> simp [Peek.bind]

theorem orInvalid_got {o : Option Instr} {i : Instr} (h : orInvalid o = .got i) : o = some i := by
  cases o with
  | none => cases h
  | some j => exact congrArg some (Peek.got.inj h)

/-- A literal/length element: its symbol, its extra value, and that all its bits are known. -/
theorem decodeElem_ll {x : Lengths} {v k : Nat} {i : Instr} (h : decodeElem (.ll x) v k = .got i) :
    ∃ s e, litLenInstr s e = some i ∧ e < 2 ^ lenExtra s ∧ x.getD s 0 ≠ 0 ∧
      x.getD s 0 + lenExtra s ≤ k := by
  obtain ⟨⟨s, len⟩, hs, h⟩ := bind_got.mp h
  obtain ⟨e, he, h⟩ := bind_got.mp h
  obtain ⟨h1, h2, h3⟩ := hdecodeAt_got hs
  obtain ⟨h4, h5⟩ := extraAt_got he (by simpa using h3)
  exact ⟨s, e, orInvalid_got h, h5, by rw [h1]; exact h2, by rw [h1]; exact h4⟩

/-- A distance element: its symbol, its extra value, and that all its bits are known. -/
theorem decodeElem_dist {x : Lengths} {u v k : Nat} {i : Instr}
    (h : decodeElem (.dist x u) v k = .got i) :
    ∃ t e, distInstr t e = some i ∧ e < 2 ^ distExtra t ∧ x.getD t 0 ≠ 0 ∧
      u + x.getD t 0 + distExtra t ≤ k := by
  obtain ⟨⟨t, len⟩, hs, h⟩ := bind_got.mp h
  obtain ⟨e, he, h⟩ := bind_got.mp h
  obtain ⟨h1, h2, h3⟩ := hdecodeAt_got hs
  obtain ⟨h4, h5⟩ := extraAt_got he (by simp only at h3 ⊢; omega)
  exact ⟨t, e, orInvalid_got h, h5, by rw [h1]; exact h2, by rw [h1]; exact h4⟩

/-- A code-length element: symbol 16 with no previous length, or a symbol with its extra value, all
of its bits known. -/
theorem decodeElem_cls {x : Lengths} {noPrev : Bool} {v k : Nat} {i : Instr}
    (h : decodeElem (.cls x noPrev) v k = .got i) :
    (noPrev = true ∧ i = .clsym16 0) ∨
    ∃ s e, clsymInstr s e = some i ∧ e < 2 ^ clExtra s ∧ x.getD s 0 ≠ 0 ∧
      x.getD s 0 + clExtra s ≤ k := by
  obtain ⟨⟨s, len⟩, hs, h⟩ := bind_got.mp h
  split at h
  · next hc => exact .inl ⟨hc.2, (Peek.got.inj h).symm⟩
  · obtain ⟨e, he, h⟩ := bind_got.mp h
    obtain ⟨h1, h2, h3⟩ := hdecodeAt_got hs
    obtain ⟨h4, h5⟩ := extraAt_got he (by simpa using h3)
    exact .inr ⟨s, e, orInvalid_got h, h5, by rw [h1]; exact h2, by rw [h1]; exact h4⟩

end Sys2Proof.Machine
end

