-- ==== Sys2Proof/Laws/Memory.lean ====
section
/-! SUPPORT. The window memory: every operation on it keeps the canonical form, and `emit` is the
only operation of the block that writes it. -/

namespace Sys2Proof.Machine.Memory

theorem risesFrom_mono {lo lo' : Nat} {m : Memory} (h : lo' ≤ lo) (hm : risesFrom lo m = true) :
    risesFrom lo' m = true := by
  cases m with
  | nil => rfl
  | cons c m =>
    obtain ⟨x, v⟩ := c
    simp only [risesFrom, Bool.and_eq_true, decide_eq_true_eq] at hm ⊢
    exact ⟨h.trans hm.1, hm.2⟩

/-- A write at or above `lo` keeps the addresses rising from `lo`. -/
theorem risesFrom_write {m : Memory} {a : Nat} (b : Byte) :
    ∀ {lo : Nat}, lo ≤ a → risesFrom lo m = true → risesFrom lo (write m a b) = true := by
  induction m with
  | nil => intro lo h _; simp [write, risesFrom, h]
  | cons c m ih =>
    obtain ⟨x, v⟩ := c
    intro lo h hm
    simp only [risesFrom, Bool.and_eq_true, decide_eq_true_eq] at hm
    unfold write
    split
    · next hx => simp [risesFrom, h, hm.2, Nat.succ_le_of_lt hx]
    · split
      · next hx => subst hx; simp [risesFrom, h, hm.2]
      · next h1 h2 => simp [risesFrom, hm.1, ih (by omega) hm.2]

/-- A write keeps the canonical form. -/
theorem wf_write {m : Memory} (a : Nat) (b : Byte) (h : wf m = true) : wf (write m a b) = true :=
  risesFrom_write b (Nat.zero_le a) h

/-- The memory after reset is canonical. -/
theorem wf_reset : wf State.reset.win = true := rfl

/-- The memory after a RESET is canonical. -/
theorem wf_resetTo (cfg : Cfg) (wrap : Wrap) : wf (State.resetTo cfg wrap).win = true := rfl

/-- In a canonical memory no address below the first is listed. -/
theorem read_below {lo a : Nat} {m : Memory} (h : risesFrom lo m = true) (ha : a < lo) :
    read m a = none := by
  induction m generalizing lo with
  | nil => rfl
  | cons c m ih =>
    obtain ⟨x, v⟩ := c
    simp only [risesFrom, Bool.and_eq_true, decide_eq_true_eq] at h
    have hx : x ≠ a := by omega
    simp only [read, hx, if_false]
    exact ih h.2 (by omega)

/-- A listed byte reads as it is listed. -/
theorem read_of_mem {lo : Nat} {m : Memory} {cell : Host.Cell} (h : risesFrom lo m = true)
    (hc : cell ∈ m) : read m cell.1 = some cell.2 := by
  induction m generalizing lo with
  | nil => simp at hc
  | cons c m ih =>
    obtain ⟨x, v⟩ := c
    simp only [risesFrom, Bool.and_eq_true, decide_eq_true_eq] at h
    rcases List.mem_cons.mp hc with rfl | hm
    · simp [read]
    · have hr := ih h.2 hm
      by_cases hx : x = cell.1
      · rw [← hx] at hr
        rw [read_below h.2 (Nat.lt_succ_self x)] at hr
        simp at hr
      · simp [read, hx, hr]

/-- Every address a write leaves in the memory is the written one or stood there before. -/
theorem mem_write {m : Memory} {a : Nat} {b : Byte} {cell : Host.Cell}
    (h : cell ∈ write m a b) : cell = (a, b) ∨ cell ∈ m := by
  induction m with
  | nil => simpa [write] using h
  | cons c m ih =>
    obtain ⟨x, v⟩ := c
    unfold write at h
    split at h
    · simpa using h
    · split at h
      · rcases List.mem_cons.mp h with h | h
        · exact .inl h
        · exact .inr (List.mem_cons_of_mem _ h)
      · rcases List.mem_cons.mp h with h | h
        · exact .inr (h ▸ List.mem_cons_self)
        · exact (ih h).imp id (List.mem_cons_of_mem _)

end Sys2Proof.Machine.Memory
end

