-- ==== Sys2Proof/Laws/State.lean ====
section
/-! SUPPORT. One lemma per field per named update of the state, so that no later proof unfolds a
record update. -/

namespace Sys2Proof.Machine

/-! ### `respond` -/

@[simp] theorem respond_phase (r : Response) (s : State) : (respond r s).phase = s.phase := rfl
@[simp] theorem respond_acc (r : Response) (s : State) : (respond r s).acc = s.acc := rfl
@[simp] theorem respond_nb (r : Response) (s : State) : (respond r s).nb = s.nb := rfl
@[simp] theorem respond_final (r : Response) (s : State) : (respond r s).final = s.final := rfl
@[simp] theorem respond_stRem (r : Response) (s : State) : (respond r s).stRem = s.stRem := rfl
@[simp] theorem respond_hlit (r : Response) (s : State) : (respond r s).hlit = s.hlit := rfl
@[simp] theorem respond_hdist (r : Response) (s : State) : (respond r s).hdist = s.hdist := rfl
@[simp] theorem respond_hclen (r : Response) (s : State) : (respond r s).hclen = s.hclen := rfl
@[simp] theorem respond_clIdx (r : Response) (s : State) : (respond r s).clIdx = s.clIdx := rfl
@[simp] theorem respond_dynIdx (r : Response) (s : State) : (respond r s).dynIdx = s.dynIdx := rfl
@[simp] theorem respond_clLen (r : Response) (s : State) : (respond r s).clLen = s.clLen := rfl
@[simp] theorem respond_lens (r : Response) (s : State) : (respond r s).lens = s.lens := rfl
@[simp] theorem respond_codeLL (r : Response) (s : State) : (respond r s).codeLL = s.codeLL := rfl
@[simp] theorem respond_codeD (r : Response) (s : State) : (respond r s).codeD = s.codeD := rfl
@[simp] theorem respond_brLen (r : Response) (s : State) : (respond r s).brLen = s.brLen := rfl
@[simp] theorem respond_brDist (r : Response) (s : State) : (respond r s).brDist = s.brDist := rfl
@[simp] theorem respond_win (r : Response) (s : State) : (respond r s).win = s.win := rfl
@[simp] theorem respond_wp (r : Response) (s : State) : (respond r s).wp = s.wp := rfl
@[simp] theorem respond_hist (r : Response) (s : State) : (respond r s).hist = s.hist := rfl
@[simp] theorem respond_ck (r : Response) (s : State) : (respond r s).ck = s.ck := rfl
@[simp] theorem respond_ignoreCk (r : Response) (s : State) :
    (respond r s).ignoreCk = s.ignoreCk := rfl
@[simp] theorem respond_err (r : Response) (s : State) : (respond r s).err = s.err := rfl
@[simp] theorem respond_cfg (r : Response) (s : State) : (respond r s).cfg = s.cfg := rfl
@[simp] theorem respond_wrap (r : Response) (s : State) : (respond r s).wrap = s.wrap := rfl
@[simp] theorem respond_call (r : Response) (s : State) : (respond r s).call = s.call := rfl
@[simp] theorem respond_cmds (r : Response) (s : State) : (respond r s).cmds = s.cmds := rfl
@[simp] theorem respond_resps (r : Response) (s : State) : (respond r s).resps = r :: s.resps := rfl

/-! ### `beginCall` -/

@[simp] theorem beginCall_phase (inp out : List Byte) (off : Nat) (eoi : Bool) (s : State) :
    (beginCall inp out off eoi s).phase = s.phase := rfl
@[simp] theorem beginCall_acc (inp out : List Byte) (off : Nat) (eoi : Bool) (s : State) :
    (beginCall inp out off eoi s).acc = s.acc := rfl
@[simp] theorem beginCall_nb (inp out : List Byte) (off : Nat) (eoi : Bool) (s : State) :
    (beginCall inp out off eoi s).nb = s.nb := rfl
@[simp] theorem beginCall_final (inp out : List Byte) (off : Nat) (eoi : Bool) (s : State) :
    (beginCall inp out off eoi s).final = s.final := rfl
@[simp] theorem beginCall_stRem (inp out : List Byte) (off : Nat) (eoi : Bool) (s : State) :
    (beginCall inp out off eoi s).stRem = s.stRem := rfl
@[simp] theorem beginCall_hlit (inp out : List Byte) (off : Nat) (eoi : Bool) (s : State) :
    (beginCall inp out off eoi s).hlit = s.hlit := rfl
@[simp] theorem beginCall_hdist (inp out : List Byte) (off : Nat) (eoi : Bool) (s : State) :
    (beginCall inp out off eoi s).hdist = s.hdist := rfl
@[simp] theorem beginCall_hclen (inp out : List Byte) (off : Nat) (eoi : Bool) (s : State) :
    (beginCall inp out off eoi s).hclen = s.hclen := rfl
@[simp] theorem beginCall_clIdx (inp out : List Byte) (off : Nat) (eoi : Bool) (s : State) :
    (beginCall inp out off eoi s).clIdx = s.clIdx := rfl
@[simp] theorem beginCall_dynIdx (inp out : List Byte) (off : Nat) (eoi : Bool) (s : State) :
    (beginCall inp out off eoi s).dynIdx = s.dynIdx := rfl
@[simp] theorem beginCall_clLen (inp out : List Byte) (off : Nat) (eoi : Bool) (s : State) :
    (beginCall inp out off eoi s).clLen = s.clLen := rfl
@[simp] theorem beginCall_lens (inp out : List Byte) (off : Nat) (eoi : Bool) (s : State) :
    (beginCall inp out off eoi s).lens = s.lens := rfl
@[simp] theorem beginCall_codeLL (inp out : List Byte) (off : Nat) (eoi : Bool) (s : State) :
    (beginCall inp out off eoi s).codeLL = s.codeLL := rfl
@[simp] theorem beginCall_codeD (inp out : List Byte) (off : Nat) (eoi : Bool) (s : State) :
    (beginCall inp out off eoi s).codeD = s.codeD := rfl
@[simp] theorem beginCall_brLen (inp out : List Byte) (off : Nat) (eoi : Bool) (s : State) :
    (beginCall inp out off eoi s).brLen = s.brLen := rfl
@[simp] theorem beginCall_brDist (inp out : List Byte) (off : Nat) (eoi : Bool) (s : State) :
    (beginCall inp out off eoi s).brDist = s.brDist := rfl
@[simp] theorem beginCall_win (inp out : List Byte) (off : Nat) (eoi : Bool) (s : State) :
    (beginCall inp out off eoi s).win = s.win := rfl
@[simp] theorem beginCall_wp (inp out : List Byte) (off : Nat) (eoi : Bool) (s : State) :
    (beginCall inp out off eoi s).wp = s.wp := rfl
@[simp] theorem beginCall_hist (inp out : List Byte) (off : Nat) (eoi : Bool) (s : State) :
    (beginCall inp out off eoi s).hist = s.hist := rfl
@[simp] theorem beginCall_ck (inp out : List Byte) (off : Nat) (eoi : Bool) (s : State) :
    (beginCall inp out off eoi s).ck = s.ck := rfl
@[simp] theorem beginCall_ignoreCk (inp out : List Byte) (off : Nat) (eoi : Bool) (s : State) :
    (beginCall inp out off eoi s).ignoreCk = s.ignoreCk := rfl
@[simp] theorem beginCall_err (inp out : List Byte) (off : Nat) (eoi : Bool) (s : State) :
    (beginCall inp out off eoi s).err = s.err := rfl
@[simp] theorem beginCall_cfg (inp out : List Byte) (off : Nat) (eoi : Bool) (s : State) :
    (beginCall inp out off eoi s).cfg = s.cfg := rfl
@[simp] theorem beginCall_wrap (inp out : List Byte) (off : Nat) (eoi : Bool) (s : State) :
    (beginCall inp out off eoi s).wrap = s.wrap := rfl
@[simp] theorem beginCall_call (inp out : List Byte) (off : Nat) (eoi : Bool) (s : State) :
    (beginCall inp out off eoi s).call = some ⟨inp, out, off, eoi, 0, 0, none⟩ := rfl
@[simp] theorem beginCall_cmds (inp out : List Byte) (off : Nat) (eoi : Bool) (s : State) :
    (beginCall inp out off eoi s).cmds = s.cmds := rfl
@[simp] theorem beginCall_resps (inp out : List Byte) (off : Nat) (eoi : Bool) (s : State) :
    (beginCall inp out off eoi s).resps = s.resps := rfl

/-! ### `fetchByte` -/

@[simp] theorem fetchByte_phase (b : Byte) (s : State) : (fetchByte b s).phase = s.phase := rfl
@[simp] theorem fetchByte_acc (b : Byte) (s : State) :
    (fetchByte b s).acc = s.acc ||| (b.setWidth 64 <<< s.nb.toNat) := rfl
@[simp] theorem fetchByte_nb (b : Byte) (s : State) : (fetchByte b s).nb = s.nb + 8 := rfl
@[simp] theorem fetchByte_final (b : Byte) (s : State) : (fetchByte b s).final = s.final := rfl
@[simp] theorem fetchByte_stRem (b : Byte) (s : State) : (fetchByte b s).stRem = s.stRem := rfl
@[simp] theorem fetchByte_hlit (b : Byte) (s : State) : (fetchByte b s).hlit = s.hlit := rfl
@[simp] theorem fetchByte_hdist (b : Byte) (s : State) : (fetchByte b s).hdist = s.hdist := rfl
@[simp] theorem fetchByte_hclen (b : Byte) (s : State) : (fetchByte b s).hclen = s.hclen := rfl
@[simp] theorem fetchByte_clIdx (b : Byte) (s : State) : (fetchByte b s).clIdx = s.clIdx := rfl
@[simp] theorem fetchByte_dynIdx (b : Byte) (s : State) : (fetchByte b s).dynIdx = s.dynIdx := rfl
@[simp] theorem fetchByte_clLen (b : Byte) (s : State) : (fetchByte b s).clLen = s.clLen := rfl
@[simp] theorem fetchByte_lens (b : Byte) (s : State) : (fetchByte b s).lens = s.lens := rfl
@[simp] theorem fetchByte_codeLL (b : Byte) (s : State) : (fetchByte b s).codeLL = s.codeLL := rfl
@[simp] theorem fetchByte_codeD (b : Byte) (s : State) : (fetchByte b s).codeD = s.codeD := rfl
@[simp] theorem fetchByte_brLen (b : Byte) (s : State) : (fetchByte b s).brLen = s.brLen := rfl
@[simp] theorem fetchByte_brDist (b : Byte) (s : State) : (fetchByte b s).brDist = s.brDist := rfl
@[simp] theorem fetchByte_win (b : Byte) (s : State) : (fetchByte b s).win = s.win := rfl
@[simp] theorem fetchByte_wp (b : Byte) (s : State) : (fetchByte b s).wp = s.wp := rfl
@[simp] theorem fetchByte_hist (b : Byte) (s : State) : (fetchByte b s).hist = s.hist := rfl
@[simp] theorem fetchByte_ck (b : Byte) (s : State) : (fetchByte b s).ck = s.ck := rfl
@[simp] theorem fetchByte_ignoreCk (b : Byte) (s : State) :
    (fetchByte b s).ignoreCk = s.ignoreCk := rfl
@[simp] theorem fetchByte_err (b : Byte) (s : State) : (fetchByte b s).err = s.err := rfl
@[simp] theorem fetchByte_cfg (b : Byte) (s : State) : (fetchByte b s).cfg = s.cfg := rfl
@[simp] theorem fetchByte_wrap (b : Byte) (s : State) : (fetchByte b s).wrap = s.wrap := rfl
@[simp] theorem fetchByte_call (b : Byte) (s : State) :
    (fetchByte b s).call = s.call.map fun c => { c with ip := c.ip + 1 } := rfl
@[simp] theorem fetchByte_cmds (b : Byte) (s : State) : (fetchByte b s).cmds = s.cmds := rfl
@[simp] theorem fetchByte_resps (b : Byte) (s : State) : (fetchByte b s).resps = s.resps := rfl

/-! ### `align` -/

@[simp] theorem align_phase (s : State) : (align s).phase = s.phase := rfl
@[simp] theorem align_acc (s : State) : (align s).acc = 0 := rfl
@[simp] theorem align_nb (s : State) : (align s).nb = 0 := rfl
@[simp] theorem align_final (s : State) : (align s).final = s.final := rfl
@[simp] theorem align_stRem (s : State) : (align s).stRem = s.stRem := rfl
@[simp] theorem align_hlit (s : State) : (align s).hlit = s.hlit := rfl
@[simp] theorem align_hdist (s : State) : (align s).hdist = s.hdist := rfl
@[simp] theorem align_hclen (s : State) : (align s).hclen = s.hclen := rfl
@[simp] theorem align_clIdx (s : State) : (align s).clIdx = s.clIdx := rfl
@[simp] theorem align_dynIdx (s : State) : (align s).dynIdx = s.dynIdx := rfl
@[simp] theorem align_clLen (s : State) : (align s).clLen = s.clLen := rfl
@[simp] theorem align_lens (s : State) : (align s).lens = s.lens := rfl
@[simp] theorem align_codeLL (s : State) : (align s).codeLL = s.codeLL := rfl
@[simp] theorem align_codeD (s : State) : (align s).codeD = s.codeD := rfl
@[simp] theorem align_brLen (s : State) : (align s).brLen = s.brLen := rfl
@[simp] theorem align_brDist (s : State) : (align s).brDist = s.brDist := rfl
@[simp] theorem align_win (s : State) : (align s).win = s.win := rfl
@[simp] theorem align_wp (s : State) : (align s).wp = s.wp := rfl
@[simp] theorem align_hist (s : State) : (align s).hist = s.hist := rfl
@[simp] theorem align_ck (s : State) : (align s).ck = s.ck := rfl
@[simp] theorem align_ignoreCk (s : State) : (align s).ignoreCk = s.ignoreCk := rfl
@[simp] theorem align_err (s : State) : (align s).err = s.err := rfl
@[simp] theorem align_cfg (s : State) : (align s).cfg = s.cfg := rfl
@[simp] theorem align_wrap (s : State) : (align s).wrap = s.wrap := rfl
@[simp] theorem align_call (s : State) : (align s).call = s.call := rfl
@[simp] theorem align_cmds (s : State) : (align s).cmds = s.cmds := rfl
@[simp] theorem align_resps (s : State) : (align s).resps = s.resps := rfl

/-! ### `dropPending` -/

@[simp] theorem dropPending_phase (s : State) : (dropPending s).phase = s.phase := rfl
@[simp] theorem dropPending_acc (s : State) : (dropPending s).acc = s.acc := rfl
@[simp] theorem dropPending_nb (s : State) : (dropPending s).nb = s.nb := rfl
@[simp] theorem dropPending_final (s : State) : (dropPending s).final = s.final := rfl
@[simp] theorem dropPending_stRem (s : State) : (dropPending s).stRem = s.stRem := rfl
@[simp] theorem dropPending_hlit (s : State) : (dropPending s).hlit = s.hlit := rfl
@[simp] theorem dropPending_hdist (s : State) : (dropPending s).hdist = s.hdist := rfl
@[simp] theorem dropPending_hclen (s : State) : (dropPending s).hclen = s.hclen := rfl
@[simp] theorem dropPending_clIdx (s : State) : (dropPending s).clIdx = s.clIdx := rfl
@[simp] theorem dropPending_dynIdx (s : State) : (dropPending s).dynIdx = s.dynIdx := rfl
@[simp] theorem dropPending_clLen (s : State) : (dropPending s).clLen = s.clLen := rfl
@[simp] theorem dropPending_lens (s : State) : (dropPending s).lens = s.lens := rfl
@[simp] theorem dropPending_codeLL (s : State) : (dropPending s).codeLL = s.codeLL := rfl
@[simp] theorem dropPending_codeD (s : State) : (dropPending s).codeD = s.codeD := rfl
@[simp] theorem dropPending_brLen (s : State) : (dropPending s).brLen = s.brLen := rfl
@[simp] theorem dropPending_brDist (s : State) : (dropPending s).brDist = s.brDist := rfl
@[simp] theorem dropPending_win (s : State) : (dropPending s).win = s.win := rfl
@[simp] theorem dropPending_wp (s : State) : (dropPending s).wp = s.wp := rfl
@[simp] theorem dropPending_hist (s : State) : (dropPending s).hist = s.hist := rfl
@[simp] theorem dropPending_ck (s : State) : (dropPending s).ck = s.ck := rfl
@[simp] theorem dropPending_ignoreCk (s : State) : (dropPending s).ignoreCk = s.ignoreCk := rfl
@[simp] theorem dropPending_err (s : State) : (dropPending s).err = s.err := rfl
@[simp] theorem dropPending_cfg (s : State) : (dropPending s).cfg = s.cfg := rfl
@[simp] theorem dropPending_wrap (s : State) : (dropPending s).wrap = s.wrap := rfl
@[simp] theorem dropPending_call (s : State) :
    (dropPending s).call = s.call.map fun c => { c with pend := none } := rfl
@[simp] theorem dropPending_cmds (s : State) : (dropPending s).cmds = s.cmds := rfl
@[simp] theorem dropPending_resps (s : State) : (dropPending s).resps = s.resps := rfl

/-! ### `endBlock`: only the phase and, before the trailer, the bit reader change -/

@[simp] theorem endBlock_final (s : State) : (endBlock s).final = s.final := by
  unfold endBlock align; repeat' split
  all_goals rfl
@[simp] theorem endBlock_stRem (s : State) : (endBlock s).stRem = s.stRem := by
  unfold endBlock align; repeat' split
  all_goals rfl
@[simp] theorem endBlock_hlit (s : State) : (endBlock s).hlit = s.hlit := by
  unfold endBlock align; repeat' split
  all_goals rfl
@[simp] theorem endBlock_hdist (s : State) : (endBlock s).hdist = s.hdist := by
  unfold endBlock align; repeat' split
  all_goals rfl
@[simp] theorem endBlock_hclen (s : State) : (endBlock s).hclen = s.hclen := by
  unfold endBlock align; repeat' split
  all_goals rfl
@[simp] theorem endBlock_clIdx (s : State) : (endBlock s).clIdx = s.clIdx := by
  unfold endBlock align; repeat' split
  all_goals rfl
@[simp] theorem endBlock_dynIdx (s : State) : (endBlock s).dynIdx = s.dynIdx := by
  unfold endBlock align; repeat' split
  all_goals rfl
@[simp] theorem endBlock_clLen (s : State) : (endBlock s).clLen = s.clLen := by
  unfold endBlock align; repeat' split
  all_goals rfl
@[simp] theorem endBlock_lens (s : State) : (endBlock s).lens = s.lens := by
  unfold endBlock align; repeat' split
  all_goals rfl
@[simp] theorem endBlock_codeLL (s : State) : (endBlock s).codeLL = s.codeLL := by
  unfold endBlock align; repeat' split
  all_goals rfl
@[simp] theorem endBlock_codeD (s : State) : (endBlock s).codeD = s.codeD := by
  unfold endBlock align; repeat' split
  all_goals rfl
@[simp] theorem endBlock_brLen (s : State) : (endBlock s).brLen = s.brLen := by
  unfold endBlock align; repeat' split
  all_goals rfl
@[simp] theorem endBlock_brDist (s : State) : (endBlock s).brDist = s.brDist := by
  unfold endBlock align; repeat' split
  all_goals rfl
@[simp] theorem endBlock_win (s : State) : (endBlock s).win = s.win := by
  unfold endBlock align; repeat' split
  all_goals rfl
@[simp] theorem endBlock_wp (s : State) : (endBlock s).wp = s.wp := by
  unfold endBlock align; repeat' split
  all_goals rfl
@[simp] theorem endBlock_hist (s : State) : (endBlock s).hist = s.hist := by
  unfold endBlock align; repeat' split
  all_goals rfl
@[simp] theorem endBlock_ck (s : State) : (endBlock s).ck = s.ck := by
  unfold endBlock align; repeat' split
  all_goals rfl
@[simp] theorem endBlock_ignoreCk (s : State) : (endBlock s).ignoreCk = s.ignoreCk := by
  unfold endBlock align; repeat' split
  all_goals rfl
@[simp] theorem endBlock_err (s : State) : (endBlock s).err = s.err := by
  unfold endBlock align; repeat' split
  all_goals rfl
@[simp] theorem endBlock_cfg (s : State) : (endBlock s).cfg = s.cfg := by
  unfold endBlock align; repeat' split
  all_goals rfl
@[simp] theorem endBlock_wrap (s : State) : (endBlock s).wrap = s.wrap := by
  unfold endBlock align; repeat' split
  all_goals rfl
@[simp] theorem endBlock_call (s : State) : (endBlock s).call = s.call := by
  unfold endBlock align; repeat' split
  all_goals rfl
@[simp] theorem endBlock_cmds (s : State) : (endBlock s).cmds = s.cmds := by
  unfold endBlock align; repeat' split
  all_goals rfl
@[simp] theorem endBlock_resps (s : State) : (endBlock s).resps = s.resps := by
  unfold endBlock align; repeat' split
  all_goals rfl

/-! ### `State.resetTo`: the reset values of R37 -/

@[simp] theorem resetTo_acc (cfg : Cfg) (wrap : Wrap) : (State.resetTo cfg wrap).acc = 0 := rfl
@[simp] theorem resetTo_nb (cfg : Cfg) (wrap : Wrap) : (State.resetTo cfg wrap).nb = 0 := rfl
@[simp] theorem resetTo_final (cfg : Cfg) (wrap : Wrap) :
    (State.resetTo cfg wrap).final = false := rfl
@[simp] theorem resetTo_stRem (cfg : Cfg) (wrap : Wrap) : (State.resetTo cfg wrap).stRem = 0 := rfl
@[simp] theorem resetTo_hlit (cfg : Cfg) (wrap : Wrap) : (State.resetTo cfg wrap).hlit = 0 := rfl
@[simp] theorem resetTo_hdist (cfg : Cfg) (wrap : Wrap) : (State.resetTo cfg wrap).hdist = 0 := rfl
@[simp] theorem resetTo_hclen (cfg : Cfg) (wrap : Wrap) : (State.resetTo cfg wrap).hclen = 0 := rfl
@[simp] theorem resetTo_clIdx (cfg : Cfg) (wrap : Wrap) : (State.resetTo cfg wrap).clIdx = 0 := rfl
@[simp] theorem resetTo_dynIdx (cfg : Cfg) (wrap : Wrap) :
    (State.resetTo cfg wrap).dynIdx = 0 := rfl
@[simp] theorem resetTo_brLen (cfg : Cfg) (wrap : Wrap) : (State.resetTo cfg wrap).brLen = 0 := rfl
@[simp] theorem resetTo_win (cfg : Cfg) (wrap : Wrap) : (State.resetTo cfg wrap).win = [] := rfl
@[simp] theorem resetTo_wp (cfg : Cfg) (wrap : Wrap) : (State.resetTo cfg wrap).wp = 0 := rfl
@[simp] theorem resetTo_hist (cfg : Cfg) (wrap : Wrap) : (State.resetTo cfg wrap).hist = 0 := rfl
@[simp] theorem resetTo_ck (cfg : Cfg) (wrap : Wrap) :
    (State.resetTo cfg wrap).ck = ckInit wrap := rfl
@[simp] theorem resetTo_ignoreCk (cfg : Cfg) (wrap : Wrap) :
    (State.resetTo cfg wrap).ignoreCk = false := rfl
@[simp] theorem resetTo_err (cfg : Cfg) (wrap : Wrap) : (State.resetTo cfg wrap).err = 0 := rfl
@[simp] theorem resetTo_cfg (cfg : Cfg) (wrap : Wrap) : (State.resetTo cfg wrap).cfg = cfg := rfl
@[simp] theorem resetTo_wrap (cfg : Cfg) (wrap : Wrap) : (State.resetTo cfg wrap).wrap = wrap := rfl
@[simp] theorem resetTo_call (cfg : Cfg) (wrap : Wrap) : (State.resetTo cfg wrap).call = none := rfl
@[simp] theorem resetTo_cmds (cfg : Cfg) (wrap : Wrap) : (State.resetTo cfg wrap).cmds = [] := rfl
@[simp] theorem resetTo_resps (cfg : Cfg) (wrap : Wrap) : (State.resetTo cfg wrap).resps = [] := rfl
@[simp] theorem resetTo_phase_raw (cfg : Cfg) : (State.resetTo cfg .raw).phase = .blockHeader := rfl
@[simp] theorem resetTo_phase_zlib (cfg : Cfg) :
    (State.resetTo cfg .zlib).phase = .zlibHeader := rfl

end Sys2Proof.Machine
end

