-- ==== Sys2Proof/Laws/Ops.lean ====
section
/-! SUPPORT. For each shared operation, all it can do: if it answers a next state, then which. -/

namespace Sys2Proof.Machine

/-! ### Sequencing -/

theorem andThen_next {o : Outcome} {f : State → Outcome} {t : State} :
    andThen o f = .next t ↔ ∃ s, o = .next s ∧ f s = .next t := by
  cases o <;> simp [andThen]

@[simp] theorem andThen_of_next (s : State) (f : State → Outcome) :
    andThen (.next s) f = f s := rfl

/-! ### The end of a call -/

theorem finishCall_next {status : BitVec 3} {s t : State} :
    finishCall status s = .next t ↔ ∃ c, s.call = some c ∧
      t = respond (.advanced status c.ip c.prod c.out) { s with call := none } := by
  unfold finishCall
  cases h : s.call <;> simp [eq_comm]

theorem stall_next {s t : State} :
    stall s = .next t ↔ ∃ c, s.call = some c ∧
      t = respond (.advanced statusOk c.ip c.prod c.out) { s with call := none } :=
  finishCall_next

theorem raise_next {e : Err} {s t : State} :
    raise e s = .next t ↔ ∃ c, s.call = some c ∧
      t = respond (.advanced e.code c.ip c.prod c.out)
        { s with phase := .error, err := e.code, call := none } :=
  finishCall_next

theorem shortage_of_call {s : State} {c : Call} (h : s.call = some c) :
    shortage s = if c.eoi then raise .truncatedInput s else stall s := by
  simp [shortage, h]

theorem code_ne_zero (e : Err) : e.code ≠ 0 := by cases e <;> decide

/-- Ending a call gives a next state whenever a call is in progress. -/
theorem finishCall_of_call {status : BitVec 3} {s : State} {c : Call} (h : s.call = some c) :
    finishCall status s =
      .next (respond (.advanced status c.ip c.prod c.out) { s with call := none }) := by
  simp [finishCall, h]

/-! ### The bit reader -/

theorem consume_next {n : Nat} {s t : State} :
    consume n s = .next t ↔
      n ≤ s.nb.toNat ∧ t = { s with acc := s.acc >>> n, nb := s.nb - BitVec.ofNat 6 n } := by
  unfold consume
  split <;> simp_all [eq_comm]

theorem consume_of_le {n : Nat} {s : State} (h : n ≤ s.nb.toNat) :
    consume n s = .next { s with acc := s.acc >>> n, nb := s.nb - BitVec.ofNat 6 n } := by
  simp [consume, h]

@[simp] theorem fetchBytes_nil (s : State) : fetchBytes [] s = s := rfl

@[simp] theorem fetchBytes_cons (b : Byte) (bytes : List Byte) (s : State) :
    fetchBytes (b :: bytes) s = fetchBytes bytes (fetchByte b s) := rfl

/-- FETCHing changes only the accumulator, the bit count and the input cursor. -/
theorem fetchBytes_frame (bytes : List Byte) (s : State) :
    fetchBytes bytes s = { s with
      acc := (fetchBytes bytes s).acc
      nb := (fetchBytes bytes s).nb
      call := s.call.map fun c => { c with ip := c.ip + bytes.length } } := by
  induction bytes generalizing s with
  | nil => cases h : s.call <;> cases s <;> simp_all
  | cons b bytes ih =>
    rw [fetchBytes_cons, ih (fetchByte b s)]
    cases h : s.call <;> simp [fetchByte, h]
    omega

/-- A run of peeks that ends with a value: it FETCHed some bytes, each of them wanted, and the peek
at the bits then pending gives the value. -/
theorem fetchLoop_got {α : Type} {peek : Nat → Nat → Peek α} {rest : List Byte} {s t : State}
    {a : α} (h : fetchLoop peek rest s = .got a t) :
    ∃ n, n ≤ rest.length ∧ t = fetchBytes (rest.take n) s ∧
      peek t.acc.toNat t.nb.toNat = .got a ∧
      ∀ j, j < n → peek (fetchBytes (rest.take j) s).acc.toNat
        (fetchBytes (rest.take j) s).nb.toNat = .needMore := by
  induction rest generalizing s with
  | nil =>
    unfold fetchLoop at h
    split at h
    · next x hx =>
      obtain ⟨rfl, rfl⟩ := Probe.got.inj h
      exact ⟨0, le_refl _, rfl, hx, fun j hj => absurd hj (Nat.not_lt_zero j)⟩
    · cases h
    · cases h
  | cons b rest ih =>
    unfold fetchLoop at h
    split at h
    · next x hx =>
      obtain ⟨rfl, rfl⟩ := Probe.got.inj h
      exact ⟨0, Nat.zero_le _, rfl, hx, fun j hj => absurd hj (Nat.not_lt_zero j)⟩
    · cases h
    · next hn =>
      obtain ⟨n, hle, ht, hp, hj⟩ := ih h
      refine ⟨n + 1, Nat.succ_le_succ hle, by simpa using ht, hp, fun j hlt => ?_⟩
      cases j with
      | zero => simpa using hn
      | succ j => simpa using hj j (Nat.lt_of_succ_lt_succ hlt)

/-- A run of peeks that ends the call: it FETCHed some bytes, each of them wanted, and either the
peek at the bits then pending shows an error, or no byte is left and more bits are wanted. -/
theorem fetchLoop_ended {α : Type} {peek : Nat → Nat → Peek α} {rest : List Byte} {s : State}
    {o : Outcome} (h : fetchLoop peek rest s = .ended o) :
    ∃ n t, n ≤ rest.length ∧ t = fetchBytes (rest.take n) s ∧
      ((∃ e, peek t.acc.toNat t.nb.toNat = .bad e ∧ o = raise e t) ∨
        (n = rest.length ∧ peek t.acc.toNat t.nb.toNat = .needMore ∧ o = shortage t)) ∧
      ∀ j, j < n → peek (fetchBytes (rest.take j) s).acc.toNat
        (fetchBytes (rest.take j) s).nb.toNat = .needMore := by
  induction rest generalizing s with
  | nil =>
    unfold fetchLoop at h
    split at h
    · cases h
    · next e he =>
      exact ⟨0, s, le_refl _, rfl, .inl ⟨e, he, (Probe.ended.inj h).symm⟩,
        fun j hj => absurd hj (Nat.not_lt_zero j)⟩
    · next hn =>
      exact ⟨0, s, le_refl _, rfl, .inr ⟨rfl, hn, (Probe.ended.inj h).symm⟩,
        fun j hj => absurd hj (Nat.not_lt_zero j)⟩
  | cons b rest ih =>
    unfold fetchLoop at h
    split at h
    · cases h
    · next e he =>
      exact ⟨0, s, Nat.zero_le _, rfl, .inl ⟨e, he, (Probe.ended.inj h).symm⟩,
        fun j hj => absurd hj (Nat.not_lt_zero j)⟩
    · next hn =>
      obtain ⟨n, t, hle, ht, hc, hj⟩ := ih h
      refine ⟨n + 1, t, Nat.succ_le_succ hle, by simpa using ht, ?_, fun j hlt => ?_⟩
      · exact hc.imp id fun ⟨h1, h2, h3⟩ => ⟨by simp [h1], h2, h3⟩
      · cases j with
        | zero => simpa using hn
        | succ j => simpa using hj j (Nat.lt_of_succ_lt_succ hlt)

theorem probe_of_call {α : Type} {peek : Nat → Nat → Peek α} {s : State} {c : Call}
    (h : s.call = some c) : probe peek s = fetchLoop peek (c.inp.drop c.ip) s := by
  simp [probe, h]

/-! ### Output and window -/

theorem room_of_call {s : State} {c : Call} (h : s.call = some c) :
    room s = c.out.length - c.off - c.prod := by simp [room, h]

theorem room_eq_zero {s : State} {c : Call} (h : s.call = some c) :
    room s = 0 ↔ c.out.length ≤ c.off + c.prod := by rw [room_of_call h]; omega

theorem emit_next {b : Byte} {s t : State} :
    emit b s = .next t ↔ ∃ c, s.call = some c ∧ c.off + c.prod < c.out.length ∧
      t = { s with
        call := some { c with out := c.out.set (c.off + c.prod) b, prod := c.prod + 1 }
        win := Memory.write s.win s.wp.toNat b
        wp := s.wp + 1
        hist := bumpHist s.hist
        ck := if s.ignoreCk then s.ck else ckFold s.wrap s.ck b } := by
  unfold emit
  cases h : s.call with
  | none => simp
  | some c =>
    by_cases hc : c.off + c.prod < c.out.length
    · simp only [hc, if_true, Host.Outcome.next.injEq, Option.some.injEq, exists_eq_left', true_and]
      exact eq_comm
    · simp [hc]

theorem bumpHist_toNat (hist : BitVec 17) :
    (bumpHist hist).toNat = min (hist.toNat + 1) Config.window := by
  unfold bumpHist Config.window
  rw [BitVec.toNat_ofNat]
  omega

/-- Every operation of the block keeps the window canonical: only `emit` writes it. -/
theorem emit_keeps_wf {b : Byte} {s t : State} (h : emit b s = .next t)
    (hw : Memory.wf s.win = true) : Memory.wf t.win = true := by
  obtain ⟨c, -, -, rfl⟩ := emit_next.mp h
  exact Memory.wf_write _ b hw

/-- `end_block` sets the phase, and clears the bit reader before the trailer. -/
theorem endBlock_eq (s : State) :
    endBlock s = { s with phase := .blockHeader } ∧ s.final = false ∨
    endBlock s = { s with phase := .done } ∧ s.final = true ∧ s.wrap = .raw ∨
    endBlock s = { s with acc := 0, nb := 0, phase := .trailer } ∧ s.final = true ∧
      s.wrap = .zlib := by
  unfold endBlock
  cases hf : s.final <;> cases hw : s.wrap <;> simp [hf, hw, align]

/-- The BACK_REFERENCE step: leave the phase, stall, or copy one byte. -/
theorem backReference_next {s t : State} (h : backReference s = .next t) :
    (s.brLen = 0 ∧ t = { s with phase := .symbolLoop }) ∨
    (s.brLen ≠ 0 ∧ room s = 0 ∧ stall s = .next t) ∨
    (s.brLen ≠ 0 ∧ room s ≠ 0 ∧ ∃ b u,
      Memory.read s.win (windowSource s.wp s.brDist.toNat) = some b ∧ emit b s = .next u ∧
      t = { u with brLen := u.brLen - 1 }) := by
  unfold backReference at h
  by_cases h0 : s.brLen = 0
  · rw [if_pos h0] at h
    exact .inl ⟨h0, (Host.Outcome.next.inj h).symm⟩
  · by_cases h1 : room s = 0
    · simp only [h0, h1, if_true, if_false] at h
      exact .inr (.inl ⟨h0, h1, h⟩)
    · simp only [h0, h1, if_false] at h
      split at h
      · cases h
      · next b hb =>
        obtain ⟨u, hu, ht⟩ := andThen_next.mp h
        exact .inr (.inr ⟨h0, h1, b, u, hb, hu, (Host.Outcome.next.inj ht).symm⟩)

/-! ### The shared parts of the meanings -/

theorem commitBlockHeader_next {f : Bool} {s t : State} :
    commitBlockHeader f s = .next t ↔
      3 ≤ s.nb.toNat ∧ t = { s with acc := s.acc >>> 3, nb := s.nb - 3, final := f } := by
  unfold commitBlockHeader
  rw [andThen_next]
  constructor
  · rintro ⟨u, hu, ht⟩
    obtain ⟨h3, rfl⟩ := consume_next.mp hu
    exact ⟨h3, (Host.Outcome.next.inj ht).symm⟩
  · rintro ⟨h3, rfl⟩
    exact ⟨_, consume_of_le h3, rfl⟩

/-- A run of code lengths: refused at the end when a code is not accepted; otherwise committed. -/
theorem applyRun_next {r u : Nat} {val : BitVec 4} {s t : State}
    (h : applyRun r val u s = .next t) :
    (s.dynIdx.toNat + r = lengthTotal s ∧ endChecksOk (runLens r val s) s = false ∧
      raise .malformedHuffmanTable s = .next t) ∨
    (u ≤ s.nb.toNat ∧ s.dynIdx.toNat + r = lengthTotal s ∧
      endChecksOk (runLens r val s) s = true ∧
      t = { s with
        acc := s.acc >>> u, nb := s.nb - BitVec.ofNat 6 u
        lens := runLens r val s, dynIdx := BitVec.ofNat 9 (s.dynIdx.toNat + r)
        codeLL := newCodeLL (runLens r val s) s, codeD := newCodeD (runLens r val s) s
        phase := .symbolLoop }) ∨
    (u ≤ s.nb.toNat ∧ s.dynIdx.toNat + r ≠ lengthTotal s ∧
      t = { s with
        acc := s.acc >>> u, nb := s.nb - BitVec.ofNat 6 u
        lens := runLens r val s, dynIdx := BitVec.ofNat 9 (s.dynIdx.toNat + r) }) := by
  unfold applyRun at h
  by_cases he : s.dynIdx.toNat + r = lengthTotal s
  · cases hk : endChecksOk (runLens r val s) s with
    | false => exact .inl ⟨he, rfl, by simpa [he, hk] using h⟩
    | true =>
      simp only [he, hk, Bool.true_eq_false, and_false, if_false, if_true] at h
      obtain ⟨w, hw, ht⟩ := andThen_next.mp h
      obtain ⟨hu, rfl⟩ := consume_next.mp hw
      exact .inr (.inl ⟨hu, he, rfl, by rw [he]; exact (Host.Outcome.next.inj ht).symm⟩)
  · simp only [he, false_and, if_false] at h
    obtain ⟨w, hw, ht⟩ := andThen_next.mp h
    obtain ⟨hu, rfl⟩ := consume_next.mp hw
    exact .inr (.inr ⟨hu, he, (Host.Outcome.next.inj ht).symm⟩)

/-- A repeat: refused when it runs past the total; otherwise a run. -/
theorem applyRepeat_next {r u : Nat} {val : BitVec 4} {s t : State}
    (h : applyRepeat r val u s = .next t) :
    (lengthTotal s < s.dynIdx.toNat + r ∧ raise .malformedHuffmanTable s = .next t) ∨
    (s.dynIdx.toNat + r ≤ lengthTotal s ∧ applyRun r val u s = .next t) := by
  unfold applyRepeat at h
  split at h
  · next hgt => exact .inl ⟨hgt, h⟩
  · next hle => exact .inr ⟨Nat.le_of_not_lt hle, h⟩

/-- A length symbol: only the element in progress changes. -/
theorem lengthPart_next {sym e : Nat} {s t : State} :
    lengthPart sym e s = .next t ↔ ∃ c, s.call = some c ∧
      t = { s with call := some { c with
        pend := some ⟨BitVec.ofNat 9 (lenBase sym + e), llWidth s sym + lenExtra sym⟩ } } := by
  unfold lengthPart
  cases h : s.call <;> simp [eq_comm]

/-- A distance symbol: InvalidDistance, or the commit of the whole element. -/
theorem distancePart_next {sym e : Nat} {s t : State} (h : distancePart sym e s = .next t) :
    ∃ c p, s.call = some c ∧ c.pend = some p ∧
      ((s.hist.toNat < distBase sym + e ∧ raise .invalidDistance s = .next t) ∨
        (distBase sym + e ≤ s.hist.toNat ∧
          p.used + distWidth s sym + distExtra sym ≤ s.nb.toNat ∧
          t = { s with
            acc := s.acc >>> (p.used + distWidth s sym + distExtra sym)
            nb := s.nb - BitVec.ofNat 6 (p.used + distWidth s sym + distExtra sym)
            call := some { c with pend := none }
            brLen := p.length
            brDist := BitVec.ofNat 16 (distBase sym + e)
            phase := .backReference })) := by
  unfold distancePart at h
  split at h
  · cases h
  · next c hc =>
    split at h
    · cases h
    · next p hp =>
      refine ⟨c, p, hc, hp, ?_⟩
      split at h
      · next hgt => exact .inl ⟨hgt, h⟩
      · next hle =>
        obtain ⟨w, hw, ht⟩ := andThen_next.mp h
        obtain ⟨hu, rfl⟩ := consume_next.mp hw
        refine .inr ⟨Nat.le_of_not_lt hle, hu, ?_⟩
        rw [← Host.Outcome.next.inj ht]
        simp [dropPending, hc]

/-! ### What a step can do -/

/-- Inside a call a step runs the element its bits decode to after some FETCHes, ends the call while
it reads, or makes the transfer of its phase. -/
theorem step_of_call {s : State} {c : Call} (h : s.call = some c) :
    step s = match expected c s with
      | some x => (match fetchLoop (decodeElem x) (c.inp.drop c.ip) s with
        | .got i t => exec i t
        | .ended o => o)
      | none => (match transfer c s with
        | .run i t => exec i t
        | .ended o => o) := by
  unfold step fetch
  simp only [h]
  cases expected c s with
  | none => rfl
  | some x =>
    simp only [readElem, probe_of_call h]
    cases fetchLoop (decodeElem x) (c.inp.drop c.ip) s <;> rfl

end Sys2Proof.Machine
end

