-- ==== Sys2Proof/Laws/PerInstr.lean ====
section
/-! SUPPORT. Statements made of every instruction, one constructor at a time: its encoding. -/

namespace Sys2Proof.Laws.Encoding

open Sys2Proof Sys2Proof.Machine

/-- The encoding of an instruction: it is a command or an element and never both, the bit
of its command word that is reserved is 0, and its symbol (of the literal/length, distance or
code-length alphabet) with its extra value stands for it alone. -/
def Statement (i : Instr) : Prop :=
  (encodeCommand i).isSome = i.isCommand ∧
  (∀ t, encodeCommand i = some t → t.word.getLsbD 7 = false) ∧
  (∀ s e, litLenSym i = some (s, e) → litLenInstr s e = some i ∧ e < 2 ^ lenExtra s) ∧
  (∀ s e, distSym i = some (s, e) → distInstr s e = some i ∧ e < 2 ^ distExtra s) ∧
  (∀ s e, clsymSym i = some (s, e) → clsymInstr s e = some i ∧ e < 2 ^ clExtra s)

/-- An element of no symbol alphabet. -/
theorem of_plain {i : Instr} (h0 : encodeCommand i = none) (h1 : i.isCommand = false)
    (h2 : litLenSym i = none) (h3 : distSym i = none) (h4 : clsymSym i = none) : Statement i := by
  refine ⟨by rw [h0, h1]; rfl, ?_, ?_, ?_, ?_⟩ <;> intros <;> simp_all

/-- An element of the literal/length alphabet. -/
theorem of_litLen {i : Instr} {s e : Nat} (h0 : encodeCommand i = none) (h1 : i.isCommand = false)
    (h2 : litLenSym i = some (s, e)) (h3 : distSym i = none) (h4 : clsymSym i = none)
    (h5 : litLenInstr s e = some i) (h6 : e < 2 ^ lenExtra s) : Statement i := by
  refine ⟨by rw [h0, h1]; rfl, ?_, ?_, ?_, ?_⟩ <;> intros <;> simp_all

/-- An element of the distance alphabet. -/
theorem of_dist {i : Instr} {s e : Nat} (h0 : encodeCommand i = none) (h1 : i.isCommand = false)
    (h2 : litLenSym i = none) (h3 : distSym i = some (s, e)) (h4 : clsymSym i = none)
    (h5 : distInstr s e = some i) (h6 : e < 2 ^ distExtra s) : Statement i := by
  refine ⟨by rw [h0, h1]; rfl, ?_, ?_, ?_, ?_⟩ <;> intros <;> simp_all

/-- An element of the code-length alphabet. -/
theorem of_clsym {i : Instr} {s e : Nat} (h0 : encodeCommand i = none) (h1 : i.isCommand = false)
    (h2 : litLenSym i = none) (h3 : distSym i = none) (h4 : clsymSym i = some (s, e))
    (h5 : clsymInstr s e = some i) (h6 : e < 2 ^ clExtra s) : Statement i := by
  refine ⟨by rw [h0, h1]; rfl, ?_, ?_, ?_, ?_⟩ <;> intros <;> simp_all

/-- A command. -/
theorem of_command {i : Instr} {t : Transaction} (h0 : encodeCommand i = some t)
    (h1 : i.isCommand = true) (h2 : litLenSym i = none) (h3 : distSym i = none)
    (h4 : clsymSym i = none) (h5 : t.word.getLsbD 7 = false) : Statement i := by
  refine ⟨by rw [h0, h1]; rfl, ?_, ?_, ?_, ?_⟩ <;> intros <;> simp_all

theorem reset (cfg : Cfg) (wrap : Wrap) : Statement (.reset cfg wrap) := by
  cases cfg <;> cases wrap <;> exact of_command rfl rfl rfl rfl rfl (by decide)

theorem advance (inp out : List Byte) (off : Nat) (eoi : Bool) : Statement (.advance inp out off eoi) := by
  cases eoi <;> exact of_command rfl rfl rfl rfl rfl (by simp)

theorem isDone : Statement .isDone := of_command rfl rfl rfl rfl rfl (by decide)

theorem ignoreChecksum : Statement .ignoreChecksum := of_command rfl rfl rfl rfl rfl (by decide)

theorem checksum : Statement .checksum := of_command rfl rfl rfl rfl rfl (by decide)

theorem zhdr (cmf flg : Byte) : Statement (.zhdr cmf flg) := of_plain rfl rfl rfl rfl rfl

theorem blkStored (bfinal : Bool) : Statement (.blkStored bfinal) := of_plain rfl rfl rfl rfl rfl

theorem blkFixed (bfinal : Bool) : Statement (.blkFixed bfinal) := of_plain rfl rfl rfl rfl rfl

theorem blkDynamic (bfinal : Bool) : Statement (.blkDynamic bfinal) := of_plain rfl rfl rfl rfl rfl

theorem blkReserved (bfinal : Bool) : Statement (.blkReserved bfinal) :=
  of_plain rfl rfl rfl rfl rfl

theorem slen (len nlen : BitVec 16) : Statement (.slen len nlen) := of_plain rfl rfl rfl rfl rfl

theorem sdata (b : Byte) : Statement (.sdata b) := of_plain rfl rfl rfl rfl rfl

theorem dhdr (hlit hdist : BitVec 5) (hclen : BitVec 4) : Statement (.dhdr hlit hdist hclen) :=
  of_plain rfl rfl rfl rfl rfl

theorem cll (len : BitVec 3) : Statement (.cll len) := of_plain rfl rfl rfl rfl rfl

theorem clsymLen (sym : BitVec 4) : Statement (.clsymLen sym) := by
  have h : clsymInstr sym.toNat 0 = some (.clsymLen sym) := by revert sym; decide
  have h6 : (0 : Nat) < 2 ^ clExtra sym.toNat := Nat.two_pow_pos _
  exact of_clsym rfl rfl rfl rfl rfl h h6

theorem clsym16 (extra : BitVec 2) : Statement (.clsym16 extra) :=
  of_clsym rfl rfl rfl rfl rfl (by simp [clsymInstr]) extra.isLt

theorem clsym17 (extra : BitVec 3) : Statement (.clsym17 extra) :=
  of_clsym rfl rfl rfl rfl rfl (by simp [clsymInstr]) extra.isLt

theorem clsym18 (extra : BitVec 7) : Statement (.clsym18 extra) :=
  of_clsym rfl rfl rfl rfl rfl (by simp [clsymInstr]) extra.isLt

theorem lit (b : Byte) : Statement (.lit b) := by
  have h : litLenInstr b.toNat 0 = some (.lit b) := by revert b; decide
  have h6 : (0 : Nat) < 2 ^ lenExtra b.toNat := Nat.two_pow_pos _
  exact of_litLen rfl rfl rfl rfl rfl h h6

theorem eob : Statement .eob := of_litLen rfl rfl rfl rfl rfl rfl (by decide)

theorem len257 : Statement .len257 := of_litLen rfl rfl rfl rfl rfl rfl (by decide)

theorem len258 : Statement .len258 := of_litLen rfl rfl rfl rfl rfl rfl (by decide)

theorem len259 : Statement .len259 := of_litLen rfl rfl rfl rfl rfl rfl (by decide)

theorem len260 : Statement .len260 := of_litLen rfl rfl rfl rfl rfl rfl (by decide)

theorem len261 : Statement .len261 := of_litLen rfl rfl rfl rfl rfl rfl (by decide)

theorem len262 : Statement .len262 := of_litLen rfl rfl rfl rfl rfl rfl (by decide)

theorem len263 : Statement .len263 := of_litLen rfl rfl rfl rfl rfl rfl (by decide)

theorem len264 : Statement .len264 := of_litLen rfl rfl rfl rfl rfl rfl (by decide)

theorem len265 (extra : BitVec 1) : Statement (.len265 extra) :=
  of_litLen rfl rfl rfl rfl rfl (by simp [litLenInstr]) extra.isLt

theorem len266 (extra : BitVec 1) : Statement (.len266 extra) :=
  of_litLen rfl rfl rfl rfl rfl (by simp [litLenInstr]) extra.isLt

theorem len267 (extra : BitVec 1) : Statement (.len267 extra) :=
  of_litLen rfl rfl rfl rfl rfl (by simp [litLenInstr]) extra.isLt

theorem len268 (extra : BitVec 1) : Statement (.len268 extra) :=
  of_litLen rfl rfl rfl rfl rfl (by simp [litLenInstr]) extra.isLt

theorem len269 (extra : BitVec 2) : Statement (.len269 extra) :=
  of_litLen rfl rfl rfl rfl rfl (by simp [litLenInstr]) extra.isLt

theorem len270 (extra : BitVec 2) : Statement (.len270 extra) :=
  of_litLen rfl rfl rfl rfl rfl (by simp [litLenInstr]) extra.isLt

theorem len271 (extra : BitVec 2) : Statement (.len271 extra) :=
  of_litLen rfl rfl rfl rfl rfl (by simp [litLenInstr]) extra.isLt

theorem len272 (extra : BitVec 2) : Statement (.len272 extra) :=
  of_litLen rfl rfl rfl rfl rfl (by simp [litLenInstr]) extra.isLt

theorem len273 (extra : BitVec 3) : Statement (.len273 extra) :=
  of_litLen rfl rfl rfl rfl rfl (by simp [litLenInstr]) extra.isLt

theorem len274 (extra : BitVec 3) : Statement (.len274 extra) :=
  of_litLen rfl rfl rfl rfl rfl (by simp [litLenInstr]) extra.isLt

theorem len275 (extra : BitVec 3) : Statement (.len275 extra) :=
  of_litLen rfl rfl rfl rfl rfl (by simp [litLenInstr]) extra.isLt

theorem len276 (extra : BitVec 3) : Statement (.len276 extra) :=
  of_litLen rfl rfl rfl rfl rfl (by simp [litLenInstr]) extra.isLt

theorem len277 (extra : BitVec 4) : Statement (.len277 extra) :=
  of_litLen rfl rfl rfl rfl rfl (by simp [litLenInstr]) extra.isLt

theorem len278 (extra : BitVec 4) : Statement (.len278 extra) :=
  of_litLen rfl rfl rfl rfl rfl (by simp [litLenInstr]) extra.isLt

theorem len279 (extra : BitVec 4) : Statement (.len279 extra) :=
  of_litLen rfl rfl rfl rfl rfl (by simp [litLenInstr]) extra.isLt

theorem len280 (extra : BitVec 4) : Statement (.len280 extra) :=
  of_litLen rfl rfl rfl rfl rfl (by simp [litLenInstr]) extra.isLt

theorem len281 (extra : BitVec 5) : Statement (.len281 extra) :=
  of_litLen rfl rfl rfl rfl rfl (by simp [litLenInstr]) extra.isLt

theorem len282 (extra : BitVec 5) : Statement (.len282 extra) :=
  of_litLen rfl rfl rfl rfl rfl (by simp [litLenInstr]) extra.isLt

theorem len283 (extra : BitVec 5) : Statement (.len283 extra) :=
  of_litLen rfl rfl rfl rfl rfl (by simp [litLenInstr]) extra.isLt

theorem len284 (extra : BitVec 5) : Statement (.len284 extra) :=
  of_litLen rfl rfl rfl rfl rfl (by simp [litLenInstr]) extra.isLt

theorem len285 : Statement .len285 := of_litLen rfl rfl rfl rfl rfl rfl (by decide)

theorem llInvalid286 : Statement .llInvalid286 := of_litLen rfl rfl rfl rfl rfl rfl (by decide)

theorem llInvalid287 : Statement .llInvalid287 := of_litLen rfl rfl rfl rfl rfl rfl (by decide)

theorem dist0 : Statement .dist0 := of_dist rfl rfl rfl rfl rfl rfl (by decide)

theorem dist1 : Statement .dist1 := of_dist rfl rfl rfl rfl rfl rfl (by decide)

theorem dist2 : Statement .dist2 := of_dist rfl rfl rfl rfl rfl rfl (by decide)

theorem dist3 : Statement .dist3 := of_dist rfl rfl rfl rfl rfl rfl (by decide)

theorem dist4 (extra : BitVec 1) : Statement (.dist4 extra) :=
  of_dist rfl rfl rfl rfl rfl (by simp [distInstr]) extra.isLt

theorem dist5 (extra : BitVec 1) : Statement (.dist5 extra) :=
  of_dist rfl rfl rfl rfl rfl (by simp [distInstr]) extra.isLt

theorem dist6 (extra : BitVec 2) : Statement (.dist6 extra) :=
  of_dist rfl rfl rfl rfl rfl (by simp [distInstr]) extra.isLt

theorem dist7 (extra : BitVec 2) : Statement (.dist7 extra) :=
  of_dist rfl rfl rfl rfl rfl (by simp [distInstr]) extra.isLt

theorem dist8 (extra : BitVec 3) : Statement (.dist8 extra) :=
  of_dist rfl rfl rfl rfl rfl (by simp [distInstr]) extra.isLt

theorem dist9 (extra : BitVec 3) : Statement (.dist9 extra) :=
  of_dist rfl rfl rfl rfl rfl (by simp [distInstr]) extra.isLt

theorem dist10 (extra : BitVec 4) : Statement (.dist10 extra) :=
  of_dist rfl rfl rfl rfl rfl (by simp [distInstr]) extra.isLt

theorem dist11 (extra : BitVec 4) : Statement (.dist11 extra) :=
  of_dist rfl rfl rfl rfl rfl (by simp [distInstr]) extra.isLt

theorem dist12 (extra : BitVec 5) : Statement (.dist12 extra) :=
  of_dist rfl rfl rfl rfl rfl (by simp [distInstr]) extra.isLt

theorem dist13 (extra : BitVec 5) : Statement (.dist13 extra) :=
  of_dist rfl rfl rfl rfl rfl (by simp [distInstr]) extra.isLt

theorem dist14 (extra : BitVec 6) : Statement (.dist14 extra) :=
  of_dist rfl rfl rfl rfl rfl (by simp [distInstr]) extra.isLt

theorem dist15 (extra : BitVec 6) : Statement (.dist15 extra) :=
  of_dist rfl rfl rfl rfl rfl (by simp [distInstr]) extra.isLt

theorem dist16 (extra : BitVec 7) : Statement (.dist16 extra) :=
  of_dist rfl rfl rfl rfl rfl (by simp [distInstr]) extra.isLt

theorem dist17 (extra : BitVec 7) : Statement (.dist17 extra) :=
  of_dist rfl rfl rfl rfl rfl (by simp [distInstr]) extra.isLt

theorem dist18 (extra : BitVec 8) : Statement (.dist18 extra) :=
  of_dist rfl rfl rfl rfl rfl (by simp [distInstr]) extra.isLt

theorem dist19 (extra : BitVec 8) : Statement (.dist19 extra) :=
  of_dist rfl rfl rfl rfl rfl (by simp [distInstr]) extra.isLt

theorem dist20 (extra : BitVec 9) : Statement (.dist20 extra) :=
  of_dist rfl rfl rfl rfl rfl (by simp [distInstr]) extra.isLt

theorem dist21 (extra : BitVec 9) : Statement (.dist21 extra) :=
  of_dist rfl rfl rfl rfl rfl (by simp [distInstr]) extra.isLt

theorem dist22 (extra : BitVec 10) : Statement (.dist22 extra) :=
  of_dist rfl rfl rfl rfl rfl (by simp [distInstr]) extra.isLt

theorem dist23 (extra : BitVec 10) : Statement (.dist23 extra) :=
  of_dist rfl rfl rfl rfl rfl (by simp [distInstr]) extra.isLt

theorem dist24 (extra : BitVec 11) : Statement (.dist24 extra) :=
  of_dist rfl rfl rfl rfl rfl (by simp [distInstr]) extra.isLt

theorem dist25 (extra : BitVec 11) : Statement (.dist25 extra) :=
  of_dist rfl rfl rfl rfl rfl (by simp [distInstr]) extra.isLt

theorem dist26 (extra : BitVec 12) : Statement (.dist26 extra) :=
  of_dist rfl rfl rfl rfl rfl (by simp [distInstr]) extra.isLt

theorem dist27 (extra : BitVec 12) : Statement (.dist27 extra) :=
  of_dist rfl rfl rfl rfl rfl (by simp [distInstr]) extra.isLt

theorem dist28 (extra : BitVec 13) : Statement (.dist28 extra) :=
  of_dist rfl rfl rfl rfl rfl (by simp [distInstr]) extra.isLt

theorem dist29 (extra : BitVec 13) : Statement (.dist29 extra) :=
  of_dist rfl rfl rfl rfl rfl (by simp [distInstr]) extra.isLt

theorem distInvalid30 : Statement .distInvalid30 := of_dist rfl rfl rfl rfl rfl rfl (by decide)

theorem distInvalid31 : Statement .distInvalid31 := of_dist rfl rfl rfl rfl rfl rfl (by decide)

theorem trailer (b0 b1 b2 b3 : Byte) : Statement (.trailer b0 b1 b2 b3) :=
  of_plain rfl rfl rfl rfl rfl

end Sys2Proof.Laws.Encoding
end

