-- ==== Sys2Proof/Tests/Slice0.lean ====
section
/-! SUPPORT. The model's own tests: what WellFormed refuses, words written out bit by bit from the
spec's encodings, the spec's worked examples one step at a time, and for every obligation with
hypotheses a concrete state and operands that meet them. -/

set_option Elab.async false

namespace Sys2Proof.Tests

open Sys2Proof Sys2Proof.Machine

/-! ### WellFormed -/

/-- R11: an input slice longer than BUF_MAX is refused. -/
theorem test_wf_refuses_long_input :
    WellFormed (.advance (List.replicate (Config.bufMax + 1) 0) [] 0 false) = false := by
  simp [WellFormed, bufferFits]

/-- R11: an output buffer longer than BUF_MAX is refused. -/
theorem test_wf_refuses_long_output :
    WellFormed (.advance [] (List.replicate (Config.bufMax + 1) 0) 0 false) = false := by
  simp [WellFormed, bufferFits]

/-- R11: buffers of BUF_MAX bytes are accepted. -/
theorem test_wf_accepts_bufMax :
    WellFormed (.advance (List.replicate Config.bufMax 0) (List.replicate Config.bufMax 0) 0 true) =
      true := by
  simp [WellFormed, bufferFits]

/-- R11: the port does not carry a transaction with a longer buffer. -/
theorem test_port_refuses_long_input :
    Transaction.fits ⟨1, List.replicate (Config.bufMax + 1) 0, [], 0⟩ = false := by
  simp [Transaction.fits, bufferFits]

/-! ### Decoding, from words written out bit by bit -/

/-- Stream bits, the first one least significant (R54, R72). -/
def stream (bits : List Nat) : Nat := bits.foldr (fun b v => b + 2 * v) 0

/-- R83: the command words. -/
theorem test_decode_commands :
    decodeCommand ⟨0b00000000, [], [], 0⟩ = some (.reset .fast .raw) ∧
    decodeCommand ⟨0b00110000, [], [], 0⟩ = some (.reset .small .zlib) ∧
    decodeCommand ⟨0b00000001, [7], [8, 9], 1⟩ = some (.advance [7] [8, 9] 1 false) ∧
    decodeCommand ⟨0b01000001, [7], [8, 9], 1⟩ = some (.advance [7] [8, 9] 1 true) ∧
    decodeCommand ⟨0b00000010, [], [], 0⟩ = some .isDone ∧
    decodeCommand ⟨0b00000011, [], [], 0⟩ = some .ignoreChecksum ∧
    decodeCommand ⟨0b00000100, [], [], 0⟩ = some .checksum := by decide

/-- R83, R84: OPC 5, and a set bit that must be 0, are refused. -/
theorem test_decode_refuses_commands :
    decodeCommand ⟨0b00000101, [], [], 0⟩ = none ∧ decodeCommand ⟨0b10000000, [], [], 0⟩ = none ∧
    decodeCommand ⟨0b01000000, [], [], 0⟩ = none ∧ decodeCommand ⟨0b00010001, [], [], 0⟩ = none ∧
    decodeCommand ⟨0b00100010, [], [], 0⟩ = none := by decide

/-- R73: `78 9C`: CM 8, CINFO 7, FCHECK 28, FDICT 0, FLEVEL 2. -/
theorem test_decode_zhdr :
    decodeElem .zh (stream [0, 0, 0, 1, 1, 1, 1, 0, 0, 0, 1, 1, 1, 0, 0, 1]) 16 =
      .got (.zhdr 0x78 0x9C) := by decide

/-- R74, R75: BFINAL, then the two bits of BTYPE. -/
theorem test_decode_blocks :
    decodeElem .bh (stream [1, 0, 0]) 3 = .got (.blkStored true) ∧
    decodeElem .bh (stream [0, 1, 0]) 3 = .got (.blkFixed false) ∧
    decodeElem .bh (stream [1, 0, 1]) 3 = .got (.blkDynamic true) ∧
    decodeElem .bh (stream [0, 1, 1]) 3 = .got (.blkReserved false) := by decide

/-- R76: LEN 2 and its complement, 16 bits each, low bit first. -/
theorem test_decode_slen :
    decodeElem .sl (stream ([0, 1] ++ List.replicate 14 0 ++ [1, 0] ++ List.replicate 14 1)) 32 =
      .got (.slen 2 0xFFFD) := by decide

/-- R71: a stored byte. -/
theorem test_decode_sdata :
    decodeElem .sd (stream [0, 0, 0, 1, 0, 1, 1, 0]) 8 = .got (.sdata 0x68) := by decide

/-- R77: HLIT 2, HDIST 0, HCLEN 14. -/
theorem test_decode_dhdr :
    decodeElem .dh (stream [0, 1, 0, 0, 0, 0, 0, 0, 0, 0, 0, 1, 1, 1]) 14 =
      .got (.dhdr 2 0 14) := by decide

/-- R78: a length of 6. -/
theorem test_decode_cll : decodeElem .cll (stream [0, 1, 1]) 3 = .got (.cll 6) := by decide

/-- The code-length code of program P3: 0 = `00`, 1 = `01`, 2 = `10`, 18 = `11`. -/
def clCodeP3 : Lengths := [2, 2, 2, 0, 0, 0, 0, 0, 0, 0, 0, 0, 0, 0, 0, 0, 0, 0, 2]

/-- A code-length code with 16 = `0` and 17 = `1`. -/
def clCode16 : Lengths := [0, 0, 0, 0, 0, 0, 0, 0, 0, 0, 0, 0, 0, 0, 0, 0, 1, 1, 0]

/-- R79, R121: code-length symbols, the code word first, then the extra bits low bit first. -/
theorem test_decode_clsym :
    decodeElem (.cls clCodeP3 true) (stream [1, 0]) 2 = .got (.clsymLen 2) ∧
    decodeElem (.cls clCodeP3 true) (stream [1, 1, 0, 1, 1, 0, 1, 0, 1]) 9 = .got (.clsym18 86) ∧
    decodeElem (.cls clCode16 false) (stream [0, 0, 1]) 3 = .got (.clsym16 2) ∧
    decodeElem (.cls clCode16 true) (stream [1, 1, 1, 1]) 4 = .got (.clsym17 7) := by decide +kernel

/-- R158: as the first length, symbol 16 is read without its extra bits. -/
theorem test_decode_first_repeat :
    decodeElem (.cls clCode16 true) (stream [0]) 1 = .got (.clsym16 0) := by decide +kernel

/-- R82: `01 3B 00 D2`. -/
theorem test_decode_trailer :
    decodeElem .tr (0x01 + 0x3B * 2 ^ 8 + 0x00 * 2 ^ 16 + 0xD2 * 2 ^ 24) 32 =
      .got (.trailer 0x01 0x3B 0x00 0xD2) := by decide

/-- R134: the literals at the edges of the fixed code's length groups. -/
theorem test_decode_lit :
    decodeElem (.ll (lengthsOf fixedLL)) (stream [0, 0, 1, 1, 0, 0, 0, 0]) 8 = .got (.lit 0) ∧
    decodeElem (.ll (lengthsOf fixedLL)) (stream [1, 0, 1, 1, 1, 1, 1, 1]) 8 = .got (.lit 143) ∧
    decodeElem (.ll (lengthsOf fixedLL)) (stream [1, 1, 0, 0, 1, 0, 0, 0, 0]) 9 = .got (.lit 144) ∧
    decodeElem (.ll (lengthsOf fixedLL)) (stream [1, 1, 1, 1, 1, 1, 1, 1, 1]) 9 =
      .got (.lit 255) := by decide +kernel

/-- Every row decodes, in format `c`, to the instruction beside its stream bits. -/
def allDecode (c : ElemCtx) (rows : List (List Nat × Instr)) : Bool :=
  rows.all fun r => decide (decodeElem c (stream r.1) r.1.length = .got r.2)

/-- R134, R193: symbols 256 to 263: the fixed code word of the opcode table, then the extra field. -/
theorem test_decode_ll_256_to_263 : (allDecode (.ll (lengthsOf fixedLL))) [
    ([0, 0, 0, 0, 0, 0, 0], .eob),
    ([0, 0, 0, 0, 0, 0, 1], .len257),
    ([0, 0, 0, 0, 0, 1, 0], .len258),
    ([0, 0, 0, 0, 0, 1, 1], .len259),
    ([0, 0, 0, 0, 1, 0, 0], .len260),
    ([0, 0, 0, 0, 1, 0, 1], .len261),
    ([0, 0, 0, 0, 1, 1, 0], .len262),
    ([0, 0, 0, 0, 1, 1, 1], .len263)] = true := by decide +kernel

/-- R134, R193: symbols 264 to 271: the fixed code word of the opcode table, then the extra field. -/
theorem test_decode_ll_264_to_271 : (allDecode (.ll (lengthsOf fixedLL))) [
    ([0, 0, 0, 1, 0, 0, 0], .len264),
    ([0, 0, 0, 1, 0, 0, 1, 1], .len265 1),
    ([0, 0, 0, 1, 0, 1, 0, 1], .len266 1),
    ([0, 0, 0, 1, 0, 1, 1, 1], .len267 1),
    ([0, 0, 0, 1, 1, 0, 0, 1], .len268 1),
    ([0, 0, 0, 1, 1, 0, 1, 1, 1], .len269 3),
    ([0, 0, 0, 1, 1, 1, 0, 1, 1], .len270 3),
    ([0, 0, 0, 1, 1, 1, 1, 1, 1], .len271 3)] = true := by decide +kernel

/-- R134, R193: symbols 272 to 279: the fixed code word of the opcode table, then the extra field. -/
theorem test_decode_ll_272_to_279 : (allDecode (.ll (lengthsOf fixedLL))) [
    ([0, 0, 1, 0, 0, 0, 0, 1, 1], .len272 3),
    ([0, 0, 1, 0, 0, 0, 1, 1, 1, 1], .len273 7),
    ([0, 0, 1, 0, 0, 1, 0, 1, 1, 1], .len274 7),
    ([0, 0, 1, 0, 0, 1, 1, 1, 1, 1], .len275 7),
    ([0, 0, 1, 0, 1, 0, 0, 1, 1, 1], .len276 7),
    ([0, 0, 1, 0, 1, 0, 1, 1, 1, 1, 1], .len277 15),
    ([0, 0, 1, 0, 1, 1, 0, 1, 1, 1, 1], .len278 15),
    ([0, 0, 1, 0, 1, 1, 1, 1, 1, 1, 1], .len279 15)] = true := by decide +kernel

/-- R134, R193: symbols 280 to 287: the fixed code word of the opcode table, then the extra field. -/
theorem test_decode_ll_280_to_287 : (allDecode (.ll (lengthsOf fixedLL))) [
    ([1, 1, 0, 0, 0, 0, 0, 0, 1, 1, 1, 1], .len280 15),
    ([1, 1, 0, 0, 0, 0, 0, 1, 1, 1, 1, 1, 1], .len281 31),
    ([1, 1, 0, 0, 0, 0, 1, 0, 1, 1, 1, 1, 1], .len282 31),
    ([1, 1, 0, 0, 0, 0, 1, 1, 1, 1, 1, 1, 1], .len283 31),
    ([1, 1, 0, 0, 0, 1, 0, 0, 0, 1, 1, 1, 1], .len284 30),
    ([1, 1, 0, 0, 0, 1, 0, 1], .len285),
    ([1, 1, 0, 0, 0, 1, 1, 0], .llInvalid286),
    ([1, 1, 0, 0, 0, 1, 1, 1], .llInvalid287)] = true := by decide +kernel

/-- R135, R194: distance symbols 0 to 7: the fixed code word, then the extra field. -/
theorem test_decode_dist_0_to_7 : (allDecode (.dist (lengthsOf fixedD) 0)) [
    ([0, 0, 0, 0, 0], .dist0),
    ([0, 0, 0, 0, 1], .dist1),
    ([0, 0, 0, 1, 0], .dist2),
    ([0, 0, 0, 1, 1], .dist3),
    ([0, 0, 1, 0, 0, 1], .dist4 1),
    ([0, 0, 1, 0, 1, 1], .dist5 1),
    ([0, 0, 1, 1, 0, 1, 1], .dist6 3),
    ([0, 0, 1, 1, 1, 1, 1], .dist7 3)] = true := by decide +kernel

/-- R135, R194: distance symbols 8 to 15: the fixed code word, then the extra field. -/
theorem test_decode_dist_8_to_15 : (allDecode (.dist (lengthsOf fixedD) 0)) [
    ([0, 1, 0, 0, 0, 1, 1, 1], .dist8 7),
    ([0, 1, 0, 0, 1, 1, 1, 1], .dist9 7),
    ([0, 1, 0, 1, 0, 1, 1, 1, 1], .dist10 15),
    ([0, 1, 0, 1, 1, 1, 1, 1, 1], .dist11 15),
    ([0, 1, 1, 0, 0, 1, 1, 1, 1, 1], .dist12 31),
    ([0, 1, 1, 0, 1, 1, 1, 1, 1, 1], .dist13 31),
    ([0, 1, 1, 1, 0, 1, 1, 1, 1, 1, 1], .dist14 63),
    ([0, 1, 1, 1, 1, 1, 1, 1, 1, 1, 1], .dist15 63)] = true := by decide +kernel

/-- R135, R194: distance symbols 16 to 23: the fixed code word, then the extra field. -/
theorem test_decode_dist_16_to_23 : (allDecode (.dist (lengthsOf fixedD) 0)) [
    ([1, 0, 0, 0, 0, 1, 1, 1, 1, 1, 1, 1], .dist16 127),
    ([1, 0, 0, 0, 1, 1, 1, 1, 1, 1, 1, 1], .dist17 127),
    ([1, 0, 0, 1, 0, 1, 1, 1, 1, 1, 1, 1, 1], .dist18 255),
    ([1, 0, 0, 1, 1, 1, 1, 1, 1, 1, 1, 1, 1], .dist19 255),
    ([1, 0, 1, 0, 0, 1, 1, 1, 1, 1, 1, 1, 1, 1], .dist20 511),
    ([1, 0, 1, 0, 1, 1, 1, 1, 1, 1, 1, 1, 1, 1], .dist21 511),
    ([1, 0, 1, 1, 0, 1, 1, 1, 1, 1, 1, 1, 1, 1, 1], .dist22 1023),
    ([1, 0, 1, 1, 1, 1, 1, 1, 1, 1, 1, 1, 1, 1, 1], .dist23 1023)] = true := by decide +kernel

/-- R135, R194: distance symbols 24 to 31: the fixed code word, then the extra field. -/
theorem test_decode_dist_24_to_31 : (allDecode (.dist (lengthsOf fixedD) 0)) [
    ([1, 1, 0, 0, 0, 1, 1, 1, 1, 1, 1, 1, 1, 1, 1, 1], .dist24 2047),
    ([1, 1, 0, 0, 1, 1, 1, 1, 1, 1, 1, 1, 1, 1, 1, 1], .dist25 2047),
    ([1, 1, 0, 1, 0, 1, 1, 1, 1, 1, 1, 1, 1, 1, 1, 1, 1], .dist26 4095),
    ([1, 1, 0, 1, 1, 1, 1, 1, 1, 1, 1, 1, 1, 1, 1, 1, 1], .dist27 4095),
    ([1, 1, 1, 0, 0, 1, 1, 1, 1, 1, 1, 1, 1, 1, 1, 1, 1, 1], .dist28 8191),
    ([1, 1, 1, 0, 1, 1, 1, 1, 1, 1, 1, 1, 1, 1, 1, 1, 1, 1], .dist29 8191),
    ([1, 1, 1, 1, 0], .distInvalid30),
    ([1, 1, 1, 1, 1], .distInvalid31)] = true := by decide +kernel
/-! ### States for the tests -/

/-- Whether an outcome is a next state with a property. -/
def nextHas (p : State → Bool) : Outcome → Bool
  | .next t => p t
  | _ => false

/-- Whether an outcome is this fault. -/
def faults (o : Outcome) (r : Fault) : Bool :=
  match o with
  | .fault q => decide (q = r)
  | _ => false

/-- The fixed codes, in a phase, with bits pending and no call (`WRAP = ZLIB`). -/
def stAt (p : Phase) (acc : BitVec 64) (nb : BitVec 6) : State :=
  { State.resetTo .fast .zlib with
    phase := p, acc := acc, nb := nb, codeLL := fixedLL, codeD := fixedD, stRem := 2, hlit := 259
    hdist := 1, hclen := 18 }

/-- A call on `inp` and `out` with `off = 0` and `eoi = 1`. -/
def aCall (inp out : List Byte) : Call := ⟨inp, out, 0, true, 0, 0, none⟩

/-- `stAt` with a call in progress. -/
def stCall (p : Phase) (acc : BitVec 64) (nb : BitVec 6) (inp out : List Byte) : State :=
  { stAt p acc nb with call := some (aCall inp out) }

/-- The code lengths of P3 being read: `dyn_idx` of them known, all 0. -/
def stDyn (dynIdx : BitVec 9) (nb : BitVec 6) : State :=
  { stCall .dynLens 0 nb [] [] with
    dynIdx := dynIdx
    clLen := ((((Vector.replicate 19 0).set 0 2).set 1 2).set 2 2).set 18 2 }

/-- A length symbol of length 3 and 7 bits in progress, with `hist` bytes emitted. -/
def stPend (nb : BitVec 6) (hist : BitVec 17) : State :=
  { stAt .symbolLoop 0 nb with
    hist := hist
    call := some { aCall [] [] with pend := some ⟨3, 7⟩ } }

/-- `MATCH 3, 1` after `a`, with three bytes of room. -/
def stCopy : State :=
  { stCall .backReference 0 0 [] [0, 0, 0] with
    win := [(0, 0x61)], wp := 1, hist := 1, brLen := 3, brDist := 1 }

/-! ### The host's view of the opcode table -/

/-- Rows of the opcode table are read as the instruction they stand for. -/
theorem test_table_words :
    decodeTableWord 8 0x00 = some (.reset .fast .raw) ∧
    decodeTableWord 8 0x05 = some (.blkDynamic true) ∧
    decodeTableWord 16 97 = some (.lit 97) ∧
    decodeTableWord 16 284 = some (.len284 0) ∧
    decodeTableWord 8 29 = some (.dist29 0) := by decide +kernel

/-- A word of the opcode table runs as the first instruction after reset. -/
theorem test_table_word_runs :
    nextHas (fun t => decide (t.call = none ∧ t.resps = [.isDone false]))
      (step (State.reset.withFetchWord 8 2)) = true := by decide +kernel

/-! ### Huffman codes (95_test_vectors.md, 2.2) -/

/-- Code H1: symbols A to H. -/
def codeH1 : Lengths := [3, 3, 3, 3, 3, 2, 4, 4]

/-- R120: the code words of H1. -/
theorem test_code_words : (codeWords codeH1).map (fun w => (w.len, w.code)) =
    [(3, 0b010), (3, 0b011), (3, 0b100), (3, 0b101), (3, 0b110), (2, 0b00), (4, 0b1110),
      (4, 0b1111)] := by decide

/-- V-HUF-1 to V-HUF-6. -/
theorem test_decode_h1 :
    decodeSym codeH1 0b0111 3 = .needMore ∧ decodeSym codeH1 0b0111 4 = .sym 6 4 ∧
    decodeSym codeH1 0b1111 4 = .sym 7 4 ∧ decodeSym codeH1 0b00 2 = .sym 5 2 ∧
    decodeSym codeH1 0b0 1 = .needMore ∧ decodeSym codeH1 0 0 = .needMore := by decide

/-- R126: the primary table of H1 for P = 3. -/
theorem test_primary_table : primaryTable codeH1 3 =
    [.direct 5 2, .direct 2 3, .direct 0 3, .direct 4 3, .direct 5 2, .direct 3 3, .direct 1 3,
      .sub] := by decide

/-- R130, R132: the lookup of `0111` goes by SUB to the fallback. -/
theorem test_lookup_fallback : lookup codeH1 3 0b0111 4 = .sym 6 4 ∧
    fallback codeH1 0b0111 4 = .sym 6 4 := by decide

/-- R128: DIRECT(97, 8). -/
theorem test_entry_format : (Entry.direct 97 8).toBits = 0x2618 := by decide

/-- V-HUF-15 to V-HUF-19: the degenerate distance codes. -/
theorem test_degenerate : decodeSym [1] 0 0 = .needMore ∧ decodeSym [1] 0 1 = .sym 0 1 ∧
    decodeSym [1] 1 1 = .invalid ∧ decodeSym [0, 0] 0 0 = .invalid ∧
    lookup [1] 6 1 1 = .invalid := by decide

/-- V-HUF-23 to V-HUF-28: acceptance. -/
theorem test_accepted : distAccepted [1] = true ∧ distAccepted [0, 0] = true ∧
    distAccepted [2] = false ∧ distAccepted [1, 2] = false ∧ clAccepted [0, 0] = false ∧
    clAccepted [1] = false := by decide

/-! ### The bit reader (95_test_vectors.md, 2.1) -/

/-- V-BR-1: FETCH. -/
theorem test_fetch : (fetchByte 0x0F (stAt .blockHeader 0x16 5)).acc = 0x1F6 ∧
    (fetchByte 0x0F (stAt .blockHeader 0x16 5)).nb = 13 := by decide

/-- V-BR-5: `bits`. -/
theorem test_bits : bitsAt 0xB5 8 0 3 = .got 5 ∧ bitsAt 0xB5 8 3 2 = .got 2 ∧
    bitsAt 0xB5 8 3 6 = .needMore := by decide

/-- V-BR-6: `hdecode`. -/
theorem test_hdecode : hdecodeAt (lengthsOf fixedLL) 0x89 8 0 = .got (97, 8) := by decide +kernel

/-- V-BR-7: `consume`. -/
theorem test_consume : nextHas (fun t => decide (t.acc = 0x16 ∧ t.nb = 5))
    (consume 3 (stAt .blockHeader 0xB5 8)) = true := by decide

/-- U5: consuming more bits than are pending is a fault. -/
theorem test_consume_beyond :
    faults (consume 6 (stAt .blockHeader 0x16 5)) .consumeBeyond = true := by decide

/-! ### One step of each family, from the spec's examples -/

/-- R260: `RESET FAST, ZLIB`. -/
theorem test_reset : nextHas (fun t => decide (t.phase = .zlibHeader ∧ t.ck = 1 ∧ t.nb = 0))
    (exec (.reset .fast .zlib) (stAt .error 0x16 5)) = true := by decide

/-- R262, R266: ADVANCE in ERROR is sticky. -/
theorem test_advance_sticky :
    nextHas (fun t => decide (t.resps = [.advanced 4 0 0 [9]] ∧ t.call = none))
      (exec (.advance [1] [9] 0 true) { State.reset with phase := .error, err := 4 }) = true := by
  decide

/-- R267: an `off` beyond the buffer. -/
theorem test_advance_refused : nextHas (fun t => decide (t.resps = [.refused] ∧ t.call = none))
    (exec (.advance [1] [9] 2 true) State.reset) = true := by decide

/-- R268: IS_DONE. -/
theorem test_isDone : nextHas (fun t => decide (t.resps = [.isDone true]))
    (exec .isDone { State.reset with phase := .done }) = true := by decide

/-- R269, R270: the checksum commands. -/
theorem test_checksum_commands :
    nextHas (fun t => t.ignoreCk) (exec .ignoreChecksum State.reset) = true ∧
    nextHas (fun t => decide (t.resps = [.checksum 1]))
      (exec .checksum (State.resetTo .fast .zlib)) = true := by decide

/-- R243: `78 9C` is accepted. -/
theorem test_zhdr : nextHas (fun t => decide (t.phase = .blockHeader ∧ t.nb = 0))
    (exec (.zhdr 0x78 0x9C) (stAt .zlibHeader 0x9C78 16)) = true := by decide

/-- V-ZL-2 to V-ZL-5: FCHECK, CM, CINFO and FDICT. -/
theorem test_header_bad : headerBad 0x78 0x02 = true ∧ headerBad 0x77 0x09 = true ∧
    headerBad 0x88 0x1C = true ∧ headerBad 0x78 0x20 = true ∧ headerBad 0x78 0xDA = false := by
  decide

/-- R240: the checksums of `a` and `hi`. -/
theorem test_adler : adlerFold 1 0x61 = 0x00620062 ∧
    adlerFold (adlerFold 1 0x68) 0x69 = 0x013B00D2 := by decide

/-- R150: byte `01`: a final stored block, aligned. -/
theorem test_blkStored :
    nextHas (fun t => decide (t.phase = .storedLen ∧ t.nb = 0) && t.final)
      (step (stCall .blockHeader 0 0 [0x01] [0])) = true := by decide +kernel

/-- R150, R151: a fixed block: the 5 bits left stay pending. -/
theorem test_blkFixed :
    nextHas (fun t => decide (t.phase = .symbolLoop ∧ t.acc = 0x09 ∧ t.nb = 5 ∧ t.codeD = fixedD))
      (step (stCall .blockHeader 0 0 [0x4B] [0])) = true := by decide +kernel

/-- R150: a dynamic block, the header straddling two bytes (one bit left of the first). -/
theorem test_blkDynamic :
    nextHas (fun t => decide (t.phase = .dynHeader ∧ t.nb = 6) && t.final)
      (step (stCall .blockHeader 1 1 [0xFE] [0])) = true := by decide +kernel

/-- V-FSM-1: byte `07`. -/
theorem test_blkReserved :
    nextHas (fun t => decide (t.phase = .error ∧ t.resps = [.advanced 1 1 0 [0]]))
      (step (stCall .blockHeader 0 0 [0x07] [0])) = true := by decide +kernel

/-- R152: `02 00 FD FF`. -/
theorem test_slen : nextHas (fun t => decide (t.phase = .storedCopy ∧ t.stRem = 2 ∧ t.nb = 0))
    (step (stCall .storedLen 0 0 [0x02, 0x00, 0xFD, 0xFF] [0])) = true := by decide +kernel

/-- V-FSM-3: `02 00 FD FE`. -/
theorem test_slen_bad : nextHas (fun t => decide (t.resps = [.advanced 3 4 0 [0]] ∧ t.err = 3))
    (step (stCall .storedLen 0 0 [0x02, 0x00, 0xFD, 0xFE] [0])) = true := by decide +kernel

/-- R153: one stored byte. -/
theorem test_sdata : nextHas (fun t => decide (t.win = [(0, 0x68)] ∧ t.wp = 1 ∧ t.stRem = 1))
    (step (stCall .storedCopy 0 0 [0x68, 0x69] [0])) = true := by decide +kernel

/-- R153: with no input, `eoi = 1` and no room, the step raises TruncatedInput. -/
theorem test_sdata_truncated : nextHas (fun t => decide (t.resps = [.advanced 6 0 0 []]))
    (step (stCall .storedCopy 0 0 [] [])) = true := by decide +kernel

/-- R154: hlit 259, hdist 1, hclen 18. -/
theorem test_dhdr :
    nextHas (fun t => decide (t.hlit = 259 ∧ t.hdist = 1 ∧ t.hclen = 18 ∧ t.nb = 2))
      (exec (.dhdr 2 0 14) (stAt .dynHeader 0x3802 16)) = true := by decide

/-- V-FSM-7: the HLIT field 30. -/
theorem test_dhdr_bad : nextHas (fun t => decide (t.err = 2 ∧ t.phase = .error))
    (exec (.dhdr 30 0 0) (stCall .dynHeader 0 0 [] [])) = true := by decide

/-- R78, R155: the first F_CLL is the length of symbol 16. -/
theorem test_cll : nextHas (fun t => decide (t.clLen[16] = 5 ∧ t.clIdx = 1))
    (exec (.cll 5) { stAt .dynClLens 5 3 with hclen := 4 }) = true := by decide +kernel

/-- V-FSM-10: an all-zero code-length code. -/
theorem test_cll_empty : nextHas (fun t => decide (t.err = 2))
    (exec (.cll 0) { stCall .dynClLens 0 3 [] [] with hclen := 4, clIdx := 3 }) = true := by
  decide +kernel

/-- R156, R160: in P3 the first F_CLS, symbol 18 with extra value 86, is a run of 97 zeros. -/
theorem test_clsym18 : nextHas (fun t => decide (t.dynIdx = 97 ∧ t.nb = 1))
    (exec (.clsym18 86) (stDyn 0 10)) = true := by decide +kernel

/-- R157: in P3, symbol 2 at 97 is the length of `a`. -/
theorem test_clsymLen : nextHas (fun t => decide (t.lens[97] = 2 ∧ t.lens[98] = 0 ∧ t.dynIdx = 98))
    (exec (.clsymLen 2) (stDyn 97 2)) = true := by decide +kernel

/-- R158: symbol 16 with extra value 3 after length 1 writes six 1s. -/
theorem test_clsym16 :
    nextHas (fun t => decide (t.lens[5] = 1 ∧ t.lens[10] = 1 ∧ t.lens[11] = 0 ∧ t.dynIdx = 11))
      (exec (.clsym16 3)
        { stDyn 5 4 with lens := (Vector.replicate 316 0).set 4 1 }) = true := by decide +kernel

/-- R159: symbol 17 with extra value 7 writes ten zeros. -/
theorem test_clsym17 : nextHas (fun t => decide (t.dynIdx = 15 ∧ t.lens[14] = 0 ∧ t.lens[15] = 3))
    (exec (.clsym17 7) { stDyn 5 3 with lens := Vector.replicate 316 3 }) = true := by
  decide +kernel

/-- V-FSM-12: symbol 16 as the first length. -/
theorem test_clsym16_first : nextHas (fun t => decide (t.err = 2))
    (exec (.clsym16 0) (stDyn 0 9)) = true := by decide +kernel

/-- R191, R221: the first literal `a`: OUT, W and Adler-32. -/
theorem test_lit :
    nextHas (fun t => decide (t.win = [(0, 0x61)] ∧ t.hist = 1 ∧ t.ck = 0x00620062 ∧ t.nb = 0))
      (step (stCall .symbolLoop 0x89 8 [] [0])) = true := by decide +kernel

/-- R191: with no room the literal stalls with its bits pending. -/
theorem test_lit_stall :
    nextHas (fun t => decide (t.nb = 8 ∧ t.resps = [.advanced 0 0 0 []] ∧ t.phase = .symbolLoop))
      (step (stCall .symbolLoop 0x89 8 [] [])) = true := by decide +kernel

/-- R192: EOB of the final block with `WRAP = ZLIB` leads to the trailer, no room needed. -/
theorem test_eob : nextHas (fun t => decide (t.phase = .trailer ∧ t.nb = 0))
    (step { stCall .symbolLoop 0 8 [] [] with final := true }) = true := by decide +kernel

/-- R195: the fixed code of symbol 257 is read, and nothing is committed. -/
theorem test_len257 :
    nextHas (fun t => decide (t.nb = 8 ∧ (t.call.bind fun c => c.pend) = some ⟨3, 7⟩))
      (step (stCall .symbolLoop 0x40 8 [] [])) = true := by decide +kernel

/-- R193: length 258 is symbol 285. -/
theorem test_len285 :
    nextHas (fun t => decide ((t.call.bind fun c => c.pend) = some ⟨258, 8⟩))
      (exec .len285 (stCall .symbolLoop 0 8 [] [])) = true := by decide +kernel

/-- V-SYM-8, V-SYM-9: symbol 284 with extra value 31 and 30. -/
theorem test_len284 :
    nextHas (fun t => decide (t.err = 4)) (exec (.len284 31) (stCall .symbolLoop 0 13 [] [])) =
      true ∧
    nextHas (fun t => decide ((t.call.bind fun c => c.pend) = some ⟨257, 13⟩))
      (exec (.len284 30) (stCall .symbolLoop 0 13 [] [])) = true := by decide +kernel

/-- V-SYM-13, V-SYM-14: a distance equal to `hist` starts the copy; one more is refused. -/
theorem test_dist :
    nextHas (fun t => decide (t.brLen = 3 ∧ t.brDist = 1 ∧ t.phase = .backReference ∧ t.nb = 0))
      (exec .dist0 (stPend 12 1)) = true ∧
    nextHas (fun t => decide (t.err = 5)) (exec .dist1 (stPend 12 1)) = true := by decide +kernel

/-- V-SYM-4, V-SYM-6: symbol 286 and distance symbol 30. -/
theorem test_invalid :
    nextHas (fun t => decide (t.err = 4)) (exec .llInvalid286 (stCall .symbolLoop 0 8 [] [])) =
      true ∧
    nextHas (fun t => decide (t.err = 4)) (exec .distInvalid30 (stPend 12 1)) = true := by decide

/-- R224: one byte of `br_len = 3`, `br_dist = 1` after `a`. -/
theorem test_backReference :
    nextHas (fun t => decide (t.win = [(0, 0x61), (1, 0x61)] ∧ t.brLen = 2)) (step stCopy) =
      true := by decide +kernel

/-- R225: with no byte left the copy ends, no room needed. -/
theorem test_backReference_end :
    nextHas (fun t => decide (t.phase = .symbolLoop ∧ t.call ≠ none))
      (step { stCopy with brLen := 0 }) = true := by decide +kernel

/-- R245, V-ZL-6: the trailer of `hi`, and a wrong one. -/
theorem test_trailer :
    nextHas (fun t => decide (t.phase = .done))
      (exec (.trailer 0x01 0x3B 0x00 0xD2) { stAt .trailer 0 32 with ck := 0x013B00D2 }) = true ∧
    nextHas (fun t => decide (t.err = 7))
      (exec (.trailer 0 0 0 0) { stCall .trailer 0 32 [] [] with ck := 0x013B00D2 }) = true := by
  decide

/-- R87: `MATCH 250, 5` is `LEN 284, 23` then `DIST 4, 0` (S2). -/
theorem test_match : expandMatch 250 5 = some [.len284 23, .dist4 0] ∧
    expandMatch 258 32768 = some [.len285, .dist29 8191] ∧ expandMatch 2 1 = none := by decide

/-- R87: STORED, REPEAT_PREV and ZEROS. -/
theorem test_pseudo :
    expandStored true [0x68, 0x69] =
      some [.blkStored true, .slen 2 0xFFFD, .sdata 0x68, .sdata 0x69] ∧
    expandRepeatPrev 6 = some (.clsym16 3) ∧ expandZeros 10 = some (.clsym17 7) ∧
    expandZeros 138 = some (.clsym18 127) := by decide

/-! ### Witnesses: a state and operands that meet the hypotheses of each obligation, clause by clause,
at a boundary value of each range. An obligation that is not named here has no hypothesis. -/

theorem exists_next {o : Outcome} {p : State → Bool} (h : nextHas p o = true) :
    ∃ t, o = .next t ∧ p t = true := by
  cases o with
  | next t => exact ⟨t, rfl, h⟩
  | fault r => cases h
  | refused r => cases h

/-- A state of `stCall` meets the invariant when its bits and its phase do. -/
theorem inv_stCall {p : Phase} {acc : BitVec 64} {nb : BitVec 6} {inp out : List Byte}
    (hb : nb.toNat ≤ 55 ∧ acc.toNat < 2 ^ nb.toNat) (hp : p ≠ .error)
    (hph : PhaseOk (stCall p acc nb inp out)) : Inv (stCall p acc nb inp out) where
  bits := hb
  window := ⟨rfl, by simp [stCall, stAt], (by decide : (0#17).toNat ≤ 32768), fun d h1 h2 => by
    have : d ≤ 0 := h2
    omega⟩
  call := by
    intro c hc
    obtain rfl : aCall inp out = c := Option.some.inj hc
    exact ⟨hp, Nat.zero_le _, Nat.zero_le _, by simp [aCall]⟩
  err := ⟨fun h => absurd rfl h, fun h => absurd h hp⟩
  phase := hph

theorem fixed_accepted :
    llAccepted (lengthsOf fixedLL) = true ∧ distAccepted (lengthsOf fixedD) = true := by
  decide +kernel

theorem inv_header : Inv (stCall .blockHeader 0 0 [0x4B] [0]) :=
  inv_stCall (by decide) (by decide) trivial

theorem inv_literal : Inv (stCall .symbolLoop 0x89 8 [] [0]) :=
  inv_stCall (by decide) (by decide) fixed_accepted

theorem inv_stored : Inv (stCall .storedCopy 0 0 [0x68] [0]) :=
  inv_stCall (by decide) (by decide) rfl

theorem inv_empty : Inv (stCall .blockHeader 0 0 [] []) :=
  inv_stCall (by decide) (by decide) trivial

theorem inv_idle : Inv State.reset where
  bits := ⟨by decide, by decide⟩
  window := ⟨rfl, by simp [State.reset, State.resetTo], by decide, fun d h1 h2 => by
    have : d ≤ 0 := h2
    omega⟩
  call := by intro c hc; cases hc
  err := ⟨fun h => absurd rfl h, fun h => by cases h⟩
  phase := trivial

theorem inv_copy : Inv stCopy where
  bits := ⟨by decide, by decide⟩
  window := ⟨by decide, by simp [stCopy, Config.window], by decide, fun d h1 h2 => by
    have h3 : d ≤ 1 := h2
    obtain rfl : d = 1 := by omega
    decide⟩
  call := by
    intro c hc
    obtain rfl : aCall [] [0, 0, 0] = c := Option.some.inj hc
    exact ⟨by decide, Nat.zero_le _, Nat.zero_le _, by simp [aCall]⟩
  err := ⟨fun h => absurd rfl h, fun h => absurd h (by decide)⟩
  phase := ⟨fixed_accepted.1, fixed_accepted.2, by decide, by decide, by decide⟩

/-- FETCH at the largest `nb`; `consume` of every pending bit, of none, and of one too many. -/
theorem witness_FetchAndConsumeMoveTheCursor :
    ((stCall .blockHeader 0 47 [1] []).call = some (aCall [1] []) ∧
      (stCall .blockHeader 0 47 [1] []).nb.toNat ≤ 47 ∧
      (stCall .blockHeader 0 47 [1] []).acc.toNat < 2 ^ (stCall .blockHeader 0 47 [1] []).nb.toNat) ∧
    (stAt .blockHeader 0xB5 8).nb.toNat < 9 ∧
    (8 ≤ (stAt .blockHeader 0xB5 8).nb.toNat ∧ 0 ≤ (stAt .blockHeader 0xB5 8).nb.toNat ∧
      (stAt .blockHeader 0xB5 8).acc.toNat < 2 ^ (stAt .blockHeader 0xB5 8).nb.toNat) := by
  decide +kernel

/-- `need(0)` with 55 bits known; `need(48)` with six bytes, and with five. -/
theorem witness_NeedFetchesTheFewestBytes :
    ((stCall .blockHeader 0 55 [] []).call = some (aCall [] []) ∧ 0 ≤ 48 ∧
      (stCall .blockHeader 0 55 [] []).nb.toNat ≤ 55 ∧
      0 ≤ (stCall .blockHeader 0 55 [] []).nb.toNat) ∧
    ((stCall .blockHeader 0 0 [1, 2, 3, 4, 5, 6] []).call = some (aCall [1, 2, 3, 4, 5, 6] []) ∧
      48 ≤ 48 ∧ 0 ≤ 55 ∧ 6 ≤ (aCall [1, 2, 3, 4, 5, 6] []).inp.length - 0 ∧ 48 ≤ 0 + 8 * 6 ∧
      ∀ j, j < 6 → 0 + 8 * j < 48) ∧
    ((stCall .blockHeader 0 0 [1, 2, 3, 4, 5] []).call = some (aCall [1, 2, 3, 4, 5] []) ∧
      0 + 8 * ((aCall [1, 2, 3, 4, 5] []).inp.length - 0) < 48) := by
  decide +kernel

theorem fits_codeH1 : CodeFits codeH1 := ⟨by decide, by decide⟩

/-- Two words of H1, one of them twice, which is the only way one begins another. -/
theorem witness_CanonicalCodeWordsArePrefixFree : CodeFits codeH1 ∧
    (⟨7, 4, 0b1111⟩ : CodeWord) ∈ codeWords codeH1 ∧ 4 ≤ 4 ∧ 0b1111 >>> (4 - 4) = 0b1111 :=
  ⟨fits_codeH1, by decide, by decide, by decide⟩

/-- H1 at a symbol, at 15 known bits, the empty code, and a complete code. -/
theorem witness_DecodeCornerCases :
    (CodeFits codeH1 ∧ decodeSym codeH1 0b0111 4 = .sym 6 4 ∧ 4 ≤ 4 ∧ 3 < 4) ∧
    (CodeFits codeH1 ∧ 15 ≤ 15) ∧ CodeFits [0, 0] ∧
    ((∀ l ∈ codeH1, l ≤ Config.maxLen) ∧ complete codeH1 = true) :=
  ⟨⟨fits_codeH1, by decide, by decide, by decide⟩, ⟨fits_codeH1, by decide⟩,
    ⟨by decide, by decide⟩, by decide⟩

/-- H1 with P = 3: slot 0 is DIRECT, slot 7, the last, is SUB. -/
theorem witness_PrimaryTableSlots : CodeFits codeH1 ∧ 7 < 2 ^ 3 ∧
    primaryEntry codeH1 3 0 = .direct 5 2 ∧ primaryEntry codeH1 3 7 = .sub :=
  ⟨fits_codeH1, by decide, by decide, by decide⟩

/-- The largest symbol and length. -/
theorem witness_EntryFormatRoundTrip : (287 ≤ 287 ∧ 15 ≤ 15) ∧
    ∀ s len, Entry.direct 287 15 = .direct s len → s ≤ 287 ∧ len ≤ 15 := by
  refine ⟨by decide, fun s len h => ?_⟩
  obtain ⟨rfl, rfl⟩ := Entry.direct.inj h
  decide

theorem witness_FallbackEqualsDecode :
    (∀ l ∈ codeH1, l ≤ Config.maxLen) ∧ complete codeH1 = true := by decide

/-- A complete code and both degenerate ones, at the least and the largest prefix width. -/
theorem witness_LookupEqualsDecode :
    (CodeAccepted codeH1 ∧ 1 ≤ 1 ∧ 15 ≤ 15 ∧ 0b0111 < 2 ^ 4) ∧ (CodeAccepted [1] ∧ 0 < 2 ^ 0) ∧
    CodeAccepted [0, 0] :=
  ⟨⟨⟨by decide, by decide⟩, by decide, by decide, by decide⟩, ⟨⟨by decide, by decide⟩, by decide⟩,
    ⟨by decide, by decide⟩⟩

theorem witness_CommandDecodeInvertsEncode :
    encodeCommand (.reset .small .zlib) = some ⟨0x30, [], [], 0⟩ ∧
    encodeCommand (.advance [1] [2] 3 true) = some ⟨0x41, [1], [2], 3⟩ := by decide

theorem fits_fixed : CodeFits (lengthsOf fixedLL) ∧ CodeFits (lengthsOf fixedD) :=
  ⟨⟨by decide +kernel, by decide +kernel⟩, ⟨by decide +kernel, by decide +kernel⟩⟩

/-- A complete code-length code in which symbol 16 has the code word `11101`. -/
theorem repeat_word : CodeFits (lengthsOf tableClCode) ∧
    (⟨16, 5, 0b11101⟩ : CodeWord) ∈ codeWords (lengthsOf tableClCode) ∧
    field 0b10111 0 5 = rev 5 0b11101 := by
  refine ⟨⟨by decide +kernel, by decide +kernel⟩, by decide +kernel, by decide⟩

/-- The widest distance element, all ones, behind a length part of 20 bits: 38 bits. Symbol 16 as the
first length, with its code word known and no bit more. -/
theorem witness_ElementDecodeInvertsEncode :
    (CtxFits (.dist (lengthsOf fixedD) 20) ∧
    encodeElem (.dist (lengthsOf fixedD) 20) (.dist29 0x1FFF) = some ⟨0b10111 + 0x1FFF * 2 ^ 5, 18⟩ ∧
    firstRepeat (.dist (lengthsOf fixedD) 20) (.dist29 0x1FFF) = false ∧
    field ((0b10111 + 0x1FFF * 2 ^ 5) * 2 ^ 20) 20 18 = 0b10111 + 0x1FFF * 2 ^ 5 ∧ 20 + 18 ≤ 38) ∧
    CodeFits (lengthsOf tableClCode) ∧
    (⟨16, 5, 0b11101⟩ : CodeWord) ∈ codeWords (lengthsOf tableClCode) ∧
    field 0b10111 0 5 = rev 5 0b11101 ∧ 5 ≤ 5 :=
  ⟨⟨fits_fixed.2, by decide +kernel, rfl, by decide, by decide⟩, repeat_word.1, repeat_word.2.1,
    repeat_word.2.2, Nat.le_refl _⟩

/-- The same elements with none of their bits known, and with all but one. -/
theorem witness_PartOfAnElementNeedsMore :
    (CtxFits (.dist (lengthsOf fixedD) 20) ∧
    encodeElem (.dist (lengthsOf fixedD) 20) (.dist29 0x1FFF) = some ⟨0b10111 + 0x1FFF * 2 ^ 5, 18⟩ ∧
    firstRepeat (.dist (lengthsOf fixedD) 20) (.dist29 0x1FFF) = false ∧
    field ((0b10111 + 0x1FFF * 2 ^ 5) * 2 ^ 20) 20 18 = 0b10111 + 0x1FFF * 2 ^ 5 ∧
    (20 ≤ 20 ∧ 20 < 20 + 18) ∧ 37 < 20 + 18) ∧
    CodeFits (lengthsOf tableClCode) ∧
    (⟨16, 5, 0b11101⟩ : CodeWord) ∈ codeWords (lengthsOf tableClCode) ∧
    field 0b10111 0 5 = rev 5 0b11101 ∧ 0 < 5 ∧ 4 < 5 :=
  ⟨⟨fits_fixed.2, by decide +kernel, rfl, by decide, by decide, by decide⟩, repeat_word.1,
    repeat_word.2.1, repeat_word.2.2, by decide, by decide⟩

/-- The least and the largest pair. -/
theorem witness_MatchNotationCoversEveryPair :
    (3 ≤ 3 ∧ 3 ≤ 258 ∧ 1 ≤ 1 ∧ 1 ≤ 32768) ∧ (258 ≤ 258 ∧ 32768 ≤ 32768) := by decide

/-- OPC 15 is refused; an ADVANCE is in progress while a command waits. -/
theorem witness_PortTakesOneCommandAtATime :
    (State.reset.call = none ∧ decodeCommand ⟨15, [], [], 0⟩ = none) ∧
    ∃ t, step { stCall .blockHeader 0 0 [0x4B] [0] with cmds := [⟨2, [], [], 0⟩] } = .next t ∧
      decide (t.cmds = [⟨2, [], [], 0⟩]) = true :=
  ⟨by decide, exists_next (by decide +kernel)⟩

theorem witness_StepRunsTheNextCommand :
    (State.reset.call = none ∧ decodeCommand ⟨2, [], [], 0⟩ = some .isDone) ∧
    (State.reset.call = none ∧ State.reset.cmds = []) := by decide

theorem witness_StepRunsTheDecodedElement :
    (stCall .symbolLoop 0x89 8 [] [0]).call = some (aCall [] [0]) ∧
    expected (aCall [] [0]) (stCall .symbolLoop 0x89 8 [] [0]) = some (.ll (lengthsOf fixedLL)) ∧
    decodeElem (.ll (lengthsOf fixedLL)) 0x89 8 = .got (.lit 97) :=
  ⟨rfl, rfl, by decide +kernel⟩

/-- A want of more bits with a byte left and with none; an empty distance code. -/
theorem witness_StepFetchesOnDemand :
    ((stCall .blockHeader 0 2 [1] []).call = some (aCall [1] []) ∧
      expected (aCall [1] []) (stCall .blockHeader 0 2 [1] []) = some .bh ∧
      decodeElem .bh 0 2 = .needMore ∧ (aCall [1] []).inp[0]? = some 1) ∧
    (expected (aCall [] []) (stCall .blockHeader 0 2 [] []) = some .bh ∧
      (aCall [] []).ip = (aCall [] []).inp.length) ∧
    (expected { aCall [] [] with pend := some ⟨3, 7⟩ }
        { stPend 7 1 with codeD := Vector.replicate 32 0 } =
          some (.dist (List.replicate 32 0) 7) ∧
      decodeElem (.dist (List.replicate 32 0) 7) 0 7 = .bad .invalidSymbol) := by
  decide +kernel

theorem witness_StepRunsTheStoredByte :
    ({ stCall .storedCopy 0 0 [] [] with stRem := 0 }.phase = .storedCopy) ∧
    ((stCall .storedCopy 0 0 [1] []).phase = .storedCopy ∧
      (stCall .storedCopy 0 0 [1] []).stRem ≠ 0 ∧ (aCall [1] []).inp[0]? = some 1 ∧
      (aCall [] []).inp[0]? = none) := by decide

theorem witness_RaiseStallAndDoneEndTheCall :
    (stCall .done 0 0 [1] [0]).call = some (aCall [1] [0]) ∧
    (stCall .done 0 0 [1] [0]).phase = .done := by decide

/-- `off` at the end of the buffer and one beyond it; ERROR; DONE. -/
theorem witness_AdvanceSetsUpTheCall :
    (State.reset.phase ≠ .error ∧ State.reset.phase ≠ .done ∧ 1 ≤ ([0] : List Byte).length) ∧
    { State.reset with phase := .error }.phase = .error ∧
    { State.reset with phase := .done }.phase = .done ∧ ([0] : List Byte).length < 2 := by decide

theorem witness_QueryAndControlCommands :
    { State.reset with phase := .done }.phase = .done ∧ State.reset.phase ≠ .done := by decide

/-- `78 9C` with 16 bits pending; one header for each check that fails (V-ZL-2 to V-ZL-5). -/
theorem witness_ZlibHeader :
    ((0x78 * 256 + 0x9C) % 31 = 0 ∧ 0x78 % 16 = 8 ∧ 0x78 / 16 ≤ 7 ∧
      (0x9C : Byte).getLsbD 5 = false ∧ 16 ≤ (stAt .zlibHeader 0x9C78 16).nb.toNat) ∧
    (0x78 * 256 + 0x02) % 31 ≠ 0 ∧ 0x77 % 16 ≠ 8 ∧ 0x88 / 16 > 7 ∧
    (0x20 : Byte).getLsbD 5 = true := by decide

/-- The trailer of `hi`; IGNORE_CHECKSUM; a mismatch. -/
theorem witness_ZlibTrailer :
    ({ stAt .trailer 0 32 with ck := 0x013B00D2 }.ck.toNat =
        0x01 * 2 ^ 24 + 0x3B * 2 ^ 16 + 0x00 * 2 ^ 8 + 0xD2 ∧ 32 ≤ (stAt .trailer 0 32).nb.toNat) ∧
    { stAt .trailer 0 32 with ignoreCk := true }.ignoreCk = true ∧
    ((stAt .trailer 0 32).ignoreCk = false ∧
      0 * 2 ^ 24 + 0 * 2 ^ 16 + 0 * 2 ^ 8 + 0 ≠ (stAt .trailer 0 32).ck.toNat) := by decide

theorem witness_BlockHeaders : 3 ≤ (stCall .blockHeader 7 3 [] []).nb.toNat ∧
    (stCall .blockHeader 7 3 [] []).call = some (aCall [] []) := by decide

theorem witness_StoredLength :
    (0xFFFD#16 = 2#16 ^^^ 0xFFFF#16 ∧ 32 ≤ (stAt .storedLen 0 32).nb.toNat) ∧
    0xFEFD#16 ≠ 2#16 ^^^ 0xFFFF#16 := by decide

/-- No byte left; a byte and room for it; no room; no byte of input. -/
theorem witness_StoredByte :
    ((stCall .storedCopy 0 0 [1] [0]).call = some (aCall [1] [0]) ∧
      { stCall .storedCopy 0 0 [1] [0] with stRem := 0 }.stRem = 0) ∧
    ((stCall .storedCopy 0 0 [1] [0]).stRem ≠ 0 ∧ (aCall [1] [0]).ip < (aCall [1] [0]).inp.length ∧
      (aCall [1] [0]).off + (aCall [1] [0]).prod < (aCall [1] [0]).out.length) ∧
    (aCall [1] []).out.length ≤ (aCall [1] []).off + (aCall [1] []).prod ∧
    (aCall [] []).inp.length ≤ (aCall [] []).ip := by decide

/-- hlit 286 and hdist 30, the largest accepted; 287; 31. -/
theorem witness_DynamicHeader :
    ((29#5).toNat + 257 ≤ 286 ∧ (29#5).toNat + 1 ≤ 30 ∧ 14 ≤ (stAt .dynHeader 0 14).nb.toNat) ∧
    286 < (30#5).toNat + 257 ∧ 30 < (30#5).toNat + 1 := by decide

/-- The code-length code of P3 but for its last length, that of symbol 1. -/
def stLastCl (v : BitVec 3) : State :=
  { stAt .dynClLens v.toNat 3 with
    hclen := 18, clIdx := 17, clLen := (((Vector.replicate 19 0).set 0 2).set 2 2).set 18 2 }

/-- A length that is not the last; the last one with a complete code, and with an incomplete one. -/
theorem witness_CodeLengthCodeLength :
    ((stAt .dynClLens 5 3).clIdx.toNat < 19 ∧
      (stAt .dynClLens 5 3).clIdx.toNat + 1 ≠ (stAt .dynClLens 5 3).hclen.toNat ∧
      3 ≤ (stAt .dynClLens 5 3).nb.toNat) ∧
    ((stLastCl 2).clIdx.toNat + 1 = (stLastCl 2).hclen.toNat ∧
      kraft (lengthsOf ((stLastCl 2).clLen.setIfInBounds (clOrder.getD 17 0) 2)) = 2 ^ 15) ∧
    kraft (lengthsOf ((stLastCl 3).clLen.setIfInBounds (clOrder.getD 17 0) 3)) ≠ 2 ^ 15 := by
  decide +kernel

/-- P3: a run of 97 zeros from 0, and a repeat that ends one before the total of 260. -/
theorem witness_RunOfLengthsInside :
    (runOf (stDyn 0 9) (.clsym18 86) = some (97, 0, 9) ∧ (0 : Nat) + 97 < 259 + 1 ∧ 259 + 1 ≤ 316 ∧
      9 ≤ (stDyn 0 9).nb.toNat) ∧
    (runOf (stDyn 256 2) (.clsym16 0) = some (3, 0, 2) ∧ (stDyn 256 2).dynIdx ≠ 0 ∧
      (stDyn 256 2).dynIdx.toNat + 3 < 259 + 1) := by decide +kernel

/-- P3 before its last code length: `a`, `b`, 256 and 258 have length 2. -/
def stLastLen : State :=
  { stDyn 259 2 with
    lens := ((((Vector.replicate 316 0).set 97 2).set 98 2).set 256 2).set 258 2 }

/-- P3's last F_CLS: both codes are accepted; the same run with no length for `a` is refused. -/
theorem witness_RunOfLengthsAtTheEnd :
    (runOf stLastLen (.clsymLen 1) = some (1, 1, 2) ∧
      stLastLen.dynIdx.toNat + 1 = stLastLen.hlit.toNat + stLastLen.hdist.toNat ∧
      stLastLen.hlit.toNat ≤ 286 ∧ stLastLen.hdist.toNat ≤ 30 ∧ 2 ≤ stLastLen.nb.toNat) ∧
    (llAccepted (lengthsOf (newCodeLL (runLens 1 1 stLastLen) stLastLen)) = true ∧
      distAccepted (lengthsOf (newCodeD (runLens 1 1 stLastLen) stLastLen)) = true) ∧
    llAccepted (lengthsOf (newCodeLL (runLens 1 1 (stDyn 259 2)) (stDyn 259 2))) = false := by
  decide +kernel

/-- No previous length; runs that end one past the total of 260. -/
theorem witness_BadRepeatsRaise :
    (stDyn 0 9).dynIdx = 0 ∧ 259 + 1 < (stDyn 258 9).dynIdx.toNat + (3 + (0#2).toNat) ∧
    259 + 1 < (stDyn 258 9).dynIdx.toNat + (3 + (0#3).toNat) ∧
    259 + 1 < (stDyn 250 9).dynIdx.toNat + (11 + (0#7).toNat) := by decide +kernel

/-- One byte of room, and none. -/
theorem witness_Literal :
    ((aCall [] [0]).off + (aCall [] [0]).prod < (aCall [] [0]).out.length ∧
      lengthAt (stCall .symbolLoop 0x89 8 [] [0]).codeLL (97#8).toNat ≤
        (stCall .symbolLoop 0x89 8 [] [0]).nb.toNat) ∧
    (aCall [] []).out.length ≤ (aCall [] []).off + (aCall [] []).prod := by decide +kernel

/-- The 7 bits of the fixed end of block; a block that is not the last; the last, RAW and ZLIB. -/
theorem witness_EndOfBlock :
    lengthAt (stAt .symbolLoop 0 7).codeLL 256 ≤ (stAt .symbolLoop 0 7).nb.toNat ∧
    (stAt .symbolLoop 0 7).final = false ∧
    ({ stAt .symbolLoop 0 7 with final := true, wrap := .raw }.final = true ∧
      { stAt .symbolLoop 0 7 with final := true, wrap := .raw }.wrap = .raw) ∧
    ({ stAt .symbolLoop 0 7 with final := true }.final = true ∧
      { stAt .symbolLoop 0 7 with final := true }.wrap = .zlib) := by decide +kernel

/-- The first and the last length symbol, and 284 with its largest extra value. -/
theorem witness_LengthSymbols :
    (litLenSym .len257 = some (257, 0) ∧ 257 ≤ 257) ∧
    (litLenSym .len285 = some (285, 0) ∧ 285 ≤ 285 ∧ ¬(285 = 284 ∧ (0 : Nat) = 31)) ∧
    (litLenSym (.len284 30) = some (284, 30) ∧ ¬(284 = 284 ∧ (30 : Nat) = 31)) ∧
    (stCall .symbolLoop 0 8 [] []).call = some (aCall [] []) := by decide +kernel

/-- A distance equal to `hist`, and one greater: the first symbol and the largest distance. -/
theorem witness_DistanceSymbols :
    (distSym .dist0 = some (0, 0) ∧ (stPend 12 1).call = some { aCall [] [] with pend := some ⟨3, 7⟩ } ∧
      distBaseTable.getD 0 0 + 0 ≤ (stPend 12 1).hist.toNat ∧
      7 + lengthAt (stPend 12 1).codeD 0 + distExtraTable.getD 0 0 ≤ (stPend 12 1).nb.toNat) ∧
    (distSym (.dist29 0x1FFF) = some (29, 8191) ∧ 29 ≤ 29 ∧
      (stPend 25 32767).hist.toNat < distBaseTable.getD 29 0 + 8191) ∧
    distBaseTable.getD 29 0 + 8191 ≤ (stPend 25 32768).hist.toNat := by decide +kernel

/-- `MATCH 3, 1` in the fixed codes: 12 bits. -/
theorem witness_MatchStartsTheBackReference :
    litLenSym .len257 = some (257, 0) ∧ distSym .dist0 = some (0, 0) ∧
    (aCall [] []).pend = none ∧
    lengthAt (stAt .symbolLoop 0x40 12).codeLL 257 + lenExtraTable.getD (257 - 257) 0 +
      lengthAt (stAt .symbolLoop 0x40 12).codeD 0 + distExtraTable.getD 0 0 ≤
        (stAt .symbolLoop 0x40 12).nb.toNat ∧
    distBaseTable.getD 0 0 + 0 ≤ { stAt .symbolLoop 0x40 12 with hist := 1 }.hist.toNat := by
  decide +kernel

theorem witness_InvalidSymbolsRaise :
    (stCall .symbolLoop 0 13 [] []).call = some (aCall [] []) := by decide

/-- The empty distance code, and H3 with its unused word. -/
theorem witness_UnusedDistanceCodeWords :
    (∀ l ∈ ([0, 0] : Lengths), l = 0) ∧
    (([0, 1] : Lengths).filter (fun l => decide (l ≠ 0)) = [1] ∧ 7 < 8 ∧
      (0x80 : Nat).testBit 7 = true) := by decide

theorem witness_WindowMemory : (1 : Nat) ≠ 0 := by decide

/-- The least and the largest distance kept. -/
theorem witness_WindowHoldsTheLastBytes :
    (∃ t, emit 0x61 (stCall .symbolLoop 0 0 [] [0]) = .next t) ∧ (1 ≤ 1 ∧ 1 < 32768) ∧
    32767 < 32768 :=
  ⟨⟨_, rfl⟩, by decide, by decide⟩

/-- No byte left; a byte and no room; a byte and room. -/
theorem witness_BackReferenceStep :
    stCopy.phase = .backReference ∧ { stCopy with brLen := 0 }.brLen = 0 ∧
    (stCopy.brLen ≠ 0 ∧ (aCall [] []).out.length ≤ (aCall [] []).off + (aCall [] []).prod) ∧
    ((aCall [] [0, 0, 0]).off + (aCall [] [0, 0, 0]).prod < (aCall [] [0, 0, 0]).out.length ∧
      Memory.read stCopy.win ((stCopy.wp.toNat + 32768 - stCopy.brDist.toNat) % 32768) =
        some 0x61) := by decide

/-- An overlapping copy: three bytes at distance 1, just fitting. -/
theorem witness_OverlappingCopyRepeats :
    Inv stCopy ∧ stCopy.call = some (aCall [] [0, 0, 0]) ∧ stCopy.phase = .backReference ∧
    stCopy.brLen.toNat ≤ (aCall [] [0, 0, 0]).out.length - 0 - 0 ∧
    (0 < stCopy.brDist.toNat ∧ ¬ 1 < stCopy.brDist.toNat) :=
  ⟨inv_copy, rfl, rfl, by decide, by decide⟩

theorem witness_StepKeepsTheInvariant :
    Inv (stCall .symbolLoop 0x89 8 [] [0]) ∧
    ∃ t, step (stCall .symbolLoop 0x89 8 [] [0]) = .next t ∧
      decide (t.hist = 1 ∧ t.call ≠ none) = true :=
  ⟨inv_literal, exists_next (by decide +kernel)⟩

theorem witness_NoStepGoesOutOfBounds : Inv (stCall .storedCopy 0 0 [0x68] [0]) := inv_stored

theorem witness_PhasesFollowTheTransitionTable :
    (stCall .blockHeader 0 0 [0x4B] [0]).call = some (aCall [0x4B] [0]) ∧
    ∃ t, step (stCall .blockHeader 0 0 [0x4B] [0]) = .next t ∧
      decide (t.phase = .symbolLoop) = true :=
  ⟨rfl, exists_next (by decide +kernel)⟩

/-- In DONE an ADVANCE is presented; `ignore_ck` is set. -/
theorem witness_OnlyResetLeavesDoneAndError :
    ∃ t, step { State.reset with phase := .done, ignoreCk := true, cmds := [⟨1, [1], [0], 0⟩] } =
        .next t ∧
      decide (decodeCommand ⟨1, [1], [0], 0⟩ = some (.advance [1] [0] 0 false) ∧ t.cmds = []) =
        true :=
  exists_next (by decide +kernel)

theorem witness_BuffersAreReadAndWrittenInOrder :
    Inv (stCall .storedCopy 0 0 [0x68] [0]) ∧
    ∃ t, step (stCall .storedCopy 0 0 [0x68] [0]) = .next t ∧
      decide (t.call = some { aCall [0x68] [0x68] with ip := 1, prod := 1 }) = true :=
  ⟨inv_stored, exists_next (by decide +kernel)⟩

/-- A step that emits, and one that does not. -/
theorem witness_WindowIsWrittenOnlyByEmit :
    (∃ t, step (stCall .storedCopy 0 0 [0x68] [0]) = .next t ∧ decide (t.hist = 1) = true) ∧
    ∃ t, step (stCall .blockHeader 0 0 [0x4B] [0]) = .next t ∧ decide (t.hist = 0) = true :=
  ⟨exists_next (by decide +kernel), exists_next (by decide +kernel)⟩

/-- A call that stalls with nothing to read, and one that fetches a byte of a wider element first. -/
theorem witness_CallEndsWithItsCounts :
    (Inv (stCall .blockHeader 0 0 [] []) ∧
      ∃ t, step (stCall .blockHeader 0 0 [] []) = .next t ∧ decide (t.call = none) = true) ∧
    Inv (stCall .zlibHeader 0 0 [0x78] []) ∧
    ∃ t, step (stCall .zlibHeader 0 0 [0x78] []) = .next t ∧
      decide (t.call = none ∧ t.nb = 8) = true :=
  ⟨⟨inv_empty, exists_next (by decide +kernel)⟩, inv_stCall (by decide) (by decide) rfl,
    exists_next (by decide +kernel)⟩

/-- A header that needs its one byte. -/
theorem witness_LookaheadIsMinimal :
    Inv (stCall .blockHeader 0 0 [0x4B] [0]) ∧ Lookahead (stCall .blockHeader 0 0 [0x4B] [0]) ∧
    expected (aCall [0x4B] [0]) (stCall .blockHeader 0 0 [0x4B] [0]) = some .bh ∧
    ∃ t, step (stCall .blockHeader 0 0 [0x4B] [0]) = .next t ∧
      decide (t.call = some { aCall [0x4B] [0] with ip := 1 }) = true :=
  ⟨inv_header, fun h => absurd h (by decide), rfl, exists_next (by decide +kernel)⟩

theorem witness_TableSizeDoesNotMatter :
    (stCall .symbolLoop 0x89 8 [] [0]).call = some (aCall [] [0]) ∧
    ∃ t, step (stCall .symbolLoop 0x89 8 [] [0]) = .next t ∧ decide (t.hist = 1) = true :=
  ⟨rfl, exists_next (by decide +kernel)⟩

theorem witness_ChecksumOptOutIsTransparent :
    (stCall .symbolLoop 0x89 8 [] [0]).phase ≠ .trailer ∧
    ∃ t, step (stCall .symbolLoop 0x89 8 [] [0]) = .next t ∧ decide (t.ck = 0x00620062) = true :=
  ⟨by decide, exists_next (by decide +kernel)⟩

theorem witness_EveryCallReturns :
    Inv (stCall .symbolLoop 0x89 8 [] [0]) ∧
    (stCall .symbolLoop 0x89 8 [] [0]).call = some (aCall [] [0]) := ⟨inv_literal, rfl⟩

/-- One step of a run. -/
theorem run_of_step {s t : State} (h : step s = .next t) (k : Nat) :
    Host.Core.run Sys2Proof.core (k + 1) s = Host.Core.run Sys2Proof.core k t := by
  have h' : Sys2Proof.core.step s = .next t := h
  simp only [Host.Core.run, h']

/-- A call that returns in its first step. -/
theorem returns_in_one {s t : State} (hs : s.call ≠ none) (h : step s = .next t)
    (ht : t.call = none) : CallReturns s t := by
  refine ⟨1, run_of_step h 0, ht, fun j hj u hu => ?_⟩
  obtain rfl : j = 0 := by omega
  obtain rfl : s = u := Host.Outcome.next.inj hu
  exact hs

/-- A call that returns in its second step. -/
theorem returns_in_two {s r t : State} (hs : s.call ≠ none) (hr : r.call ≠ none)
    (h1 : step s = .next r) (h2 : step r = .next t) (ht : t.call = none) : CallReturns s t := by
  refine ⟨2, (run_of_step h1 1).trans (run_of_step h2 0), ht, fun j hj u hu => ?_⟩
  have hj' : j = 0 ∨ j = 1 := by omega
  rcases hj' with rfl | rfl
  · obtain rfl : s = u := Host.Outcome.next.inj hu
    exact hs
  · rw [run_of_step h1 0] at hu
    obtain rfl : r = u := Host.Outcome.next.inj hu
    exact hr

/-- After reset, a call with no input, no room and `eoi = 0`. -/
theorem witness_ZeroProgressRepeats :
    Inv State.reset ∧ State.reset.call = none ∧ State.reset.phase ≠ .done ∧
    State.reset.phase ≠ .error ∧ 0 ≤ ([] : List Byte).length ∧
    CallReturns (beginCall [] [] 0 false State.reset)
      { State.reset with resps := [.advanced 0 0 0 []] } :=
  ⟨inv_idle, rfl, by decide, by decide, Nat.zero_le _, returns_in_one (by simp) rfl rfl⟩

/-- After reset, the byte `00` of a stream of `00 00`, then the rest: a stored block's header, and
the first byte of its LEN. -/
def afterHeader (pending : List Byte) : State :=
  { State.reset with phase := .storedLen, nb := BitVec.ofNat 6 (8 * pending.length) }

/-- A split of the input: the first call stalls for want of it. -/
theorem witness_TwoCallsAreOneCall :
    Inv State.reset ∧ State.reset.call = none ∧ (false = true → false = true ∧ [(0 : Byte)] = []) ∧
    0 ≤ ([] : List Byte).length ∧ ([] : List Byte).length - 0 = 0 + (([] : List Byte).length - 0) ∧
    AdvanceReturns [0] [] 0 false State.reset
      { afterHeader [] with resps := [.advanced 0 1 0 []] } 0 1 0 [] ∧
    AdvanceReturns (([0] : List Byte).drop 1 ++ [0]) [] 0 false
      { afterHeader [] with resps := [.advanced 0 1 0 []] }
      { afterHeader [0] with resps := [.advanced 0 1 0 [], .advanced 0 1 0 []] } 0 1 0 [] :=
  ⟨inv_idle, rfl, by simp, Nat.zero_le _, rfl,
    ⟨_, rfl, returns_in_two (by simp)
      (r := { afterHeader [] with call := some ⟨[0], [], 0, false, 1, 0, none⟩ })
      (by simp) rfl rfl rfl, rfl⟩,
    ⟨_, rfl, returns_in_one (by simp [beginCall]) rfl rfl, rfl⟩⟩

/-- A stored block with two bytes to copy, between two calls. -/
def stStored : State := { State.reset with phase := .storedCopy, stRem := 2 }

theorem inv_stStored : Inv stStored :=
  { inv_idle with
    call := by intro c hc; cases hc
    err := ⟨fun h => absurd rfl h, fun h => by cases h⟩
    phase := rfl }

/-- `stStored` after its first byte, in a call or between two. -/
def afterByte (call : Option Call) (resps : List Response) : State :=
  { stStored with
    stRem := 1, win := [(0, 0x68)], wp := 1, hist := 1
    ck := Config.ckFoldRaw Config.ckInitRaw 0x68, call := call, resps := resps }

/-- A split of the room: the first call has the byte and no room for it, the second the room. -/
theorem witness_TwoCallsAreOneCall_room :
    Inv stStored ∧ stStored.call = none ∧ (false = true → false = true ∧ ([] : List Byte) = []) ∧
    0 ≤ ([0] : List Byte).length ∧ ([0] : List Byte).length - 0 = 0 + (([0] : List Byte).length - 0) ∧
    AdvanceReturns [0x68] [] 0 false stStored
      { stStored with resps := [.advanced 0 0 0 []] } 0 0 0 [] ∧
    AdvanceReturns (([0x68] : List Byte).drop 0 ++ []) [0] 0 false
      { stStored with resps := [.advanced 0 0 0 []] }
      (afterByte none [.advanced 0 1 1 [0x68], .advanced 0 0 0 []]) 0 1 1 [0x68] :=
  ⟨inv_stStored, rfl, by simp, Nat.zero_le _, rfl,
    ⟨_, rfl, returns_in_one (by simp [beginCall]) rfl rfl, rfl⟩,
    ⟨_, rfl, returns_in_two (by simp [beginCall])
      (r := afterByte (some ⟨[0x68], [0x68], 0, false, 1, 1, none⟩) [.advanced 0 0 0 []])
      (by simp [afterByte]) rfl rfl rfl, rfl⟩⟩

/-- The first call ends in an error (block type 11), and the second returns it again. -/
theorem witness_TwoCallsAreOneCall_error :
    AdvanceReturns [7] [] 0 false State.reset
      { State.reset with
        phase := .error, acc := 7, nb := 8, err := 1, resps := [.advanced 1 1 0 []] } 1 1 0 [] ∧
    AdvanceReturns (([7] : List Byte).drop 1 ++ []) [] 0 false
      { State.reset with
        phase := .error, acc := 7, nb := 8, err := 1, resps := [.advanced 1 1 0 []] }
      { State.reset with
        phase := .error, acc := 7, nb := 8, err := 1
        resps := [.advanced 1 0 0 [], .advanced 1 1 0 []] } 1 0 0 [] :=
  ⟨⟨_, rfl, returns_in_one (by simp [beginCall]) rfl rfl, rfl⟩,
    ⟨_, rfl, ⟨0, rfl, rfl, fun j hj => absurd hj (Nat.not_lt_zero j)⟩, rfl⟩⟩

end Sys2Proof.Tests
end

section
/-! Proofs for the bit reader (40_bit_reader.md): FETCH, `consume` and `need`. -/

namespace Sys2Proof.Machine

/-! ### FETCH (R103) -/

/-- FETCH counts 8 more bits wherever they fit in the six bits of `nb`. -/
theorem fetchByte_nb_toNat (b : Byte) {s : State} (h : s.nb.toNat ≤ 55) :
    (fetchByte b s).nb.toNat = s.nb.toNat + 8 := by
  rw [fetchByte_nb]
  bv_omega

/-- With zeros above the pending bits, the byte is added above them. -/
theorem fetchByte_acc_toNat (b : Byte) {s : State} (hnb : s.nb.toNat ≤ 55)
    (hacc : s.acc.toNat < 2 ^ s.nb.toNat) :
    (fetchByte b s).acc.toNat = s.acc.toNat + b.toNat * 2 ^ s.nb.toNat := by
  have hfit : b.toNat * 2 ^ s.nb.toNat < 2 ^ 64 :=
    calc b.toNat * 2 ^ s.nb.toNat < 2 ^ 8 * 2 ^ s.nb.toNat :=
          Nat.mul_lt_mul_of_pos_right b.isLt (Nat.two_pow_pos _)
      _ ≤ 2 ^ 8 * 2 ^ 55 := Nat.mul_le_mul_left _ (Nat.pow_le_pow_right (by decide) hnb)
      _ < 2 ^ 64 := by decide
  have hb : b.toNat < 2 ^ 64 := Nat.lt_trans b.isLt (by decide)
  rw [fetchByte_acc, BitVec.toNat_or, BitVec.toNat_shiftLeft, BitVec.toNat_setWidth,
    Nat.mod_eq_of_lt hb, Nat.mod_eq_of_lt (by rwa [Nat.shiftLeft_eq]), Nat.or_comm,
    ← Nat.shiftLeft_add_eq_or_of_lt hacc, Nat.shiftLeft_eq, Nat.add_comm]

/-- FETCH keeps zeros above the pending bits. -/
theorem fetchByte_acc_lt (b : Byte) {s : State} (hnb : s.nb.toNat ≤ 55)
    (hacc : s.acc.toNat < 2 ^ s.nb.toNat) :
    (fetchByte b s).acc.toNat < 2 ^ (fetchByte b s).nb.toNat := by
  rw [fetchByte_acc_toNat b hnb hacc, fetchByte_nb_toNat b hnb, Nat.pow_add, Nat.mul_comm (2 ^ _)]
  calc s.acc.toNat + b.toNat * 2 ^ s.nb.toNat
      < (b.toNat + 1) * 2 ^ s.nb.toNat := by rw [Nat.succ_mul]; omega
    _ ≤ 2 ^ 8 * 2 ^ s.nb.toNat := Nat.mul_le_mul_right _ b.isLt

/-- Several FETCHes count 8 bits each, wherever all of them fit in `nb`. -/
theorem fetchBytes_nb_toNat {bytes : List Byte} {s : State}
    (h : s.nb.toNat + 8 * bytes.length ≤ 63) :
    (fetchBytes bytes s).nb.toNat = s.nb.toNat + 8 * bytes.length := by
  induction bytes generalizing s with
  | nil => rfl
  | cons b bytes ih =>
    rw [List.length_cons] at h ⊢
    have hb := fetchByte_nb_toNat b (s := s) (by omega)
    rw [fetchBytes_cons, ih (by omega), hb]
    omega

theorem fetchBytes_call {bytes : List Byte} {s : State} {c : Call} (h : s.call = some c) :
    (fetchBytes bytes s).call = some { c with ip := c.ip + bytes.length } := by
  rw [fetchBytes_frame, h]
  rfl

/-! ### `consume` (R107) -/

/-- `nb - n` does not wrap for the bits that are there. -/
theorem nb_sub_toNat {n : Nat} {nb : BitVec 6} (h : n ≤ nb.toNat) :
    (nb - BitVec.ofNat 6 n).toNat = nb.toNat - n := by
  have hn : n < 2 ^ 6 := Nat.lt_of_le_of_lt h nb.isLt
  have hof : (BitVec.ofNat 6 n).toNat = n := by rw [BitVec.toNat_ofNat, Nat.mod_eq_of_lt hn]
  rw [BitVec.toNat_sub_of_le (by rwa [BitVec.le_def, hof]), hof]

/-- Shifting n bits out leaves zeros above the bits that remain. -/
theorem acc_shift_lt {n k : Nat} {acc : BitVec 64} (hn : n ≤ k) (h : acc.toNat < 2 ^ k) :
    (acc >>> n).toNat < 2 ^ (k - n) := by
  rw [BitVec.toNat_ushiftRight, Nat.shiftRight_eq_div_pow]
  apply Nat.div_lt_of_lt_mul
  rwa [← Nat.pow_add, Nat.add_sub_cancel' hn]

theorem consume_of_lt {n : Nat} {s : State} (h : s.nb.toNat < n) :
    consume n s = .fault .consumeBeyond :=
  if_neg (Nat.not_le_of_lt h)

/-- Settles O1: FETCH by the value of its sum, `consume` by the shift and the difference. -/
theorem fetchAndConsumeMoveTheCursor : Obligations.FetchAndConsumeMoveTheCursor := by
  refine ⟨fun b s c hcall hnb hacc => ?_, fun n s hn => ?_, fun n s hn => consume_of_lt hn⟩
  · have hnb : s.nb.toNat ≤ 55 := Nat.le_trans hnb (by decide)
    exact ⟨fetchByte_acc_toNat b hnb hacc, fetchByte_nb_toNat b hnb, by simp [hcall],
      fetchByte_acc_lt b hnb hacc, rfl⟩
  · refine ⟨_, consume_of_le hn, nb_sub_toNat hn, fun i => ?_, fun hacc => ?_, ?_, rfl⟩
    · rw [BitVec.getLsbD_ushiftRight, Nat.add_comm]
    · rw [nb_sub_toNat hn]
      exact acc_shift_lt hn hacc
    · rintro rfl
      simp

/-! ### `need` (R104) -/

theorem fetchLoop_of_got {α : Type} {peek : Nat → Nat → Peek α} {s : State} {a : α}
    (h : peek s.acc.toNat s.nb.toNat = .got a) (rest : List Byte) :
    fetchLoop peek rest s = .got a s := by
  cases rest <;> simp [fetchLoop, h]

/-- A run of peeks FETCHes every byte that is wanted, and goes on from there. -/
theorem fetchLoop_of_needMore {α : Type} {peek : Nat → Nat → Peek α} {rest : List Byte}
    {s : State} {n : Nat} (hn : n ≤ rest.length)
    (h : ∀ j, j < n → peek (fetchBytes (rest.take j) s).acc.toNat
      (fetchBytes (rest.take j) s).nb.toNat = .needMore) :
    fetchLoop peek rest s = fetchLoop peek (rest.drop n) (fetchBytes (rest.take n) s) := by
  induction n generalizing rest s with
  | zero => rfl
  | succ n ih =>
    cases rest with
    | nil => exact absurd hn (Nat.not_succ_le_zero n)
    | cons b rest =>
      have hb : peek s.acc.toNat s.nb.toNat = .needMore := h 0 (Nat.succ_pos n)
      have hrest : fetchLoop peek (b :: rest) s = fetchLoop peek rest (fetchByte b s) := by
        simp [fetchLoop, hb]
      rw [hrest]
      exact ih (Nat.le_of_succ_le_succ hn) fun j hj => h (j + 1) (Nat.succ_lt_succ hj)

/-- A run of peeks with no byte left and bits wanted ends in the shortage (R111). -/
theorem fetchLoop_nil_of_needMore {α : Type} {peek : Nat → Nat → Peek α} {s : State}
    (h : peek s.acc.toNat s.nb.toNat = .needMore) :
    fetchLoop peek [] s = .ended (shortage s) := by
  simp [fetchLoop, h]

/-- The peek of `need(m)`: are m bits known? -/
def needPeek (m : Nat) (_ k : Nat) : Peek Unit := if m ≤ k then .got () else .needMore

theorem needPeek_of_le {m k : Nat} (v : Nat) (h : m ≤ k) : needPeek m v k = .got () := if_pos h

theorem needPeek_of_lt {m k : Nat} (v : Nat) (h : k < m) : needPeek m v k = .needMore :=
  if_neg (Nat.not_le_of_lt h)

theorem need_of_call {m : Nat} {s : State} {c : Call} (h : s.call = some c) :
    need m s = fetchLoop (needPeek m) (c.inp.drop c.ip) s :=
  probe_of_call h

/-- The bits known after n FETCHes, where the bytes are there and `nb` can count them. -/
theorem fetchBytes_take_nb {bytes : List Byte} {s : State} {n : Nat} (hn : n ≤ bytes.length)
    (h : s.nb.toNat + 8 * n ≤ 63) :
    (fetchBytes (bytes.take n) s).nb.toNat = s.nb.toNat + 8 * n := by
  have hlen := List.length_take_of_le hn
  rw [fetchBytes_nb_toNat (by rwa [hlen]), hlen]

/-- While fewer than m bits are known, `need(m)` FETCHes. -/
theorem needLoop_fetches {m n : Nat} {rest : List Byte} {s : State} (hn : n ≤ rest.length)
    (hm : m ≤ 48) (hfew : ∀ j, j < n → s.nb.toNat + 8 * j < m) :
    fetchLoop (needPeek m) rest s =
      fetchLoop (needPeek m) (rest.drop n) (fetchBytes (rest.take n) s) := by
  refine fetchLoop_of_needMore hn fun j hj => needPeek_of_lt _ ?_
  have hj' := hfew j hj
  rwa [fetchBytes_take_nb (by omega) (by omega)]

/-- `need(m)` does nothing when m bits are known. -/
theorem need_of_known {m : Nat} {s : State} {c : Call} (hcall : s.call = some c)
    (h : m ≤ s.nb.toNat) : need m s = .got () s := by
  rw [need_of_call hcall]
  exact fetchLoop_of_got (needPeek_of_le _ h) _

/-- `need(m)` with enough bytes left stops after the first n that make m bits known. -/
theorem need_of_enough {m n : Nat} {s : State} {c : Call} (hcall : s.call = some c) (hm : m ≤ 48)
    (hn : n ≤ (c.inp.drop c.ip).length) (hnb : s.nb.toNat + 8 * n ≤ 63)
    (henough : m ≤ s.nb.toNat + 8 * n) (hfew : ∀ j, j < n → s.nb.toNat + 8 * j < m) :
    need m s = .got () (fetchBytes ((c.inp.drop c.ip).take n) s) := by
  rw [need_of_call hcall, needLoop_fetches hn hm hfew]
  exact fetchLoop_of_got (needPeek_of_le _ (by rwa [fetchBytes_take_nb hn hnb])) _

/-- `need(m)` with too few bytes left FETCHes them all and ends in the shortage. -/
theorem need_of_short {m : Nat} {s : State} {c : Call} (hcall : s.call = some c) (hm : m ≤ 48)
    (hshort : s.nb.toNat + 8 * (c.inp.drop c.ip).length < m) :
    need m s = .ended (shortage (fetchBytes (c.inp.drop c.ip) s)) := by
  rw [need_of_call hcall, needLoop_fetches (Nat.le_refl _) hm (fun j hj => by omega),
    List.drop_length, List.take_length]
  refine fetchLoop_nil_of_needMore (needPeek_of_lt _ ?_)
  rwa [fetchBytes_nb_toNat (by omega)]

/-- Settles O2: the byte before the last one wanted leaves fewer than 48 bits, so `nb` does not
wrap, and the run of peeks FETCHes exactly the bytes wanted. -/
theorem needFetchesTheFewestBytes : Obligations.NeedFetchesTheFewestBytes := by
  intro m s c hcall hm hnb hip
  have hlen : (c.inp.drop c.ip).length = c.inp.length - c.ip := List.length_drop
  refine ⟨need_of_known hcall, fun n hn henough hfew => ?_, fun hshort => ?_⟩
  · rw [← hlen] at hn
    have hfit : s.nb.toNat + 8 * n ≤ 63 := by
      cases n with
      | zero => omega
      | succ n => have := hfew n (Nat.lt_succ_self n); omega
    refine ⟨need_of_enough hcall hm hn hfit henough hfew, fetchBytes_take_nb hn hfit, ?_⟩
    rw [fetchBytes_call hcall, List.length_take_of_le hn]
  · rw [← hlen] at hshort ⊢
    have hafter := fetchBytes_call (bytes := c.inp.drop c.ip) hcall
    refine ⟨?_, fetchBytes_nb_toNat (by omega), ?_⟩
    · rw [need_of_short hcall hm hshort, shortage_of_call hafter]
    · rw [hafter, hlen, Nat.add_sub_cancel' hip]

end Sys2Proof.Machine
end

section
/-! Proofs for the Huffman tables (41_huffman_tables.md): the fixed codes (R134, R135). -/

namespace Sys2Proof.Machine

/-! ### The code words of a code that uses every symbol (R120) -/

theorem length_firstCodes (counts : List Nat) (code : Nat) :
    (firstCodes counts code).length = counts.length := by
  induction counts generalizing code with
  | nil => rfl
  | cons c cs ih => simp [firstCodes, ih]

theorem length_nextTable (x : Lengths) : (nextTable x).length = Config.maxLen + 1 := by
  simp [nextTable, length_firstCodes]

/-- A symbol's code value is the first one of its length plus the number of earlier symbols of
that length. -/
theorem assignCodes_getElem? {x : Lengths} {next : List Nat} {base i l : Nat}
    (hx : ∀ m ∈ x, m ≠ 0 ∧ m < next.length) (hi : x[i]? = some l) :
    (assignCodes x next base)[i]? =
      some ⟨base + i, l, next.getD l 0 + (x.take i).count l⟩ := by
  induction x generalizing next base i with
  | nil => simp at hi
  | cons m rest ih =>
    obtain ⟨⟨hm0, hm⟩, hrest⟩ := List.forall_mem_cons.mp hx
    rw [assignCodes, if_neg hm0]
    cases i with
    | zero =>
      obtain rfl : m = l := by simpa using hi
      simp
    | succ i =>
      have hi : rest[i]? = some l := by simpa using hi
      rw [List.getElem?_cons_succ, ih (by simpa using hrest) hi, List.take_succ_cons]
      by_cases hml : m = l
      · subst hml
        simp [hm]
        omega
      · simp [hml, Nat.add_assoc, Nat.add_comm 1]

/-- The code word of a used symbol, where every symbol of the code is used. -/
theorem codeWords_getElem? {x : Lengths} {s l : Nat}
    (hx : ∀ m ∈ x, m ≠ 0 ∧ m ≤ Config.maxLen) (hs : x[s]? = some l) :
    (codeWords x)[s]? = some ⟨s, l, (nextTable x).getD l 0 + (x.take s).count l⟩ := by
  rw [codeWords, assignCodes_getElem? (by simpa [length_nextTable, Nat.lt_succ_iff] using hx) hs,
    Nat.zero_add]

/-! ### The Kraft sum (R122) of runs of one length -/

theorem kraft_append (x y : Lengths) : kraft (x ++ y) = kraft x + kraft y := by
  simp [kraft]

theorem kraft_replicate {l : Nat} (n : Nat) (hl : l ≠ 0) :
    kraft (List.replicate n l) = n * 2 ^ (Config.maxLen - l) := by
  simp [kraft, hl]

/-! ### The fixed literal/length code (R134) -/

theorem lengthsOf_fixedLL : lengthsOf fixedLL = List.replicate 144 8 ++
    (List.replicate 112 9 ++ (List.replicate 24 7 ++ List.replicate 8 8)) := by
  change fixedLLList.map BitVec.toNat = _
  simp only [fixedLLList, List.map_append, List.map_replicate]
  rfl

/-- The length of literal/length symbol `s` in the table of R134. -/
def fixedLLLength (s : Nat) : Nat :=
  if s < 144 then 8 else if s < 256 then 9 else if s < 280 then 7 else 8

theorem fixedLL_getElem? {s : Nat} (hs : s < 288) :
    (lengthsOf fixedLL)[s]? = some (fixedLLLength s) := by
  simp only [lengthsOf_fixedLL, fixedLLLength, List.getElem?_append, List.length_replicate,
    List.getElem?_replicate]
  grind

theorem fixedLL_lengths : ∀ l ∈ lengthsOf fixedLL, l ≠ 0 ∧ l ≤ Config.maxLen := by
  simp [lengthsOf_fixedLL, Config.maxLen,
    -List.reduceReplicate]

theorem kraft_fixedLL : kraft (lengthsOf fixedLL) = 2 ^ Config.maxLen := by
  rw [lengthsOf_fixedLL]
  simp [kraft_append, kraft_replicate, Config.maxLen, -List.reduceReplicate]

/-- The first code value of each length: 24 words of length 7 give 24 · 2 for length 8, and 152
more of length 8 give (48 + 152) · 2 for length 9. -/
theorem nextTable_fixedLL : nextTable (lengthsOf fixedLL) =
    [0, 0, 0, 0, 0, 0, 0, 0, 48, 400, 1024, 2048, 4096, 8192, 16384, 32768] := by
  simp [nextTable, lengthsOf_fixedLL, blCount, firstCodes, Config.maxLen, List.range_succ,
    List.count_replicate, -List.reduceReplicate]

/-- How many symbols before `s` have the length of `s`. -/
theorem count_take_fixedLL {s : Nat} (hs : s < 288) :
    ((lengthsOf fixedLL).take s).count (fixedLLLength s) =
      if s < 144 then s else if s < 256 then s - 144 else if s < 280 then s - 256 else s - 136 := by
  simp only [lengthsOf_fixedLL, fixedLLLength, List.take_append, List.take_replicate,
    List.length_replicate, List.count_append, List.count_replicate]
  grind

theorem codeWords_fixedLL {s : Nat} (hs : s < 288) :
    (codeWords (lengthsOf fixedLL))[s]? = some
      (if s < 144 then ⟨s, 8, 0b00110000 + s⟩
       else if s < 256 then ⟨s, 9, 0b110010000 + (s - 144)⟩
       else if s < 280 then ⟨s, 7, s - 256⟩
       else ⟨s, 8, 0b11000000 + (s - 280)⟩) := by
  rw [codeWords_getElem? fixedLL_lengths (fixedLL_getElem? hs), nextTable_fixedLL,
    count_take_fixedLL hs, fixedLLLength]
  split_ifs
  · rfl
  · rfl
  · simp
  · -- the second run of length 8 goes on from the 144 words of the first
    have hrun : 48 + (s - 136) = 192 + (s - 280) := by omega
    simpa using hrun

/-! ### The fixed distance code (R135) -/

theorem lengthsOf_fixedD : lengthsOf fixedD = List.replicate 32 5 := by
  simp [lengthsOf, fixedD]

theorem fixedD_getElem? {d : Nat} (hd : d < 32) : (lengthsOf fixedD)[d]? = some 5 := by
  rw [lengthsOf_fixedD, List.getElem?_replicate, if_pos hd]

theorem fixedD_lengths : ∀ l ∈ lengthsOf fixedD, l ≠ 0 ∧ l ≤ Config.maxLen := by
  simp [lengthsOf_fixedD, Config.maxLen]

theorem kraft_fixedD : kraft (lengthsOf fixedD) = 2 ^ Config.maxLen := by
  rw [lengthsOf_fixedD, kraft_replicate 32 (by decide)]
  rfl

theorem nextTable_fixedD : (nextTable (lengthsOf fixedD)).getD 5 0 = 0 := by
  simp [nextTable, lengthsOf_fixedD, blCount, firstCodes, Config.maxLen, List.range_succ,
    List.count_replicate, -List.reduceReplicate]

theorem codeWords_fixedD {d : Nat} (hd : d < 32) :
    (codeWords (lengthsOf fixedD))[d]? = some ⟨d, 5, d⟩ := by
  rw [codeWords_getElem? fixedD_lengths (fixedD_getElem? hd), nextTable_fixedD, lengthsOf_fixedD,
    List.take_replicate, List.count_replicate_self, Nat.min_eq_left (Nat.le_of_lt hd), Nat.zero_add]

/-- Settles O10: both codes use every symbol, so a code word is the first of its length plus a count
of earlier symbols; completeness is the Kraft sum of their runs. -/
theorem fixedCodes : Obligations.FixedCodes := by
  refine ⟨fun s => ?_, fun s => codeWords_fixedLL s.isLt, fun d => codeWords_fixedD d.isLt,
    fun d => ?_, ?_, decide_eq_true kraft_fixedD, fun s => ⟨rfl, rfl, rfl, rfl⟩⟩
  · rw [List.getD_eq_getElem?_getD, fixedLL_getElem? s.isLt]
    rfl
  · rw [List.getD_eq_getElem?_getD, fixedD_getElem? d.isLt]
    rfl
  · simp [llAccepted, complete, kraft_fixedLL, List.getD_eq_getElem?_getD,
      fixedLL_getElem? (s := 256) (by decide), fixedLLLength]

end Sys2Proof.Machine
end

section
/-! Proofs for the decoder's states (42_decode_fsm.md): the block header (R150, R151) and the stored
byte (R153). -/

namespace Sys2Proof.Machine

/-! ### The block header (R150, R151) -/

theorem commitBlockHeader_of_le (f : Bool) {s : State} (h : 3 ≤ s.nb.toNat) :
    commitBlockHeader f s = .next { s with acc := s.acc >>> 3, nb := s.nb - 3, final := f } :=
  commitBlockHeader_next.mpr ⟨h, rfl⟩

theorem execBlkStored_of_le (f : Bool) {s : State} (h : 3 ≤ s.nb.toNat) :
    execBlkStored f s = .next { s with final := f, acc := 0, nb := 0, phase := .storedLen } := by
  rw [execBlkStored, commitBlockHeader_of_le f h]
  rfl

theorem execBlkFixed_of_le (f : Bool) {s : State} (h : 3 ≤ s.nb.toNat) :
    execBlkFixed f s = .next { s with
      final := f, acc := s.acc >>> 3, nb := s.nb - 3
      codeLL := fixedLL, codeD := fixedD, phase := .symbolLoop } := by
  rw [execBlkFixed, commitBlockHeader_of_le f h]
  rfl

theorem execBlkDynamic_of_le (f : Bool) {s : State} (h : 3 ≤ s.nb.toNat) :
    execBlkDynamic f s = .next { s with
      final := f, acc := s.acc >>> 3, nb := s.nb - 3, phase := .dynHeader } := by
  rw [execBlkDynamic, commitBlockHeader_of_le f h]
  rfl

/-- Error entry (R309) while a call is in progress. -/
theorem raise_of_call {e : Err} {s : State} {c : Call} (h : s.call = some c) :
    raise e s = .next (respond (.advanced e.code c.ip c.prod c.out)
      { s with phase := .error, err := e.code, call := none }) :=
  raise_next.mpr ⟨c, h, rfl⟩

/-- Settles O28: the three accepted types share the commit of the header; the reserved one is an
error entry. -/
theorem blockHeaders : Obligations.BlockHeaders := fun f _ h3 =>
  ⟨execBlkStored_of_le f h3, execBlkFixed_of_le f h3, execBlkDynamic_of_le f h3,
    fun _ hcall => raise_of_call hcall⟩

/-! ### The stored byte (R153) -/

/-- `emit` with room for the byte (R221). -/
theorem emit_of_room (b : Byte) {s : State} {c : Call} (hcall : s.call = some c)
    (hroom : c.off + c.prod < c.out.length) :
    emit b s = .next { s with
      call := some { c with out := c.out.set (c.off + c.prod) b, prod := c.prod + 1 }
      win := Memory.write s.win s.wp.toNat b
      wp := s.wp + 1
      hist := bumpHist s.hist
      ck := if s.ignoreCk then s.ck else ckFold s.wrap s.ck b } :=
  emit_next.mpr ⟨c, hcall, hroom, rfl⟩

theorem execSdata_of_stRem_eq_zero (b : Byte) {s : State} (h : s.stRem = 0) :
    execSdata b s = .next (endBlock s) :=
  if_pos h

/-- SDATA with bytes left to copy: missing input, then missing room, then the byte. -/
theorem execSdata_of_call (b : Byte) {s : State} {c : Call} (hcall : s.call = some c)
    (hrem : s.stRem ≠ 0) :
    execSdata b s =
      if c.inp.length ≤ c.ip then shortage s
      else if room s = 0 then stall s
      else andThen (emit b { s with call := some { c with ip := c.ip + 1 } }) fun t =>
        .next { t with stRem := t.stRem - 1 } := by
  rw [execSdata, if_neg hrem, hcall]

theorem execSdata_of_no_input (b : Byte) {s : State} {c : Call} (hcall : s.call = some c)
    (hrem : s.stRem ≠ 0) (hinp : c.inp.length ≤ c.ip) : execSdata b s = shortage s := by
  rw [execSdata_of_call b hcall hrem, if_pos hinp]

theorem execSdata_of_no_room (b : Byte) {s : State} {c : Call} (hcall : s.call = some c)
    (hrem : s.stRem ≠ 0) (hinp : c.ip < c.inp.length) (hroom : c.out.length ≤ c.off + c.prod) :
    execSdata b s = stall s := by
  rw [execSdata_of_call b hcall hrem, if_neg (Nat.not_le_of_lt hinp),
    if_pos ((room_eq_zero hcall).mpr hroom)]

/-- With a byte of input and room for it, the cursor moves and the byte is emitted. -/
theorem execSdata_of_room (b : Byte) {s : State} {c : Call} (hcall : s.call = some c)
    (hrem : s.stRem ≠ 0) (hinp : c.ip < c.inp.length) (hroom : c.off + c.prod < c.out.length) :
    execSdata b s = .next { s with
      call := some { c with
        ip := c.ip + 1, out := c.out.set (c.off + c.prod) b, prod := c.prod + 1 }
      win := Memory.write s.win s.wp.toNat b
      wp := s.wp + 1
      hist := bumpHist s.hist
      ck := if s.ignoreCk then s.ck else ckFold s.wrap s.ck b
      stRem := s.stRem - 1 } := by
  have hsome : room s ≠ 0 := fun h => Nat.not_le_of_lt hroom ((room_eq_zero hcall).mp h)
  rw [execSdata_of_call b hcall hrem, if_neg (Nat.not_le_of_lt hinp), if_neg hsome,
    emit_of_room b (c := { c with ip := c.ip + 1 }) rfl hroom, andThen_of_next]

/-- Settles O30: one lemma for each of the checks of SDATA, in their order. -/
theorem storedByte : Obligations.StoredByte := fun b _ _ hcall =>
  ⟨execSdata_of_stRem_eq_zero b, execSdata_of_room b hcall, execSdata_of_no_room b hcall,
    fun hrem hinp => (execSdata_of_no_input b hcall hrem hinp).trans (shortage_of_call hcall)⟩

end Sys2Proof.Machine
end

section
/-! Proofs for the symbol decoder (43_symbol_decoder.md): literals (R191), the end of a block (R162,
R192) and the invalid symbols (R196 to R198). -/

namespace Sys2Proof.Machine

/-! ### Literals (R191) -/

/-- LIT with its code word pending and room for its byte: the word is consumed and the byte is
emitted. -/
theorem execLit_of_room (b : Byte) {s : State} {c : Call} (hcall : s.call = some c)
    (hroom : c.off + c.prod < c.out.length) (hbits : llWidth s b.toNat ≤ s.nb.toNat) :
    execLit b s = .next { s with
      acc := s.acc >>> llWidth s b.toNat
      nb := s.nb - BitVec.ofNat 6 (llWidth s b.toNat)
      call := some { c with out := c.out.set (c.off + c.prod) b, prod := c.prod + 1 }
      win := Memory.write s.win s.wp.toNat b
      wp := s.wp + 1
      hist := bumpHist s.hist
      ck := if s.ignoreCk then s.ck else ckFold s.wrap s.ck b } := by
  have hsome : room s ≠ 0 := fun h => Nat.not_le_of_lt hroom ((room_eq_zero hcall).mp h)
  rw [execLit, if_neg hsome, consume_of_le hbits, andThen_of_next]
  exact emit_of_room b hcall hroom

theorem execLit_of_no_room (b : Byte) {s : State} {c : Call} (hcall : s.call = some c)
    (hroom : c.out.length ≤ c.off + c.prod) : execLit b s = stall s :=
  if_pos ((room_eq_zero hcall).mpr hroom)

/-- Settles O36: room is tested first, and with room the commit of the code word is followed by
`emit`. -/
theorem literal : Obligations.Literal := fun b _ _ hcall =>
  ⟨execLit_of_room b hcall, execLit_of_no_room b hcall⟩

/-! ### The end of a block (R162, R192) -/

/-- A block that is not the last is followed by another header. -/
theorem endBlock_of_not_final {s : State} (h : s.final = false) :
    endBlock s = { s with phase := .blockHeader } := by
  simp [endBlock, h]

/-- A RAW stream ends with its last block. -/
theorem endBlock_of_final_raw {s : State} (hf : s.final = true) (hw : s.wrap = .raw) :
    endBlock s = { s with phase := .done } := by
  simp [endBlock, hf, hw]

/-- A ZLIB stream goes on, at a byte boundary, with its trailer. -/
theorem endBlock_of_final_zlib {s : State} (hf : s.final = true) (hw : s.wrap = .zlib) :
    endBlock s = { s with acc := 0, nb := 0, phase := .trailer } := by
  simp [endBlock, hf, hw, align]

/-- EOB with its code word pending: whether there is room is not asked. -/
theorem execEob_of_le {s : State} (h : llWidth s 256 ≤ s.nb.toNat) :
    execEob s = .next (endBlock { s with
      acc := s.acc >>> llWidth s 256
      nb := s.nb - BitVec.ofNat 6 (llWidth s 256) }) := by
  rw [execEob, consume_of_le h, andThen_of_next]

/-- Settles O37: one lemma for each way `end_block` goes, and the commit of EOB before it. -/
theorem endOfBlock : Obligations.EndOfBlock := fun _ =>
  ⟨endBlock_of_not_final, endBlock_of_final_raw, endBlock_of_final_zlib, execEob_of_le⟩

/-! ### Invalid symbols (R196 to R198) -/

/-- Symbol 284 with extra value 31 is refused in the length step, before a distance symbol. -/
theorem execLen284_of_max (s : State) : execLen284 31 s = raise .invalidSymbol s := if_pos rfl

/-- Settles O41: each of the five instructions is the error entry of InvalidSymbol. -/
theorem invalidSymbolsRaise : Obligations.InvalidSymbolsRaise := by
  intro i s c hi hcall
  have hraise : exec i s = raise .invalidSymbol s := by
    obtain rfl | rfl | rfl | rfl | rfl := hi
    · rfl
    · rfl
    · rfl
    · rfl
    · exact execLen284_of_max s
  exact hraise.trans (raise_of_call hcall)

end Sys2Proof.Machine
end

section
/-! Proofs for the window copy (44_lz77_copy.md): the step of a back-reference (R224, R225). -/

namespace Sys2Proof.Machine

/-- In BACK_REFERENCE a step reads no element: it is the copy step itself. -/
theorem step_of_backReference {s : State} {c : Call} (hcall : s.call = some c)
    (hphase : s.phase = .backReference) : step s = backReference s := by
  simp [step_of_call hcall, expected, transfer, hphase]

theorem backReference_of_brLen_eq_zero {s : State} (h : s.brLen = 0) :
    backReference s = .next { s with phase := .symbolLoop } :=
  if_pos h

theorem backReference_of_no_room {s : State} {c : Call} (hcall : s.call = some c)
    (hlen : s.brLen ≠ 0) (hroom : c.out.length ≤ c.off + c.prod) : backReference s = stall s := by
  rw [backReference, if_neg hlen, if_pos ((room_eq_zero hcall).mpr hroom)]

/-- With a byte left to copy and room for it, the byte at distance `br_dist` is emitted and
counted. -/
theorem backReference_of_room {s : State} {c : Call} {b : Byte} (hcall : s.call = some c)
    (hlen : s.brLen ≠ 0) (hroom : c.off + c.prod < c.out.length)
    (hread : Memory.read s.win (windowSource s.wp s.brDist.toNat) = some b) :
    backReference s = .next { s with
      call := some { c with out := c.out.set (c.off + c.prod) b, prod := c.prod + 1 }
      win := Memory.write s.win s.wp.toNat b
      wp := s.wp + 1
      hist := bumpHist s.hist
      ck := if s.ignoreCk then s.ck else ckFold s.wrap s.ck b
      brLen := s.brLen - 1 } := by
  have hsome : room s ≠ 0 := fun h => Nat.not_le_of_lt hroom ((room_eq_zero hcall).mp h)
  simp only [backReference, if_neg hlen, if_neg hsome, hread]
  rw [emit_of_room b hcall hroom, andThen_of_next]

/-- Settles O45: one lemma for each of the three cases of the copy step, in the order of R224. -/
theorem backReferenceStep : Obligations.BackReferenceStep := by
  intro s c hcall hphase
  rw [step_of_backReference hcall hphase]
  exact ⟨backReference_of_brLen_eq_zero, backReference_of_no_room hcall,
    fun _ => backReference_of_room hcall⟩

end Sys2Proof.Machine
end

section
/-! Proofs for the wrapper and the checksum (45_wrapper_checksum.md): Adler-32 (R240) and the zlib
header (R243, R244). -/

namespace Sys2Proof.Machine

/-! ### Adler-32 (R240) -/

/-- The low half of a fold: the byte added to the low half of `ck`, reduced. -/
def adlerLow (ck : Word32) (b : Byte) : Nat := (ck.toNat % 65536 + b.toNat) % adlerMod

/-- The high half of a fold: the new low half added to the high half of `ck`, reduced. -/
def adlerHigh (ck : Word32) (b : Byte) : Nat := (ck.toNat / 65536 + adlerLow ck b) % adlerMod

theorem adlerLow_lt (ck : Word32) (b : Byte) : adlerLow ck b < 65521 :=
  Nat.mod_lt _ (by decide)

theorem adlerHigh_lt (ck : Word32) (b : Byte) : adlerHigh ck b < 65521 :=
  Nat.mod_lt _ (by decide)

theorem adlerFold_eq (ck : Word32) (b : Byte) :
    adlerFold ck b = BitVec.ofNat 32 (adlerHigh ck b * 65536 + adlerLow ck b) := rfl

/-- Both halves fit in 16 bits, so the word of the fold holds them without loss. -/
theorem adlerFold_toNat (ck : Word32) (b : Byte) :
    (adlerFold ck b).toNat = adlerHigh ck b * 65536 + adlerLow ck b := by
  have hlow := adlerLow_lt ck b
  have hhigh := adlerHigh_lt ck b
  rw [adlerFold_eq, BitVec.toNat_ofNat, Nat.mod_eq_of_lt (by omega)]

theorem adlerFold_toNat_mod (ck : Word32) (b : Byte) :
    (adlerFold ck b).toNat % 65536 = adlerLow ck b := by
  have hlow := adlerLow_lt ck b
  rw [adlerFold_toNat]
  omega

theorem adlerFold_toNat_div (ck : Word32) (b : Byte) :
    (adlerFold ck b).toNat / 65536 = adlerHigh ck b := by
  have hlow := adlerLow_lt ck b
  rw [adlerFold_toNat]
  omega

/-- Settles O25: the parameters are as R240 and D19 write them, and the two halves of the Adler-32
fold are read back from its word because both stay reduced. -/
theorem adlerFoldStaysReduced : Obligations.AdlerFoldStaysReduced :=
  ⟨rfl, rfl, fun _ _ => rfl, fun ck b =>
    ⟨adlerFold_eq ck b, adlerFold_toNat_mod ck b, adlerFold_toNat_div ck b,
      adlerLow_lt ck b, adlerHigh_lt ck b⟩⟩

/-! ### The zlib header (R243, R244) -/

/-- A header is bad exactly when FCHECK, CM, CINFO or FDICT fails. -/
theorem headerBad_iff (cmf flg : Byte) :
    headerBad cmf flg = true ↔
      (cmf.toNat * 256 + flg.toNat) % 31 ≠ 0 ∨ cmf.toNat % 16 ≠ 8 ∨ cmf.toNat / 16 > 7 ∨
        flg.getLsbD 5 = true := by
  simp only [headerBad, Bool.or_eq_true, decide_eq_true_eq, or_assoc]

/-- A header is good exactly when it passes all four checks. -/
theorem headerBad_eq_false_iff (cmf flg : Byte) :
    headerBad cmf flg = false ↔
      (cmf.toNat * 256 + flg.toNat) % 31 = 0 ∧ cmf.toNat % 16 = 8 ∧ cmf.toNat / 16 ≤ 7 ∧
        flg.getLsbD 5 = false := by
  rw [← Bool.not_eq_true, headerBad_iff]
  simp only [not_or, not_not, Bool.not_eq_true, Nat.not_lt]

theorem execZhdr_of_bad {cmf flg : Byte} (h : headerBad cmf flg = true) (s : State) :
    execZhdr cmf flg s = raise .malformedHeader s :=
  if_pos h

/-- A good header with its 16 bits pending is committed. -/
theorem execZhdr_of_good {cmf flg : Byte} {s : State} (h : headerBad cmf flg = false)
    (hbits : 16 ≤ s.nb.toNat) :
    execZhdr cmf flg s = .next { s with
      acc := s.acc >>> 16, nb := s.nb - 16, phase := .blockHeader } := by
  rw [execZhdr, if_neg (ne_true_of_eq_false h), consume_of_le hbits, andThen_of_next]
  rfl

/-- Settles O26: the four checks decide between the commit of the header and the error entry. -/
theorem zlibHeader : Obligations.ZlibHeader := fun cmf flg s =>
  ⟨fun hgood => execZhdr_of_good ((headerBad_eq_false_iff cmf flg).mpr hgood),
    fun hbad => execZhdr_of_bad ((headerBad_iff cmf flg).mpr hbad) s⟩

end Sys2Proof.Machine
end

section
/-! Proofs for the host interface (46_host_interface.md): IS_DONE, IGNORE_CHECKSUM and CHECKSUM
(R268 to R270). -/

namespace Sys2Proof.Machine

/-- The answer of IS_DONE is the test of the phase. -/
theorem exec_isDone (s : State) :
    exec .isDone s = .next (respond (.isDone (decide (s.phase = .done))) s) := rfl

theorem exec_isDone_of_done {s : State} (h : s.phase = .done) :
    exec .isDone s = .next (respond (.isDone true) s) := by
  rw [exec_isDone, decide_eq_true h]

theorem exec_isDone_of_ne_done {s : State} (h : s.phase ≠ .done) :
    exec .isDone s = .next (respond (.isDone false) s) := by
  rw [exec_isDone, decide_eq_false h]

theorem exec_ignoreChecksum (s : State) :
    exec .ignoreChecksum s = .next (respond .completed { s with ignoreCk := true }) := rfl

theorem exec_checksum (s : State) :
    exec .checksum s = .next (respond (.checksum s.ck) s) := rfl

/-- Settles O24: only IS_DONE tests anything, so it has one lemma for each answer; `respond` adds the
answer and leaves every other field. -/
theorem queryAndControlCommands : Obligations.QueryAndControlCommands := fun s =>
  ⟨exec_isDone_of_done, exec_isDone_of_ne_done, exec_ignoreChecksum s, exec_checksum s⟩

end Sys2Proof.Machine
end

section
/-! Proofs for the exceptions (60_exceptions.md): the ends of a call (R309, R263) and LEN with its
complement (R303, R152). -/

namespace Sys2Proof.Machine

/-! ### The ends of a call (R309, R263) -/

/-- A stall (R263, R108) while a call is in progress. -/
theorem stall_of_call {s : State} {c : Call} (h : s.call = some c) :
    stall s = .next (respond (.advanced statusOk c.ip c.prod c.out) { s with call := none }) :=
  finishCall_of_call h

/-- In DONE a step reads no element: the loop of the call ends with status 0 (R263). -/
theorem step_of_done {s : State} {c : Call} (hcall : s.call = some c) (hphase : s.phase = .done) :
    step s = stall s := by
  simp [step_of_call hcall, expected, transfer, hphase, stall]

/-- Settles O21: all three ends return through `finishCall`; in DONE the step is the stall. -/
theorem raiseStallAndDoneEndTheCall : Obligations.RaiseStallAndDoneEndTheCall := fun _ _ hcall =>
  ⟨fun _ => raise_of_call hcall, ⟨rfl, rfl, rfl, rfl, rfl, rfl, rfl⟩, stall_of_call hcall,
    fun hphase => (step_of_done hcall hphase).trans (stall_of_call hcall)⟩

/-! ### LEN and its complement (R303, R152) -/

theorem storedLengthOk_iff (len nlen : BitVec 16) :
    storedLengthOk len nlen = true ↔ nlen = len ^^^ 0xFFFF#16 :=
  decide_eq_true_iff

/-- With NLEN the complement and its 32 bits pending, LEN is committed. -/
theorem execSlen_of_ok {len nlen : BitVec 16} {s : State} (h : storedLengthOk len nlen = true)
    (hbits : 32 ≤ s.nb.toNat) :
    execSlen len nlen s = .next { s with
      acc := s.acc >>> 32, nb := s.nb - 32, stRem := len, phase := .storedCopy } := by
  rw [execSlen, if_neg (ne_false_of_eq_true h), consume_of_le hbits, andThen_of_next]
  rfl

theorem execSlen_of_not_ok {len nlen : BitVec 16} (h : storedLengthOk len nlen ≠ true)
    (s : State) : execSlen len nlen s = raise .malformedStoredLength s :=
  if_pos (Bool.eq_false_of_not_eq_true h)

/-- Settles O29: the test of NLEN decides between the commit of the 32 bits and the error entry. -/
theorem storedLength : Obligations.StoredLength := fun len nlen s =>
  ⟨fun hok => execSlen_of_ok ((storedLengthOk_iff len nlen).mpr hok),
    fun hbad => execSlen_of_not_ok (mt (storedLengthOk_iff len nlen).mp hbad) s⟩

end Sys2Proof.Machine
end

section
/-! Proofs for the canonical codes (41_huffman_tables.md): code words (R120, R121), the Kraft sum (R122),
and that no code word begins another. -/

namespace Sys2Proof.Machine

/-! ### The reversal of bits (R13): `rev n v` reads the first n bits of `v` as a code value -/

theorem rev_lt (n v : Nat) : rev n v < 2 ^ n := by
  induction n generalizing v with
  | zero => simp [rev]
  | succ n ih =>
    have hbit : v % 2 * 2 ^ n ≤ 1 * 2 ^ n := Nat.mul_le_mul_right _ (by omega)
    have hrest := ih (v / 2)
    rw [rev, Nat.pow_succ]
    omega

/-- One more bit comes in below the bits read before it. -/
theorem rev_succ (n v : Nat) : rev (n + 1) v = 2 * rev n v + v / 2 ^ n % 2 := by
  induction n generalizing v with
  | zero => simp [rev]
  | succ n ih =>
    have hdiv : v / 2 / 2 ^ n = v / 2 ^ (n + 1) := by rw [Nat.div_div_eq_div_mul, Nat.pow_succ']
    rw [rev, ih (v / 2), hdiv, rev]
    ring

/-- The first m bits of the n read. -/
theorem rev_shiftRight {m n : Nat} (h : m ≤ n) (v : Nat) : rev n v >>> (n - m) = rev m v := by
  induction n, h using Nat.le_induction with
  | base => simp
  | succ n hmn ih =>
    have hlast : rev (n + 1) v >>> 1 = rev n v := by
      rw [rev_succ, Nat.shiftRight_eq_div_pow]
      omega
    rw [Nat.sub_add_comm hmn, Nat.add_comm (n - m), Nat.shiftRight_add, hlast, ih]

/-- Only the low n bits are read. -/
theorem rev_mod (n v : Nat) : rev n (v % 2 ^ n) = rev n v := by
  induction n generalizing v with
  | zero => rfl
  | succ n ih =>
    have hlow : v % 2 ^ (n + 1) % 2 = v % 2 :=
      Nat.mod_mod_of_dvd _ (Dvd.intro_left _ (Nat.pow_succ ..).symm)
    have hhigh : v % 2 ^ (n + 1) / 2 = v / 2 % 2 ^ n := by
      rw [Nat.pow_succ', Nat.mod_mul_right_div_self]
    rw [rev, rev, hlow, hhigh, ih]

theorem rev_rev (n v : Nat) : rev n (rev n v) = v % 2 ^ n := by
  induction n generalizing v with
  | zero => simp [rev, Nat.mod_one]
  | succ n ih =>
    have hhigh : (v % 2 * 2 ^ n + rev n (v / 2)) / 2 ^ n % 2 = v % 2 := by
      rw [Nat.add_comm, Nat.add_mul_div_right _ _ (Nat.two_pow_pos n),
        Nat.div_eq_of_lt (rev_lt n _)]
      omega
    have hlow : rev n (v % 2 * 2 ^ n + rev n (v / 2)) = v / 2 % 2 ^ n := by
      rw [← rev_mod, Nat.add_comm, Nat.add_mul_mod_self_right, rev_mod, ih]
    rw [rev_succ, rev, hhigh, hlow, Nat.pow_succ', Nat.mod_mul, Nat.add_comm]

/-- Bits in stream order against a code value (R121). -/
theorem mod_eq_rev_iff {n v c : Nat} (hc : c < 2 ^ n) : v % 2 ^ n = rev n c ↔ rev n v = c := by
  constructor
  · intro h
    rw [← rev_mod, h, rev_rev, Nat.mod_eq_of_lt hc]
  · rintro rfl
    rw [rev_rev]

/-! ### The first code value of each length (R120) -/

/-- The first code value of length `l`: it follows the code words of the shorter lengths. -/
def firstCode (x : Lengths) : Nat → Nat
  | 0 => 0
  | l + 1 => (firstCode x l + blCount x l) * 2

theorem firstCodes_eq (x : Lengths) (a n : Nat) :
    firstCodes ((List.range' a n).map (blCount x)) (firstCode x a) =
      (List.range' (a + 1) n).map (firstCode x) := by
  induction n generalizing a with
  | zero => rfl
  | succ n ih =>
    simp only [List.range'_succ, List.map_cons, firstCodes]
    rw [← firstCode, ih (a + 1)]

theorem nextTable_eq (x : Lengths) :
    nextTable x = (List.range (Config.maxLen + 1)).map (firstCode x) := by
  have h : firstCodes ((List.range' 0 Config.maxLen).map (blCount x)) 0 =
      (List.range' 1 Config.maxLen).map (firstCode x) := firstCodes_eq x 0 Config.maxLen
  rw [nextTable, List.range_eq_range', h, List.range_eq_range', List.range'_succ, List.map_cons,
    firstCode]

theorem nextTable_getD (x : Lengths) {l : Nat} (h : l ≤ Config.maxLen) :
    (nextTable x).getD l 0 = firstCode x l := by
  rw [nextTable_eq, List.getD_eq_getElem?_getD, List.getElem?_map,
    List.getElem?_range (Nat.lt_succ_of_le h)]
  rfl

/-- The code words of the longer lengths stand after those of length `l`. -/
theorem firstCode_grows (x : Lengths) {l m : Nat} (h : l < m) :
    (firstCode x l + blCount x l) * 2 ^ (m - l) ≤ firstCode x m := by
  induction m, h using Nat.le_induction with
  | base => simp [firstCode]
  | succ m hlm ih =>
    have hpow : 2 ^ (m + 1 - l) = 2 ^ (m - l) * 2 := by
      rw [← Nat.pow_succ, Nat.sub_add_comm (Nat.le_of_lt hlm)]
    rw [firstCode, hpow, ← Nat.mul_assoc]
    exact Nat.mul_le_mul_right 2 (ih.trans (Nat.le_add_right _ _))

/-! ### The Kraft sum (R122) by lengths -/

/-- The share of the code space that the code words shorter than `l` take. -/
def kraftBelow (x : Lengths) (l : Nat) : Nat :=
  ∑ j ∈ Finset.range l, blCount x j * 2 ^ (Config.maxLen - j)

theorem firstCode_scaled (x : Lengths) {l : Nat} (h : l ≤ Config.maxLen) :
    firstCode x l * 2 ^ (Config.maxLen - l) = kraftBelow x l := by
  induction l with
  | zero => simp [firstCode, kraftBelow]
  | succ l ih =>
    have hpow : 2 ^ (Config.maxLen - l) = 2 * 2 ^ (Config.maxLen - (l + 1)) := by
      rw [← Nat.pow_succ']
      congr 1
      omega
    have hih : firstCode x l * 2 ^ (Config.maxLen - l) = kraftBelow x l :=
      ih (Nat.le_of_succ_le h)
    rw [firstCode, Nat.mul_assoc, ← hpow, Nat.add_mul, hih, kraftBelow, kraftBelow,
      Finset.sum_range_succ]

theorem blCount_cons (l : Nat) (x : Lengths) (j : Nat) :
    blCount (l :: x) j = blCount x j + if l = j ∧ j ≠ 0 then 1 else 0 := by
  unfold blCount
  by_cases hj : j = 0
  · simp [hj]
  · simp [hj, List.count_cons]

theorem kraft_cons (l : Nat) (x : Lengths) :
    kraft (l :: x) = (if l = 0 then 0 else 2 ^ (Config.maxLen - l)) + kraft x := by
  simp [kraft]

/-- The Kraft sum adds the code words up length by length. -/
theorem kraft_eq_kraftBelow {x : Lengths} (hx : ∀ l ∈ x, l ≤ Config.maxLen) :
    kraft x = kraftBelow x (Config.maxLen + 1) := by
  induction x with
  | nil => simp [kraft, kraftBelow, blCount]
  | cons l x ih =>
    obtain ⟨hl, hrest⟩ := List.forall_mem_cons.mp hx
    have hone : ∑ j ∈ Finset.range (Config.maxLen + 1),
        (if l = j ∧ j ≠ 0 then 1 else 0) * 2 ^ (Config.maxLen - j) =
          if l = 0 then 0 else 2 ^ (Config.maxLen - l) := by
      rw [Finset.sum_eq_single_of_mem l (Finset.mem_range.mpr (Nat.lt_succ_of_le hl))]
      · by_cases h0 : l = 0 <;> simp [h0]
      · intro j _ hne
        simp [Ne.symm hne]
    rw [kraft_cons, ih hrest, ← hone, kraftBelow, kraftBelow, ← Finset.sum_add_distrib]
    refine Finset.sum_congr rfl fun j _ => ?_
    rw [blCount_cons, Nat.add_mul, Nat.add_comm]

/-- In a code that fits, the code values of length `l` end inside their l bits. -/
theorem codeEnd_le {x : Lengths} (hx : CodeFits x) {l : Nat} (h : l ≤ Config.maxLen) :
    firstCode x l + blCount x l ≤ 2 ^ l := by
  have hsub : kraftBelow x (l + 1) ≤ kraftBelow x (Config.maxLen + 1) :=
    Finset.sum_le_sum_of_subset (Finset.range_subset_range.mpr (Nat.succ_le_succ h))
  have hsum : (firstCode x l + blCount x l) * 2 ^ (Config.maxLen - l) = kraftBelow x (l + 1) := by
    rw [Nat.add_mul, firstCode_scaled x h, kraftBelow, kraftBelow, Finset.sum_range_succ]
  have hall : (firstCode x l + blCount x l) * 2 ^ (Config.maxLen - l) ≤
      2 ^ l * 2 ^ (Config.maxLen - l) := by
    rw [hsum, ← Nat.pow_add, Nat.add_sub_cancel' h]
    exact hsub.trans (kraft_eq_kraftBelow hx.1 ▸ hx.2)
  exact Nat.le_of_mul_le_mul_right hall (Nat.two_pow_pos _)

/-- In a complete code the code values of the greatest length end at the last value. -/
theorem codeEnd_of_complete {x : Lengths} (hx : ∀ l ∈ x, l ≤ Config.maxLen)
    (hc : complete x = true) :
    firstCode x Config.maxLen + blCount x Config.maxLen = 2 ^ Config.maxLen := by
  have hsum := firstCode_scaled x (Nat.le_refl Config.maxLen)
  rw [Nat.sub_self, Nat.pow_zero, Nat.mul_one] at hsum
  rw [← of_decide_eq_true hc, kraft_eq_kraftBelow hx, hsum, kraftBelow, kraftBelow,
    Finset.sum_range_succ, Nat.sub_self, Nat.pow_zero, Nat.mul_one]

theorem codeFits_of_complete {x : Lengths} (hx : ∀ l ∈ x, l ≤ Config.maxLen)
    (hc : complete x = true) : CodeFits x :=
  ⟨hx, Nat.le_of_eq (of_decide_eq_true hc)⟩

/-! ### The code words (R120) -/

/-- What the loop of R120 assigns: the symbols of each length take its values one after the other. -/
theorem mem_assignCodes {x : Lengths} {next : List Nat} {base : Nat} {w : CodeWord}
    (hx : ∀ l ∈ x, l < next.length) :
    w ∈ assignCodes x next base ↔ ∃ i l, x[i]? = some l ∧ l ≠ 0 ∧
      w = ⟨base + i, l, next.getD l 0 + (x.take i).count l⟩ := by
  induction x generalizing next base with
  | nil => simp [assignCodes]
  | cons m rest ih =>
    obtain ⟨hm, hrest⟩ := List.forall_mem_cons.mp hx
    rw [← Nat.or_exists_add_one]
    simp only [List.getElem?_cons_zero, List.getElem?_cons_succ, List.take_succ_cons,
      List.take_zero, List.count_nil, List.count_cons, beq_iff_eq, Option.some.injEq,
      exists_eq_left', Nat.add_zero]
    by_cases h0 : m = 0
    · -- an unused symbol changes no count of a used length
      rw [assignCodes, if_pos h0, ih hrest]
      constructor
      · rintro ⟨i, l, hi, hl, rfl⟩
        exact .inr ⟨i, l, hi, hl, by simp [h0, Ne.symm hl, Nat.add_assoc, Nat.add_comm 1]⟩
      · rintro (⟨hne, -⟩ | ⟨i, l, hi, hl, rfl⟩)
        · exact absurd h0 hne
        · exact ⟨i, l, hi, hl, by simp [h0, Ne.symm hl, Nat.add_assoc, Nat.add_comm 1]⟩
    · have hset : ∀ l n, (next.set m (next.getD m 0 + 1)).getD l 0 + n =
          next.getD l 0 + (n + if m = l then 1 else 0) := by
        intro l n
        by_cases hl : m = l
        · subst hl
          simp [hm]
          omega
        · simp [hl]
      have hbase : ∀ i, base + 1 + i = base + (i + 1) := fun i => by omega
      rw [assignCodes, if_neg h0, List.mem_cons, ih (by simpa using hrest)]
      simp only [hset, hbase, ne_eq, h0, not_false_eq_true, true_and]

/-- The code words of a code: every used symbol has the first code value of its length plus the
number of earlier symbols of that length (R120). -/
theorem mem_codeWords {x : Lengths} (hx : ∀ l ∈ x, l ≤ Config.maxLen) {w : CodeWord} :
    w ∈ codeWords x ↔ x[w.sym]? = some w.len ∧ w.len ≠ 0 ∧
      w.code = firstCode x w.len + (x.take w.sym).count w.len := by
  have hnext : ∀ l ∈ x, l < (nextTable x).length := fun l hl => by
    rw [length_nextTable]
    exact Nat.lt_succ_of_le (hx l hl)
  rw [codeWords, mem_assignCodes hnext]
  constructor
  · rintro ⟨i, l, hi, hl, rfl⟩
    rw [Nat.zero_add, nextTable_getD x (hx l (List.mem_of_getElem? hi))]
    exact ⟨hi, hl, rfl⟩
  · rintro ⟨hi, hl, hc⟩
    refine ⟨w.sym, w.len, hi, hl, ?_⟩
    rw [Nat.zero_add, nextTable_getD x (hx _ (List.mem_of_getElem? hi)), ← hc]

theorem codeWords_len_le {x : Lengths} (hx : ∀ l ∈ x, l ≤ Config.maxLen) {w : CodeWord}
    (hw : w ∈ codeWords x) : w.len ≤ Config.maxLen :=
  hx _ (List.mem_of_getElem? ((mem_codeWords hx).mp hw).1)

/-- A symbol has one code word. -/
theorem codeWords_unique {x : Lengths} (hx : ∀ l ∈ x, l ≤ Config.maxLen) {w u : CodeWord}
    (hw : w ∈ codeWords x) (hu : u ∈ codeWords x) (h : w.sym = u.sym) : w = u := by
  obtain ⟨hw1, -, hw3⟩ := (mem_codeWords hx).mp hw
  obtain ⟨hu1, -, hu3⟩ := (mem_codeWords hx).mp hu
  have hlen : w.len = u.len := Option.some.inj (hw1.symm.trans (h ▸ hu1))
  cases w
  cases u
  simp_all

/-- The earlier symbols of the length of a used symbol are fewer than all of that length. -/
theorem count_take_lt {x : Lengths} {s l t : Nat} (hs : x[s]? = some l) (hst : s < t) :
    (x.take s).count l < (x.take t).count l := by
  have htake : x.take (s + 1) = x.take s ++ [l] := by rw [List.take_add_one, hs]; rfl
  have hle : (x.take (s + 1)).count l ≤ (x.take t).count l :=
    (List.take_sublist_take_left hst).count_le l
  rw [htake, List.count_append, List.count_singleton_self] at hle
  exact hle

theorem count_take_lt_blCount {x : Lengths} {s l : Nat} (hs : x[s]? = some l) (hl : l ≠ 0) :
    (x.take s).count l < blCount x l := by
  obtain ⟨hlt, -⟩ := List.getElem?_eq_some_iff.mp hs
  have h := count_take_lt hs hlt
  rwa [List.take_length, ← if_neg (c := l = 0) (t := 0) (e := x.count l) hl] at h

/-- A code value of length `l` stands between the first one and the end of its length. -/
theorem codeWords_code_range {x : Lengths} (hx : ∀ l ∈ x, l ≤ Config.maxLen) {w : CodeWord}
    (hw : w ∈ codeWords x) :
    firstCode x w.len ≤ w.code ∧ w.code < firstCode x w.len + blCount x w.len := by
  obtain ⟨hs, hl, hc⟩ := (mem_codeWords hx).mp hw
  have := count_take_lt_blCount hs hl
  omega

theorem codeWords_code_lt {x : Lengths} (hx : CodeFits x) {w : CodeWord} (hw : w ∈ codeWords x) :
    w.code < 2 ^ w.len :=
  (codeWords_code_range hx.1 hw).2.trans_le (codeEnd_le hx (codeWords_len_le hx.1 hw))

/-- The word that begins another word is that word: among words of one length the value counts the
earlier symbols, and the values of a longer length stand after all words of a shorter one. -/
theorem codeWords_begin_unique {x : Lengths} (hx : ∀ l ∈ x, l ≤ Config.maxLen) {w u : CodeWord}
    (hw : w ∈ codeWords x) (hu : u ∈ codeWords x) (hlen : w.len ≤ u.len)
    (hbegin : u.code >>> (u.len - w.len) = w.code) : u = w := by
  obtain ⟨hws, -, hwc⟩ := (mem_codeWords hx).mp hw
  obtain ⟨hus, -, huc⟩ := (mem_codeWords hx).mp hu
  rcases Nat.eq_or_lt_of_le hlen with heq | hlt
  · rw [heq, Nat.sub_self, Nat.shiftRight_zero] at hbegin
    rw [← heq] at hus huc
    refine codeWords_unique hx hu hw ?_
    rcases Nat.lt_trichotomy u.sym w.sym with h | h | h
    · have := count_take_lt hus h
      omega
    · exact h
    · have := count_take_lt hws h
      omega
  · have hend : firstCode x w.len + blCount x w.len ≤ u.code >>> (u.len - w.len) := by
      rw [Nat.shiftRight_eq_div_pow, Nat.le_div_iff_mul_le (Nat.two_pow_pos _)]
      exact (firstCode_grows x hlt).trans (codeWords_code_range hx hu).1
    have := (codeWords_code_range hx hw).2
    omega

/-- Settles O3: the values of each length end inside its bits, and the values of a longer length
stand after every word of a shorter one. -/
theorem canonicalCodeWordsArePrefixFree : Obligations.CanonicalCodeWordsArePrefixFree :=
  fun _ hx => ⟨fun _ => codeWords_code_lt hx, fun _ hw _ hu => codeWords_begin_unique hx.1 hw hu⟩

end Sys2Proof.Machine
end

section
/-! Proofs for the normative decode (41_huffman_tables.md, R129), the primary table (R126 to R130)
and the counting fallback (R131, R132). -/

namespace Sys2Proof.Machine

/-! ### Decode (R129) against the code values -/

theorem isPrefixOf_iff {w : CodeWord} (hw : w.code < 2 ^ w.len) {v k : Nat} :
    w.isPrefixOf v k = true ↔ w.len ≤ k ∧ rev w.len v = w.code := by
  simp only [CodeWord.isPrefixOf, Bool.and_eq_true, decide_eq_true_eq, mod_eq_rev_iff hw]

theorem extendsBits_iff {w : CodeWord} (hw : w.code < 2 ^ w.len) {v k : Nat} :
    w.extendsBits v k = true ↔ k < w.len ∧ rev k v = w.code >>> (w.len - k) := by
  simp only [CodeWord.extendsBits, Bool.and_eq_true, decide_eq_true_eq]
  refine and_congr_right fun hk => mod_eq_rev_iff ?_
  rw [Nat.shiftRight_eq_div_pow]
  apply Nat.div_lt_of_lt_mul
  rwa [← Nat.pow_add, Nat.sub_add_cancel (Nat.le_of_lt hk)]

/-- A window begins with at most one code word. -/
theorem codeWords_reads_unique {x : Lengths} (hx : ∀ l ∈ x, l ≤ Config.maxLen) {w u : CodeWord}
    {v : Nat} (hw : w ∈ codeWords x) (hu : u ∈ codeWords x) (hwv : rev w.len v = w.code)
    (huv : rev u.len v = u.code) : u = w := by
  rcases Nat.le_total w.len u.len with h | h
  · exact codeWords_begin_unique hx hw hu h (by rw [← huv, rev_shiftRight h, hwv])
  · exact (codeWords_begin_unique hx hu hw h (by rw [← hwv, rev_shiftRight h, huv])).symm

/-- Bits that begin a longer code word are a want of more bits. -/
theorem decodeSym_of_extends {x : Lengths} (hx : CodeFits x) {w : CodeWord} (hw : w ∈ codeWords x)
    {v k : Nat} (hk : k < w.len) (hv : rev k v = w.code >>> (w.len - k)) :
    decodeSym x v k = .needMore := by
  have hnone : (codeWords x).find? (fun u => u.isPrefixOf v k) = none := by
    rw [List.find?_eq_none]
    intro u hu hp
    obtain ⟨huk, huv⟩ := (isPrefixOf_iff (codeWords_code_lt hx hu)).mp hp
    have hle : u.len ≤ w.len := by omega
    have hsub : w.len - u.len = (w.len - k) + (k - u.len) := by omega
    have : w = u := codeWords_begin_unique hx.1 hu hw hle (by
      rw [hsub, Nat.shiftRight_add, ← hv, rev_shiftRight huk, huv])
    subst this
    omega
  have hany : (codeWords x).any (fun u => u.extendsBits v k) = true :=
    List.any_eq_true.mpr ⟨w, hw, (extendsBits_iff (codeWords_code_lt hx hw)).mpr ⟨hk, hv⟩⟩
  rw [decodeSym, hnone]
  exact if_pos hany

/-- A window that begins with a code word: its symbol when the whole word is known, a want of more
bits when only a part of it is. -/
theorem decodeSym_of_reads {x : Lengths} (hx : CodeFits x) {w : CodeWord} (hw : w ∈ codeWords x)
    {v : Nat} (hv : rev w.len v = w.code) (k : Nat) :
    decodeSym x v k = if w.len ≤ k then .sym w.sym w.len else .needMore := by
  split
  · next hk =>
    have hp := (isPrefixOf_iff (codeWords_code_lt hx hw)).mpr ⟨hk, hv⟩
    cases hf : (codeWords x).find? (fun u => u.isPrefixOf v k) with
    | none => exact absurd hp (by simpa using List.find?_eq_none.mp hf w hw)
    | some u =>
      have hu := List.mem_of_find?_eq_some hf
      have hup := List.find?_some hf
      obtain ⟨-, huv⟩ := (isPrefixOf_iff (codeWords_code_lt hx hu)).mp hup
      obtain rfl := codeWords_reads_unique hx.1 hw hu hv huv
      rw [decodeSym, hf]
  · next hk =>
    have hk := Nat.lt_of_not_le hk
    exact decodeSym_of_extends hx hw hk (by rw [← hv, rev_shiftRight (Nat.le_of_lt hk)])

theorem decodeSym_eq_sym_iff {x : Lengths} (hx : CodeFits x) {v k s len : Nat} :
    decodeSym x v k = .sym s len ↔
      ∃ w ∈ codeWords x, w.sym = s ∧ w.len = len ∧ len ≤ k ∧ rev len v = w.code := by
  constructor
  · intro h
    obtain ⟨w, hw, hs, rfl, hk, hv⟩ := decodeSym_sym h
    exact ⟨w, hw, hs, rfl, hk, (mod_eq_rev_iff (codeWords_code_lt hx hw)).mp hv⟩
  · rintro ⟨w, hw, rfl, rfl, hk, hv⟩
    rw [decodeSym_of_reads hx hw hv, if_pos hk]

theorem decodeSym_eq_needMore_iff {x : Lengths} (hx : CodeFits x) {v k : Nat} :
    decodeSym x v k = .needMore ↔
      ∃ w ∈ codeWords x, k < w.len ∧ rev k v = w.code >>> (w.len - k) := by
  constructor
  · intro h
    unfold decodeSym at h
    split at h
    · cases h
    · split at h
      · next hany =>
        obtain ⟨w, hw, he⟩ := List.any_eq_true.mp hany
        exact ⟨w, hw, (extendsBits_iff (codeWords_code_lt hx hw)).mp he⟩
      · cases h
  · rintro ⟨w, hw, hk, hv⟩
    exact decodeSym_of_extends hx hw hk hv

/-- Only the known bits of a window count. -/
theorem decodeSym_mod (x : Lengths) (v k : Nat) : decodeSym x (v % 2 ^ k) k = decodeSym x v k := by
  have hp : ∀ w : CodeWord, w.isPrefixOf (v % 2 ^ k) k = w.isPrefixOf v k := fun w => by
    unfold CodeWord.isPrefixOf
    by_cases h : w.len ≤ k
    · rw [Nat.mod_mod_of_dvd _ (Nat.pow_dvd_pow 2 h)]
    · simp [h]
  have he : ∀ w : CodeWord, w.extendsBits (v % 2 ^ k) k = w.extendsBits v k := fun w => by
    rw [CodeWord.extendsBits, CodeWord.extendsBits, Nat.mod_mod]
  simp only [decodeSym, hp, he]

/-! ### The symbols of one length, and which of them a code value stands for -/

/-- The symbols of length `l`, in rising order. -/
def symsOfLen (x : Lengths) (l : Nat) : List Nat :=
  (List.range x.length).filter fun s => decide (x.getD s 0 = l)

/-- The r-th number below n with a property is the one with r such numbers below it. -/
theorem getElem?_filter_range {p : Nat → Bool} {n r s : Nat}
    (h : ((List.range n).filter p)[r]? = some s) :
    s < n ∧ p s = true ∧ ((List.range s).filter p).length = r := by
  induction n with
  | zero => simp at h
  | succ n ih =>
    rw [List.range_succ, List.filter_append, List.getElem?_append] at h
    split at h
    · obtain ⟨h1, h2⟩ := ih h
      exact ⟨Nat.lt_succ_of_lt h1, h2⟩
    · next hr =>
      cases hp : p n with
      | false => simp [hp] at h
      | true =>
        have hlast : [n][r - ((List.range n).filter p).length]? = some s := by simpa [hp] using h
        obtain ⟨hzero, rfl⟩ : r - ((List.range n).filter p).length = 0 ∧ n = s := by
          simpa [List.getElem?_singleton] using hlast
        exact ⟨Nat.lt_succ_self n, hp, by omega⟩

theorem length_filter_range_getD {x : Lengths} {l s : Nat} (hs : s ≤ x.length) :
    ((List.range s).filter fun i => decide (x.getD i 0 = l)).length = (x.take s).count l := by
  induction s with
  | zero => simp
  | succ s ih =>
    rw [List.range_succ, List.filter_append, List.length_append, ih (Nat.le_of_succ_le hs),
      List.take_succ_eq_append_getElem hs, List.count_append, List.count_singleton]
    by_cases h : x[s] = l <;> simp [h, List.getElem?_eq_getElem (Nat.lt_of_succ_le hs)]

theorem length_symsOfLen (x : Lengths) {l : Nat} (hl : l ≠ 0) :
    (symsOfLen x l).length = blCount x l := by
  rw [symsOfLen, length_filter_range_getD (Nat.le_refl _), List.take_length, blCount, if_neg hl]

/-- The r-th symbol of a length has the r-th code value of the length. -/
theorem codeWord_of_rank {x : Lengths} (hx : ∀ l ∈ x, l ≤ Config.maxLen) {l r s : Nat} (hl : l ≠ 0)
    (h : (symsOfLen x l)[r]? = some s) : ⟨s, l, firstCode x l + r⟩ ∈ codeWords x := by
  obtain ⟨hs, hp, hr⟩ := getElem?_filter_range h
  have hget : x[s]? = some l := by
    have := of_decide_eq_true hp
    rw [List.getD_eq_getElem?_getD, List.getElem?_eq_getElem hs] at this
    rw [List.getElem?_eq_getElem hs]
    exact congrArg some this
  refine (mem_codeWords hx).mpr ⟨hget, hl, ?_⟩
  rw [← hr, length_filter_range_getD (Nat.le_of_lt hs)]

/-- How many symbols are shorter than `l`: where the symbols of length `l` stand in `sorted_X`. -/
def shorterCount (x : Lengths) (l : Nat) : Nat := ∑ j ∈ Finset.range l, blCount x j

/-- Indexing a concatenation by a place in one of its parts. -/
theorem getElem?_flatMap_range {f : Nat → List Nat} {n m r : Nat} (hm : m < n)
    (hr : r < (f m).length) :
    ((List.range n).flatMap f)[(∑ j ∈ Finset.range m, (f j).length) + r]? = (f m)[r]? := by
  have hlen : ∀ n, ((List.range n).flatMap f).length = ∑ j ∈ Finset.range n, (f j).length := by
    intro n
    induction n with
    | zero => rfl
    | succ n ih => simp [List.range_succ, ih, Finset.sum_range_succ]
  induction n with
  | zero => exact absurd hm (Nat.not_lt_zero m)
  | succ n ih =>
    rw [List.range_succ, List.flatMap_append, List.flatMap_singleton, List.getElem?_append, hlen]
    rcases Nat.eq_or_lt_of_le (Nat.le_of_lt_succ hm) with rfl | hlt
    · rw [if_neg (by omega), Nat.add_sub_cancel_left]
    · have hsub : ∑ j ∈ Finset.range (m + 1), (f j).length ≤ ∑ j ∈ Finset.range n, (f j).length :=
        Finset.sum_le_sum_of_subset (Finset.range_subset_range.mpr hlt)
      rw [Finset.sum_range_succ] at hsub
      rw [if_pos (by omega), ih hlt]

theorem sortedSyms_getElem? {x : Lengths} {l r : Nat} (hl : l < Config.maxLen)
    (hr : r < blCount x (l + 1)) :
    (sortedSyms x)[shorterCount x (l + 1) + r]? = (symsOfLen x (l + 1))[r]? := by
  have hlen : ∀ j, (symsOfLen x (j + 1)).length = blCount x (j + 1) := fun j =>
    length_symsOfLen x (Nat.succ_ne_zero j)
  have hsum : shorterCount x (l + 1) =
      ∑ j ∈ Finset.range l, (symsOfLen x (j + 1)).length := by
    rw [shorterCount, Finset.sum_range_succ', blCount, if_pos rfl, Nat.add_zero]
    exact Finset.sum_congr rfl fun j _ => (hlen j).symm
  rw [hsum]
  exact getElem?_flatMap_range (f := fun j => symsOfLen x (j + 1)) hl (by rwa [hlen])

/-! ### Complete codes -/

/-- While the bits read are not below the end of their length, no code word has been read. -/
theorem not_reads_of_codeEnd_le {x : Lengths} (hx : ∀ l ∈ x, l ≤ Config.maxLen) {v l : Nat}
    (hl : firstCode x l + blCount x l ≤ rev l v) {w : CodeWord} (hw : w ∈ codeWords x)
    (hwl : w.len ≤ l) : rev w.len v ≠ w.code := by
  intro hwv
  have hlt := (codeWords_code_range hx hw).2
  have hend : firstCode x w.len + blCount x w.len ≤ rev w.len v := by
    rcases Nat.eq_or_lt_of_le hwl with rfl | h
    · exact hl
    · rw [← rev_shiftRight hwl, Nat.shiftRight_eq_div_pow, Nat.le_div_iff_mul_le (Nat.two_pow_pos _)]
      have := firstCode_grows x h
      omega
  omega

/-- The first code value of the next length is not above the bits read, if the end of this length
is not. -/
theorem firstCode_succ_le {x : Lengths} {v l : Nat}
    (hl : firstCode x l + blCount x l ≤ rev l v) : firstCode x (l + 1) ≤ rev (l + 1) v := by
  rw [firstCode, rev_succ]
  omega

/-- Bits that stand between the first value and the end of their length are a code word. -/
theorem codeWord_of_range {x : Lengths} (hx : ∀ l ∈ x, l ≤ Config.maxLen) {l c : Nat} (hl : l ≠ 0)
    (h1 : firstCode x l ≤ c) (h2 : c < firstCode x l + blCount x l) :
    ∃ s, (symsOfLen x l)[c - firstCode x l]? = some s ∧ ⟨s, l, c⟩ ∈ codeWords x := by
  have hr : c - firstCode x l < (symsOfLen x l).length := by
    rw [length_symsOfLen x hl]
    omega
  refine ⟨_, List.getElem?_eq_getElem hr, ?_⟩
  have h := codeWord_of_rank hx hl (List.getElem?_eq_getElem hr)
  rwa [Nat.add_sub_cancel' h1] at h

/-- With a complete code every window begins with a code word. -/
theorem exists_reads_of_complete {x : Lengths} (hx : ∀ l ∈ x, l ≤ Config.maxLen)
    (hc : complete x = true) (v : Nat) : ∃ w ∈ codeWords x, rev w.len v = w.code := by
  have hlast : ∃ l, rev l v < firstCode x l + blCount x l :=
    ⟨Config.maxLen, codeEnd_of_complete hx hc ▸ rev_lt _ v⟩
  cases hl : Nat.find hlast with
  | zero =>
    have h := Nat.find_spec hlast
    rw [hl] at h
    simp [firstCode, blCount] at h
  | succ l =>
    have hin := Nat.find_spec hlast
    have hout := Nat.find_min hlast (m := l) (by omega)
    rw [hl] at hin
    obtain ⟨s, -, hw⟩ := codeWord_of_range hx (Nat.succ_ne_zero l)
      (firstCode_succ_le (Nat.le_of_not_lt hout)) hin
    exact ⟨_, hw, rfl⟩

/-! ### The corner cases of Decode (R129) -/

/-- Only the code with no used symbol has no code word. -/
theorem exists_codeWord_iff {x : Lengths} :
    (∃ w, w ∈ codeWords x) ↔ x.all (fun l => decide (l = 0)) = false := by
  rw [List.all_eq_false]
  constructor
  · rintro ⟨w, hw⟩
    obtain ⟨h1, h2⟩ := codeWords_len hw
    refine ⟨w.len, ?_, by simpa using h2⟩
    rw [← h1, List.getD_eq_getElem?_getD] at h2 ⊢
    cases hs : x[w.sym]? with
    | none => simp [hs] at h2
    | some l => exact List.mem_of_getElem? hs
  · rintro ⟨l, hl, h0⟩
    obtain ⟨s, hs, rfl⟩ := List.getElem_of_mem hl
    obtain ⟨w, hw, -⟩ := codeWords_sym (x := x) (s := s) (by simpa [hs] using h0)
    exact ⟨w, hw⟩

theorem decodeSym_zero {x : Lengths} (hx : CodeFits x) (v : Nat) :
    decodeSym x v 0 = if x.all (fun l => decide (l = 0)) then .invalid else .needMore := by
  cases hall : x.all (fun l => decide (l = 0)) with
  | false =>
    obtain ⟨w, hw⟩ := exists_codeWord_iff.mpr hall
    refine decodeSym_of_extends hx hw (Nat.pos_of_ne_zero (codeWords_len hw).2) ?_
    rw [Nat.sub_zero, Nat.shiftRight_eq_div_pow, Nat.div_eq_of_lt (codeWords_code_lt hx hw)]
    rfl
  | true =>
    have hnil : codeWords x = [] := List.eq_nil_iff_forall_not_mem.mpr fun w hw => by
      simp [exists_codeWord_iff.mp ⟨w, hw⟩] at hall
    simp [decodeSym, hnil]

/-- Settles O4: a decoded symbol is a code word that the window begins with, which decides the decode
at every number of known bits. -/
theorem decodeCornerCases : Obligations.DecodeCornerCases := by
  refine ⟨fun x v k s len hx h => ?_, fun x v k hx hk h => ?_, fun x v hx => decodeSym_zero hx v,
    fun x v k hx hc h => ?_⟩
  · obtain ⟨w, hw, rfl, rfl, -, hv⟩ := (decodeSym_eq_sym_iff hx).mp h
    exact ⟨fun j hj => by rw [decodeSym_of_reads hx hw hv, if_pos hj],
      fun j hj => by rw [decodeSym_of_reads hx hw hv, if_neg (Nat.not_le_of_lt hj)]⟩
  · obtain ⟨w, hw, hlt⟩ := decodeSym_needMore h
    have hmax : w.len ≤ 15 := codeWords_len_le hx.1 hw
    omega
  · obtain ⟨w, hw, hv⟩ := exists_reads_of_complete hx hc v
    rw [decodeSym_of_reads (codeFits_of_complete hx hc) hw hv] at h
    split at h <;> cases h

/-! ### The counting fallback (R132) -/

/-- The loop of the fallback after l bits, none of which end a code word, is the decode. -/
theorem fallbackLoop_eq_decodeSym {x : Lengths} (hx : ∀ l ∈ x, l ≤ Config.maxLen)
    (hc : complete x = true) (v k : Nat) :
    ∀ fuel l, fuel + l = Config.maxLen → firstCode x l + blCount x l ≤ rev l v →
      fallbackLoop x (sortedSyms x) v k fuel (l + 1) (rev l v * 2) (firstCode x (l + 1))
        (shorterCount x (l + 1)) = decodeSym x v k := by
  have hfits := codeFits_of_complete hx hc
  intro fuel
  induction fuel with
  | zero =>
    intro l hl hout
    obtain rfl : l = Config.maxLen := by omega
    rw [codeEnd_of_complete hx hc] at hout
    exact absurd (rev_lt _ v) (Nat.not_lt_of_le hout)
  | succ fuel ih =>
    intro l hl hout
    have hbits : rev l v * 2 + v / 2 ^ (l + 1 - 1) % 2 = rev (l + 1) v := by
      rw [rev_succ, Nat.mul_comm, Nat.add_sub_cancel]
    rw [fallbackLoop, hbits]
    by_cases hk : l + 1 > k
    · obtain ⟨w, hw, hv⟩ := exists_reads_of_complete hx hc v
      have hlong : ¬ w.len ≤ k := fun h =>
        not_reads_of_codeEnd_le hx hout hw (h.trans (Nat.le_of_lt_succ hk)) hv
      rw [if_pos hk, decodeSym_of_reads hfits hw hv, if_neg hlong]
    · rw [if_neg hk]
      by_cases hin : rev (l + 1) v < firstCode x (l + 1) + blCount x (l + 1)
      · have hfirst := firstCode_succ_le hout
        obtain ⟨s, hs, hw⟩ := codeWord_of_range hx (Nat.succ_ne_zero l) hfirst hin
        have hsorted : (sortedSyms x).getD
            (shorterCount x (l + 1) + rev (l + 1) v - firstCode x (l + 1)) 0 = s := by
          rw [List.getD_eq_getElem?_getD, Nat.add_sub_assoc hfirst,
            sortedSyms_getElem? (by omega) (by omega), hs]
          rfl
        rw [if_pos hin, hsorted, decodeSym_of_reads hfits hw rfl, if_pos (Nat.le_of_not_lt hk)]
      · have hshorter : shorterCount x (l + 1) + blCount x (l + 1) = shorterCount x (l + 2) :=
          (Finset.sum_range_succ _ _).symm
        rw [if_neg hin, hshorter]
        exact ih (l + 1) (by omega) (Nat.le_of_not_lt hin)

theorem fallback_eq_decodeSym {x : Lengths} (hx : ∀ l ∈ x, l ≤ Config.maxLen)
    (hc : complete x = true) (v k : Nat) : fallback x v k = decodeSym x v k :=
  fallbackLoop_eq_decodeSym hx hc v k Config.maxLen 0 rfl (Nat.zero_le _)

/-- Settles O8: the loop of the fallback keeps the bits read, the first value of the length and the
place in `sorted_X`, and the first length whose end is above the bits is that of the code word. -/
theorem fallbackEqualsDecode : Obligations.FallbackEqualsDecode :=
  fun _ v k hx hc => fallback_eq_decodeSym hx hc v k

/-! ### The primary table (R126) and the lookup (R130) -/

/-- The slot of a primary table says what a decode of its index reads with P known bits. -/
def Decoded.entry : Decoded → Entry
  | .sym s len => .direct s len
  | .needMore => .sub
  | .invalid => .hole

theorem primaryEntry_eq {x : Lengths} {p i : Nat} (hi : i < 2 ^ p) :
    primaryEntry x p i = (decodeSym x i p).entry := by
  have hbits : ∀ w : CodeWord, w.extendsBits i p =
      (decide (p < w.len) && decide (i = rev p (w.code >>> (w.len - p)))) := fun w => by
    rw [CodeWord.extendsBits, Nat.mod_eq_of_lt hi]
  unfold primaryEntry decodeSym
  simp only [hbits, CodeWord.isPrefixOf]
  split
  · rfl
  · split <;> rfl

/-- Settles O6: a slot is the decode of its index, whose code words are known in both directions. -/
theorem primaryTableSlots : Obligations.PrimaryTableSlots := by
  intro x p i hx hi
  rw [primaryEntry_eq hi]
  refine ⟨fun s len => ?_, ?_⟩
  · have hentry : (decodeSym x i p).entry = .direct s len ↔ decodeSym x i p = .sym s len := by
      cases decodeSym x i p <;> simp [Decoded.entry]
    rw [hentry, decodeSym_eq_sym_iff hx]
    refine exists_congr fun w => and_congr_right fun hw => and_congr_right fun _ => ?_
    refine and_congr_right fun hlen => and_congr_right fun _ => ?_
    subst hlen
    exact (mod_eq_rev_iff (codeWords_code_lt hx hw)).symm
  · have hentry : (decodeSym x i p).entry = .sub ↔ decodeSym x i p = .needMore := by
      cases decodeSym x i p <;> simp [Decoded.entry]
    rw [hentry, decodeSym_eq_needMore_iff hx]
    refine exists_congr fun w => and_congr_right fun hw => and_congr_right fun hp => ?_
    have hcode : w.code >>> (w.len - p) < 2 ^ p := by
      rw [Nat.shiftRight_eq_div_pow]
      apply Nat.div_lt_of_lt_mul
      rw [← Nat.pow_add, Nat.sub_add_cancel (Nat.le_of_lt hp)]
      exact codeWords_code_lt hx hw
    rw [← mod_eq_rev_iff hcode, Nat.mod_eq_of_lt hi]

/-- The lookup by what a decode of the low P bits reads. -/
theorem lookup_eq (x : Lengths) (p v k : Nat) :
    lookup x p v k = match decodeSym x v p with
      | .sym s len => if len ≤ k then .sym s len else .needMore
      | .needMore => fallback x v k
      | .invalid => .invalid := by
  have hslot : (primaryTable x p).getD (v % 2 ^ p) .hole = (decodeSym x v p).entry := by
    have hlt : v % 2 ^ p < 2 ^ p := Nat.mod_lt _ (Nat.two_pow_pos p)
    rw [← decodeSym_mod x v p, ← primaryEntry_eq hlt, primaryTable, List.getD_eq_getElem?_getD,
      List.getElem?_map, List.getElem?_range hlt]
    rfl
  rw [lookup, hslot]
  cases decodeSym x v p <;> rfl

/-- A slot that holds a symbol gives the decode at every number of known bits. -/
theorem decodeSym_of_sym {x : Lengths} (hx : CodeFits x) {v p s len : Nat}
    (h : decodeSym x v p = .sym s len) (k : Nat) :
    decodeSym x v k = if len ≤ k then .sym s len else .needMore := by
  obtain ⟨w, hw, rfl, rfl, -, hv⟩ := (decodeSym_eq_sym_iff hx).mp h
  exact decodeSym_of_reads hx hw hv k

theorem lookup_of_complete {x : Lengths} (hx : ∀ l ∈ x, l ≤ Config.maxLen)
    (hc : complete x = true) (p v k : Nat) : lookup x p v k = decodeSym x v k := by
  rw [lookup_eq]
  cases hd : decodeSym x v p with
  | sym s len => exact (decodeSym_of_sym (codeFits_of_complete hx hc) hd k).symm
  | needMore => exact fallback_eq_decodeSym hx hc v k
  | invalid => exact absurd hd (decodeCornerCases.2.2.2 x v p hx hc)

theorem codeWords_of_empty {x : Lengths} (h : ∀ l ∈ x, l = 0) : codeWords x = [] := by
  refine List.eq_nil_iff_forall_not_mem.mpr fun w hw => ?_
  have hfalse := exists_codeWord_iff.mp ⟨w, hw⟩
  rw [List.all_eq_true.mpr fun l hl => decide_eq_true (h l hl)] at hfalse
  cases hfalse

/-- With an empty code every window is Invalid. -/
theorem decodeSym_of_empty {x : Lengths} (h : ∀ l ∈ x, l = 0) (v k : Nat) :
    decodeSym x v k = .invalid := by
  simp [decodeSym, codeWords_of_empty h]

theorem kraft_filter (x : Lengths) : kraft x = kraft (x.filter fun l => decide (l ≠ 0)) := by
  induction x with
  | nil => rfl
  | cons l x ih =>
    by_cases h : l = 0
    · simp [kraft_cons, h, ih]
    · simp [kraft_cons, h, ih]

/-- A one-symbol code of length 1 fits, and its one code word is the bit 0. -/
theorem codeWords_of_single {x : Lengths} (h : x.filter (fun l => decide (l ≠ 0)) = [1]) :
    CodeFits x ∧ (∃ w, w ∈ codeWords x) ∧ ∀ w ∈ codeWords x, w.len = 1 ∧ w.code = 0 := by
  have hmem : ∀ l ∈ x, l ≠ 0 → l = 1 := fun l hl h0 => by
    have : l ∈ x.filter fun l => decide (l ≠ 0) := List.mem_filter.mpr ⟨hl, decide_eq_true h0⟩
    rwa [h, List.mem_singleton] at this
  have hfits : CodeFits x := by
    refine ⟨fun l hl => ?_, ?_⟩
    · by_cases h0 : l = 0
      · omega
      · have := hmem l hl h0
        subst this
        decide
    · rw [kraft_filter, h]
      decide
  refine ⟨hfits, ?_, fun w hw => ?_⟩
  · have hone : 1 ∈ x := (List.mem_filter.mp (h ▸ List.mem_singleton_self 1)).1
    exact exists_codeWord_iff.mpr (List.all_eq_false.mpr ⟨1, hone, by simp⟩)
  · obtain ⟨hs, h0, -⟩ := (mem_codeWords hfits.1).mp hw
    have hlen := hmem _ (List.mem_of_getElem? hs) h0
    have hone : x.count 1 = 1 := by
      rw [← List.count_filter (l := x) (p := fun l => decide (l ≠ 0)) (by decide), h]
      rfl
    have hrange := codeWords_code_range hfits.1 hw
    simp only [hlen, firstCode, blCount, hone] at hrange
    exact ⟨hlen, by simpa using hrange⟩

/-- With the one-symbol code the next bit decides. -/
theorem decodeSym_of_single {x : Lengths} (h : x.filter (fun l => decide (l ≠ 0)) = [1]) {v k : Nat}
    (hk : 0 < k) (hv : v % 2 = 1) : decodeSym x v k = .invalid := by
  obtain ⟨hfits, -, hall⟩ := codeWords_of_single h
  have hrev : rev 1 v = 1 := by simp [rev, hv]
  cases hd : decodeSym x v k with
  | sym s len =>
    obtain ⟨w, hw, -, rfl, -, hr⟩ := (decodeSym_eq_sym_iff hfits).mp hd
    obtain ⟨h1, h0⟩ := hall w hw
    rw [h1, hrev, h0] at hr
    cases hr
  | needMore =>
    obtain ⟨w, hw, hlt⟩ := decodeSym_needMore hd
    have := (hall w hw).1
    omega
  | invalid => rfl

theorem lookup_of_single {x : Lengths} (h : x.filter (fun l => decide (l ≠ 0)) = [1])
    {p v k : Nat} (hp : 1 ≤ p) (hv : v < 2 ^ k) : lookup x p v k = decodeSym x v k := by
  obtain ⟨hfits, ⟨w, hw⟩, hall⟩ := codeWords_of_single h
  obtain ⟨hlen, hcode⟩ := hall w hw
  rw [lookup_eq]
  by_cases hbit : v % 2 = 1
  · have hk : 0 < k := by
      rcases Nat.eq_zero_or_pos k with rfl | hk
      · simp at hv
        omega
      · exact hk
    rw [decodeSym_of_single h hp hbit, decodeSym_of_single h hk hbit]
  · have hreads : rev w.len v = w.code := by
      rw [hlen, hcode]
      simp [rev]
      omega
    rw [decodeSym_of_reads hfits hw hreads p, decodeSym_of_reads hfits hw hreads k, hlen, if_pos hp]

theorem lookup_of_empty {x : Lengths} (h : ∀ l ∈ x, l = 0) (p v k : Nat) :
    lookup x p v k = decodeSym x v k := by
  rw [lookup_eq, decodeSym_of_empty h, decodeSym_of_empty h]

/-! ### The accepted distance codes (R124) -/

theorem distAccepted_iff (x : Lengths) : distAccepted x = true ↔
    complete x = true ∨ (∀ l ∈ x, l = 0) ∨ x.filter (fun l => decide (l ≠ 0)) = [1] := by
  simp only [distAccepted, Bool.or_eq_true, List.all_eq_true, decide_eq_true_eq, or_assoc]

/-- Settles O9: a complete code by the fallback, the one-symbol code by its one bit, and the empty
code, which has no slot. -/
theorem lookupEqualsDecode : Obligations.LookupEqualsDecode := by
  refine ⟨fun x p v k hx hp _ hv => ?_, fun cfg => by cases cfg <;> decide⟩
  rcases (distAccepted_iff x).mp hx.2 with hc | hempty | hsingle
  · exact lookup_of_complete hx.1 hc p v k
  · exact lookup_of_empty hempty p v k
  · exact lookup_of_single hsingle hp hv

/-- One used symbol, of length 1, by its place. -/
theorem filter_eq_singleton_iff (x : Lengths) : x.filter (fun l => decide (l ≠ 0)) = [1] ↔
    ∃ s, s < x.length ∧ x.getD s 0 = 1 ∧ ∀ t, t ≠ s → x.getD t 0 = 0 := by
  induction x with
  | nil => simp
  | cons l x ih =>
    rw [← Nat.or_exists_add_one]
    by_cases h0 : l = 0
    · have hhead : ∀ s, (∀ t, t ≠ s + 1 → (l :: x).getD t 0 = 0) ↔ ∀ t, t ≠ s → x.getD t 0 = 0 :=
        fun s => ⟨fun h t ht => by simpa using h (t + 1) (by omega), fun h t ht => by
          cases t with
          | zero => simpa using h0
          | succ t => simpa using h t (by omega)⟩
      simp only [hhead]
      simpa [h0] using ih
    · have hrest : x.filter (fun l => decide (l ≠ 0)) = [] ↔ ∀ t, t ≠ 0 → (l :: x).getD t 0 = 0 := by
        rw [List.filter_eq_nil_iff]
        constructor
        · intro h t ht
          obtain ⟨t, rfl⟩ := Nat.exists_eq_succ_of_ne_zero ht
          cases hx : x[t]? with
          | none => simp [hx]
          | some m => simpa [hx] using h m (List.mem_of_getElem? hx)
        · intro h m hm
          obtain ⟨t, ht, rfl⟩ := List.getElem_of_mem hm
          simpa [ht] using h (t + 1) (Nat.succ_ne_zero t)
      have hother : ¬ ∃ s, s + 1 < (l :: x).length ∧ (l :: x).getD (s + 1) 0 = 1 ∧
          ∀ t, t ≠ s + 1 → (l :: x).getD t 0 = 0 := by
        rintro ⟨s, -, -, h⟩
        exact h0 (by simpa using h 0 (by omega))
      rw [List.filter_cons_of_pos (by simpa using h0), List.cons.injEq, hrest, or_iff_left hother]
      exact (and_iff_right (Nat.succ_pos _)).symm

/-- Settles O5: the three cases of R124, the one used symbol by its place. -/
theorem distanceCodesAccepted : Obligations.DistanceCodesAccepted := by
  intro x
  rw [distAccepted_iff, filter_eq_singleton_iff, complete, decide_eq_true_eq]
  rfl

end Sys2Proof.Machine
end

section
/-! Proofs for the encoding (30_encoding.md): the symbols of the three alphabets, the host commands, and
that a stream element is read back from its bits and from no part of them. -/

namespace Sys2Proof.Laws.Encoding

open Sys2Proof Sys2Proof.Machine

/-- Every instruction meets the statement about its encoding. -/
theorem all : ∀ i : Instr, Statement i
  | .reset cfg wrap => reset cfg wrap
  | .advance inp out off eoi => advance inp out off eoi
  | .isDone => isDone
  | .ignoreChecksum => ignoreChecksum
  | .checksum => checksum
  | .zhdr cmf flg => zhdr cmf flg
  | .blkStored bfinal => blkStored bfinal
  | .blkFixed bfinal => blkFixed bfinal
  | .blkDynamic bfinal => blkDynamic bfinal
  | .blkReserved bfinal => blkReserved bfinal
  | .slen len nlen => slen len nlen
  | .sdata b => sdata b
  | .dhdr hlit hdist hclen => dhdr hlit hdist hclen
  | .cll len => cll len
  | .clsymLen sym => clsymLen sym
  | .clsym16 extra => clsym16 extra
  | .clsym17 extra => clsym17 extra
  | .clsym18 extra => clsym18 extra
  | .lit b => lit b
  | .eob => eob
  | .len257 => len257
  | .len258 => len258
  | .len259 => len259
  | .len260 => len260
  | .len261 => len261
  | .len262 => len262
  | .len263 => len263
  | .len264 => len264
  | .len265 extra => len265 extra
  | .len266 extra => len266 extra
  | .len267 extra => len267 extra
  | .len268 extra => len268 extra
  | .len269 extra => len269 extra
  | .len270 extra => len270 extra
  | .len271 extra => len271 extra
  | .len272 extra => len272 extra
  | .len273 extra => len273 extra
  | .len274 extra => len274 extra
  | .len275 extra => len275 extra
  | .len276 extra => len276 extra
  | .len277 extra => len277 extra
  | .len278 extra => len278 extra
  | .len279 extra => len279 extra
  | .len280 extra => len280 extra
  | .len281 extra => len281 extra
  | .len282 extra => len282 extra
  | .len283 extra => len283 extra
  | .len284 extra => len284 extra
  | .len285 => len285
  | .llInvalid286 => llInvalid286
  | .llInvalid287 => llInvalid287
  | .dist0 => dist0
  | .dist1 => dist1
  | .dist2 => dist2
  | .dist3 => dist3
  | .dist4 extra => dist4 extra
  | .dist5 extra => dist5 extra
  | .dist6 extra => dist6 extra
  | .dist7 extra => dist7 extra
  | .dist8 extra => dist8 extra
  | .dist9 extra => dist9 extra
  | .dist10 extra => dist10 extra
  | .dist11 extra => dist11 extra
  | .dist12 extra => dist12 extra
  | .dist13 extra => dist13 extra
  | .dist14 extra => dist14 extra
  | .dist15 extra => dist15 extra
  | .dist16 extra => dist16 extra
  | .dist17 extra => dist17 extra
  | .dist18 extra => dist18 extra
  | .dist19 extra => dist19 extra
  | .dist20 extra => dist20 extra
  | .dist21 extra => dist21 extra
  | .dist22 extra => dist22 extra
  | .dist23 extra => dist23 extra
  | .dist24 extra => dist24 extra
  | .dist25 extra => dist25 extra
  | .dist26 extra => dist26 extra
  | .dist27 extra => dist27 extra
  | .dist28 extra => dist28 extra
  | .dist29 extra => dist29 extra
  | .distInvalid30 => distInvalid30
  | .distInvalid31 => distInvalid31
  | .trailer b0 b1 b2 b3 => trailer b0 b1 b2 b3

end Sys2Proof.Laws.Encoding

namespace Sys2Proof.Machine

/-! ### Symbols and their instructions (R79 to R81) -/

theorem litLenInstr_of_litLenSym {i : Instr} {s e : Nat} (h : litLenSym i = some (s, e)) :
    litLenInstr s e = some i ∧ e < 2 ^ lenExtra s :=
  (Laws.Encoding.all i).2.2.1 s e h

theorem distInstr_of_distSym {i : Instr} {s e : Nat} (h : distSym i = some (s, e)) :
    distInstr s e = some i ∧ e < 2 ^ distExtra s :=
  (Laws.Encoding.all i).2.2.2.1 s e h

theorem clsymInstr_of_clsymSym {i : Instr} {s e : Nat} (h : clsymSym i = some (s, e)) :
    clsymInstr s e = some i ∧ e < 2 ^ clExtra s :=
  (Laws.Encoding.all i).2.2.2.2 s e h

/-- The literal/length symbol and extra value are read off the instruction made of them. -/
theorem litLenSym_of_litLenInstr {i : Instr} {s e : Nat} (h : litLenInstr s e = some i)
    (he : e < 2 ^ lenExtra s) : litLenSym i = some (s, e) := by
  unfold litLenInstr at h
  split at h
  case h_33 h256 _ _ =>
    split at h
    · next hs =>
      obtain rfl := Option.some.inj h
      have h0 : lenExtra s = 0 := if_pos (by omega)
      rw [h0] at he
      simp [litLenSym, Nat.mod_eq_of_lt hs]
      omega
    · cases h
  all_goals
    obtain rfl := Option.some.inj h
    simp [lenExtra, lenExtraTable] at he
    simp [litLenSym]
    omega

theorem distInstr_lt {i : Instr} {s e : Nat} (h : distInstr s e = some i) : s < 32 := by
  by_contra hs
  obtain ⟨n, rfl⟩ := Nat.exists_eq_add_of_le' (Nat.le_of_not_lt hs)
  cases h

theorem distSym_of_distInstr {i : Instr} {s e : Nat} (h : distInstr s e = some i)
    (he : e < 2 ^ distExtra s) : distSym i = some (s, e) := by
  have hs := distInstr_lt h
  rw [← Nat.mod_eq_of_lt he]
  clear he
  interval_cases s
  all_goals obtain rfl := Option.some.inj h
  -- the symbols with an extra field, then those without one
  any_goals rfl
  all_goals exact congrArg (fun n => some (_, n)) (Nat.mod_one e).symm

theorem clsymSym_of_clsymInstr {i : Instr} {s e : Nat} (h : clsymInstr s e = some i)
    (he : e < 2 ^ clExtra s) : clsymSym i = some (s, e) := by
  unfold clsymInstr at h
  split at h
  case h_4 h16 h17 h18 =>
    split at h
    · next hs =>
      obtain rfl := Option.some.inj h
      simp only [clExtra] at he
      simp [clsymSym, Nat.mod_eq_of_lt hs]
      omega
    · cases h
  all_goals
    obtain rfl := Option.some.inj h
    simp [clExtra] at he
    simp [clsymSym]
    omega

/-! ### Host commands (R83, R84) -/

/-- Settles O11: the three host commands without an operand, and those with one by its values. -/
theorem commandDecodeInvertsEncode : Obligations.CommandDecodeInvertsEncode := by
  intro i t h
  cases i
  case reset cfg wrap =>
    obtain rfl := Option.some.inj h
    cases cfg <;> cases wrap <;> rfl
  case advance inp out off eoi =>
    obtain rfl := Option.some.inj h
    cases eoi <;> simp [decodeCommand, field]
  case isDone => obtain rfl := Option.some.inj h; rfl
  case ignoreChecksum => obtain rfl := Option.some.inj h; rfl
  case checksum => obtain rfl := Option.some.inj h; rfl
  all_goals cases h

/-- Whether a transaction is a command is decided by its word alone. -/
theorem decodeCommand_eq_none_of_word (t : Transaction) :
    decodeCommand t = none ↔ decodeCommand ⟨t.word, [], [], 0⟩ = none := by
  obtain ⟨w, inp, out, off⟩ := t
  simp only [decodeCommand]
  split
  case h_2 => split <;> simp
  all_goals rfl

/-- The words the port refuses (R84). -/
theorem decodeCommand_eq_none_iff (t : Transaction) :
    decodeCommand t = none ↔ (5 ≤ t.word.toNat % 16 ∨ t.word.getLsbD 7 = true ∨
      (t.word.toNat % 16 ≠ 0 ∧ (t.word.getLsbD 4 = true ∨ t.word.getLsbD 5 = true)) ∨
      (t.word.toNat % 16 ≠ 1 ∧ t.word.getLsbD 6 = true)) := by
  rw [decodeCommand_eq_none_of_word]
  generalize t.word = w
  revert w
  decide

/-! ### Fields of a window (R72) -/

/-- A field is a part of any wider one around it. -/
theorem field_of_field {v o n : Nat} {a b : Nat} (h : a + b ≤ n) :
    field (field v o n) a b = field v (o + a) b := by
  simp only [field, Nat.shiftRight_eq_div_pow, Nat.pow_add]
  rw [← Nat.div_div_eq_div_mul]
  obtain ⟨c, rfl⟩ := Nat.exists_eq_add_of_le h
  rw [Nat.add_assoc, Nat.pow_add, Nat.mod_mul_right_div_self, Nat.pow_add,
    Nat.mod_mul_right_mod]

theorem field_lt (v o n : Nat) : field v o n < 2 ^ n := Nat.mod_lt _ (Nat.two_pow_pos n)

/-- A field with a part of it below and the rest above. -/
theorem field_add (v o m n : Nat) :
    field v o (m + n) = field v o m + field v (o + m) n * 2 ^ m := by
  simp only [field, Nat.shiftRight_eq_div_pow, Nat.pow_add]
  rw [← Nat.div_div_eq_div_mul, Nat.mod_mul, Nat.mul_comm (2 ^ m)]

/-- The two parts of a field are read off its value. -/
theorem field_parts {v o m n a e : Nat} (h : field v o (m + n) = a + e * 2 ^ m) (ha : a < 2 ^ m) :
    field v o m = a ∧ field v (o + m) n = e := by
  rw [field_add] at h
  have hlow : field v o m = a := by
    have := congrArg (· % 2 ^ m) h
    simpa [Nat.mod_eq_of_lt ha, Nat.mod_eq_of_lt (field_lt v o m)] using this
  rw [hlow] at h
  exact ⟨hlow, Nat.eq_of_mul_eq_mul_right (Nat.two_pow_pos m) (Nat.add_left_cancel h)⟩

theorem toNat_ofNat_field (v o n : Nat) : (BitVec.ofNat n (field v o n)).toNat = field v o n := by
  rw [BitVec.toNat_ofNat, Nat.mod_eq_of_lt (field_lt v o n)]

theorem ofNat_of_field_eq {v o n : Nat} {b : BitVec n} (h : field v o n = b.toNat) :
    BitVec.ofNat n (field v o n) = b := by
  rw [h, BitVec.ofNat_toNat, BitVec.setWidth_eq]

/-- An extra field after bits that are known. -/
theorem extraAt_eq {v k o n : Nat} (ho : o ≤ k) :
    extraAt v k o n = if o + n ≤ k then .got (field v o n) else .needMore := by
  unfold extraAt
  split
  · next hn =>
    subst hn
    rw [Nat.add_zero, if_pos ho, field, Nat.pow_zero, Nat.mod_one]
  · rfl

/-! ### The elements that begin with a code word (R79 to R81, R101) -/

/-- A symbol at offset `o` with the extra field after it: what F_CLS, F_LL and the distance part
read. -/
def symbolAt (code : Lengths) (extra : Nat → Nat) (instr : Nat → Nat → Option Instr)
    (v k o : Nat) : Peek Instr :=
  (hdecodeAt code v k o).bind fun sl =>
    (extraAt v k (o + sl.2) (extra sl.1)).bind fun e => orInvalid (instr sl.1 e)

theorem decodeElem_ll_eq (code : Lengths) (v k : Nat) :
    decodeElem (.ll code) v k = symbolAt code lenExtra litLenInstr v k 0 := by
  simp [decodeElem, symbolAt]

theorem decodeElem_dist_eq (code : Lengths) (u v k : Nat) :
    decodeElem (.dist code u) v k = symbolAt code distExtra distInstr v k u := rfl

theorem decodeElem_cls_false_eq (code : Lengths) (v k : Nat) :
    decodeElem (.cls code false) v k = symbolAt code clExtra clsymInstr v k 0 := by
  simp [decodeElem, symbolAt]

/-- A window that holds a code word at the offset. -/
theorem hdecodeAt_of_reads {x : Lengths} (hx : CodeFits x) {w : CodeWord} (hw : w ∈ codeWords x)
    {v o : Nat} (hv : field v o w.len = rev w.len w.code) (k : Nat) :
    hdecodeAt x v k o = if o + w.len ≤ k then .got (w.sym, w.len) else .needMore := by
  have hreads : rev w.len (v >>> o) = w.code :=
    (mod_eq_rev_iff (codeWords_code_lt hx hw)).mp hv
  have hpos := Nat.pos_of_ne_zero (codeWords_len hw).2
  rw [hdecodeAt, decodeSym_of_reads hx hw hreads]
  by_cases hk : o + w.len ≤ k
  · rw [if_pos (by omega), if_pos hk]
  · rw [if_neg (by omega), if_neg hk]

/-- A decoded symbol is a code word that stands at the offset, and all its bits are known. -/
theorem hdecodeAt_got_word {x : Lengths} {v k o s len : Nat}
    (h : hdecodeAt x v k o = .got (s, len)) :
    ∃ w ∈ codeWords x, w.sym = s ∧ w.len = len ∧ o + w.len ≤ k ∧
      field v o w.len = rev w.len w.code := by
  obtain ⟨-, hne, hle⟩ := hdecodeAt_got h
  unfold hdecodeAt at h
  split at h
  · next s' len' hd =>
    obtain ⟨rfl, rfl⟩ := Prod.mk.inj (Peek.got.inj h)
    obtain ⟨w, hw, hs, rfl, -, hv⟩ := decodeSym_sym hd
    exact ⟨w, hw, hs, rfl, by omega, hv⟩
  · cases h
  · cases h

/-- A window that holds a code word at the offset, and its extra field after it. -/
theorem symbolAt_of_reads {x : Lengths} (hx : CodeFits x) {w : CodeWord} (hw : w ∈ codeWords x)
    {v o : Nat} (hv : field v o w.len = rev w.len w.code) (extra : Nat → Nat)
    (instr : Nat → Nat → Option Instr) (k : Nat) :
    symbolAt x extra instr v k o = if o + (w.len + extra w.sym) ≤ k
      then orInvalid (instr w.sym (field v (o + w.len) (extra w.sym))) else .needMore := by
  rw [symbolAt, hdecodeAt_of_reads hx hw hv]
  by_cases hlen : o + w.len ≤ k
  · rw [if_pos hlen, Peek.bind, extraAt_eq hlen, Nat.add_assoc]
    by_cases hk : o + (w.len + extra w.sym) ≤ k
    · rw [if_pos hk, if_pos hk, Peek.bind]
    · rw [if_neg hk, if_neg hk, Peek.bind]
  · rw [if_neg hlen, if_neg (by omega), Peek.bind]

theorem encodeSym_eq_some {x : Lengths} {ex s e : Nat} {b : BitString}
    (h : encodeSym x ex (s, e) = some b) :
    ∃ w ∈ codeWords x, w.sym = s ∧ b = ⟨rev w.len w.code + e * 2 ^ w.len, w.len + ex⟩ := by
  simp only [encodeSym] at h
  split at h
  · next w hw =>
    have hs := List.find?_some hw
    exact ⟨w, List.mem_of_find?_eq_some hw, of_decide_eq_true hs, (Option.some.inj h).symm⟩
  · cases h

theorem encodeSym_of_mem {x : Lengths} (hx : ∀ l ∈ x, l ≤ Config.maxLen) {w : CodeWord}
    (hw : w ∈ codeWords x) (ex e : Nat) :
    encodeSym x ex (w.sym, e) = some ⟨rev w.len w.code + e * 2 ^ w.len, w.len + ex⟩ := by
  cases hf : (codeWords x).find? (fun u => decide (u.sym = w.sym)) with
  | none => simpa using List.find?_eq_none.mp hf w hw
  | some u =>
    have hs := List.find?_some hf
    obtain rfl := codeWords_unique hx (List.mem_of_find?_eq_some hf) hw (of_decide_eq_true hs)
    rw [encodeSym, hf]

/-- A symbol element is read from its bits once all of them are known, and wants more before. -/
theorem symbolAt_of_encodeSym {x : Lengths} (hx : CodeFits x) {extra : Nat → Nat}
    {instr : Nat → Nat → Option Instr} {i : Instr} {s e v o : Nat} {b : BitString}
    (hi : instr s e = some i) (hb : encodeSym x (extra s) (s, e) = some b)
    (hv : field v o b.width = b.bits) (k : Nat) :
    symbolAt x extra instr v k o = if o + b.width ≤ k then .got i else .needMore := by
  obtain ⟨w, hw, rfl, rfl⟩ := encodeSym_eq_some hb
  obtain ⟨hword, hextra⟩ := field_parts hv (rev_lt _ _)
  rw [symbolAt_of_reads hx hw hword, hextra, hi]
  rfl

/-- A symbol element that is read stands in the window with all its bits. -/
theorem encodeSym_of_symbolAt {x : Lengths} (hx : CodeFits x) {extra : Nat → Nat}
    {instr : Nat → Nat → Option Instr} {i : Instr} {v k o : Nat}
    (h : symbolAt x extra instr v k o = .got i) :
    ∃ s e b, instr s e = some i ∧ e < 2 ^ extra s ∧ encodeSym x (extra s) (s, e) = some b ∧
      field v o b.width = b.bits := by
  obtain ⟨⟨s, len⟩, hs, h⟩ := bind_got.mp h
  obtain ⟨w, hw, rfl, rfl, hk, hv⟩ := hdecodeAt_got_word hs
  obtain ⟨e, he, h⟩ := bind_got.mp h
  rw [extraAt_eq hk] at he
  split at he
  · obtain rfl := Peek.got.inj he
    refine ⟨w.sym, _, _, orInvalid_got h, field_lt _ _ _, encodeSym_of_mem hx.1 hw _ _, ?_⟩
    rw [field_add, hv]
  · cases he

/-! ### Every element is read back from its bits (R72 to R82) -/

/-- Reads of a whole fixed field. -/
theorem bitsAt_bind (v k o n : Nat) (f : Nat → Peek Instr) :
    (bitsAt v k o n).bind f = if o + n ≤ k then f (field v o n) else .needMore := by
  unfold bitsAt
  split <;> rfl

/-- The block header of each value of its 3 bits (R74, R75). -/
theorem encodeElem_blockInstr (x : Fin 8) : encodeElem .bh (blockInstr x.val) = some ⟨x.val, 3⟩ := by
  revert x
  decide

theorem blockInstr_of_encodeElem {i : Instr} {b : BitString} (h : encodeElem .bh i = some b) :
    b.width = 3 ∧ blockInstr b.bits = i := by
  cases i
  case blkStored f => obtain rfl := Option.some.inj h; cases f <;> exact ⟨rfl, rfl⟩
  case blkFixed f => obtain rfl := Option.some.inj h; cases f <;> exact ⟨rfl, rfl⟩
  case blkDynamic f => obtain rfl := Option.some.inj h; cases f <;> exact ⟨rfl, rfl⟩
  case blkReserved f => obtain rfl := Option.some.inj h; cases f <;> exact ⟨rfl, rfl⟩
  all_goals cases h

/-- A code-length symbol at the head of a window: symbol 16 with no previous length ends with its
code word, every other symbol with its extra field. -/
theorem decodeElem_cls_of_reads {x : Lengths} (hx : CodeFits x) {w : CodeWord}
    (hw : w ∈ codeWords x) {v : Nat} (hv : field v 0 w.len = rev w.len w.code) (noPrev : Bool)
    (k : Nat) :
    decodeElem (.cls x noPrev) v k = if w.sym = 16 ∧ noPrev = true
      then (if w.len ≤ k then .got (.clsym16 0) else .needMore)
      else symbolAt x clExtra clsymInstr v k 0 := by
  simp only [decodeElem, symbolAt, hdecodeAt_of_reads hx hw hv, Nat.zero_add]
  by_cases hlen : w.len ≤ k
  · simp only [if_pos hlen, Peek.bind]
  · simp only [if_neg hlen, Peek.bind, ite_self]

theorem clsymSym_ne_16 {c : Lengths} {i : Instr} {s e : Nat}
    (hr : firstRepeat (.cls c true) i = false) (hs : clsymSym i = some (s, e)) : s ≠ 16 := by
  rintro rfl
  obtain ⟨hi, -⟩ := clsymInstr_of_clsymSym hs
  obtain rfl := Option.some.inj hi
  cases hr

theorem decodeElem_cls_of_encodeElem {x : Lengths} {noPrev : Bool} {i : Instr} {b : BitString}
    {v : Nat} (hx : CodeFits x) (hb : encodeElem (.cls x noPrev) i = some b)
    (hr : firstRepeat (.cls x noPrev) i = false) (hv : field v 0 b.width = b.bits) (k : Nat) :
    decodeElem (.cls x noPrev) v k = if 0 + b.width ≤ k then .got i else .needMore := by
  obtain ⟨⟨s, e⟩, hs, hb⟩ := Option.bind_eq_some_iff.mp hb
  rw [← symbolAt_of_encodeSym hx (clsymInstr_of_clsymSym hs).1 hb hv k]
  obtain ⟨w, hw, rfl, rfl⟩ := encodeSym_eq_some hb
  have hnot : ¬ (w.sym = 16 ∧ noPrev = true) := by
    rintro ⟨h16, rfl⟩
    exact clsymSym_ne_16 hr hs h16
  rw [decodeElem_cls_of_reads hx hw (field_parts hv (rev_lt _ _)).1, if_neg hnot]

/-- A want of a second field after a first one is a want of both. -/
theorem ite_ite_needMore {a b k : Nat} (h : a ≤ b) (p : Peek Instr) :
    (if a ≤ k then (if b ≤ k then p else .needMore) else .needMore) =
      if b ≤ k then p else .needMore := by
  by_cases hb : b ≤ k
  · rw [if_pos (h.trans hb)]
  · rw [if_neg hb, ite_self]

theorem decodeElem_zh_eq (v k : Nat) :
    decodeElem .zh v k = if 16 ≤ k then
      .got (.zhdr (BitVec.ofNat 8 (field v 0 8)) (BitVec.ofNat 8 (field v 8 8)))
      else .needMore := by
  simp only [decodeElem, bitsAt_bind, field_of_field (show 0 + 8 ≤ 16 by decide),
    field_of_field (show 8 + 8 ≤ 16 by decide), Nat.zero_add]

theorem decodeElem_bh_eq (v k : Nat) :
    decodeElem .bh v k = if 3 ≤ k then .got (blockInstr (field v 0 3)) else .needMore := by
  simp only [decodeElem, bitsAt_bind, Nat.zero_add]

theorem decodeElem_sl_eq (v k : Nat) :
    decodeElem .sl v k = if 32 ≤ k then
      .got (.slen (BitVec.ofNat 16 (field v 0 16)) (BitVec.ofNat 16 (field v 16 16)))
      else .needMore := by
  simp only [decodeElem, bitsAt_bind, Nat.zero_add]
  exact ite_ite_needMore (by decide) _

theorem decodeElem_sd_eq (v k : Nat) :
    decodeElem .sd v k = if 8 ≤ k then .got (.sdata (BitVec.ofNat 8 (field v 0 8)))
      else .needMore := by
  simp only [decodeElem, bitsAt_bind, Nat.zero_add]

theorem decodeElem_dh_eq (v k : Nat) :
    decodeElem .dh v k = if 14 ≤ k then
      .got (.dhdr (BitVec.ofNat 5 (field v 0 5)) (BitVec.ofNat 5 (field v 5 5))
        (BitVec.ofNat 4 (field v 10 4)))
      else .needMore := by
  simp only [decodeElem, bitsAt_bind, field_of_field (show 0 + 5 ≤ 14 by decide),
    field_of_field (show 5 + 5 ≤ 14 by decide), field_of_field (show 10 + 4 ≤ 14 by decide),
    Nat.zero_add]

theorem decodeElem_cll_eq (v k : Nat) :
    decodeElem .cll v k = if 3 ≤ k then .got (.cll (BitVec.ofNat 3 (field v 0 3)))
      else .needMore := by
  simp only [decodeElem, bitsAt_bind, Nat.zero_add]

theorem decodeElem_tr_eq (v k : Nat) :
    decodeElem .tr v k = if 32 ≤ k then
      .got (.trailer (BitVec.ofNat 8 (field v 0 8)) (BitVec.ofNat 8 (field v 8 8))
        (BitVec.ofNat 8 (field v 16 8)) (BitVec.ofNat 8 (field v 24 8)))
      else .needMore := by
  simp only [decodeElem, bitsAt_bind, field_of_field (show 0 + 8 ≤ 16 by decide),
    field_of_field (show 8 + 8 ≤ 16 by decide), Nat.zero_add, Nat.add_zero]
  exact ite_ite_needMore (by decide) _

/-- An element whose bits stand in the window at the offset of its format is read once all of them
are known, and until then more bits are wanted. -/
theorem decodeElem_of_encodeElem {c : ElemCtx} {i : Instr} {b : BitString} {v : Nat}
    (hc : CtxFits c) (hb : encodeElem c i = some b) (hr : firstRepeat c i = false)
    (hv : field v c.offset b.width = b.bits) (k : Nat) :
    decodeElem c v k = if c.offset + b.width ≤ k then .got i else .needMore := by
  cases c
  case cls code noPrev => exact decodeElem_cls_of_encodeElem hc hb hr hv k
  case ll code =>
    obtain ⟨⟨s, e⟩, hs, hb⟩ := Option.bind_eq_some_iff.mp hb
    rw [decodeElem_ll_eq]
    exact symbolAt_of_encodeSym hc (litLenInstr_of_litLenSym hs).1 hb hv k
  case dist code u =>
    obtain ⟨⟨s, e⟩, hs, hb⟩ := Option.bind_eq_some_iff.mp hb
    exact symbolAt_of_encodeSym hc (distInstr_of_distSym hs).1 hb hv k
  case bh =>
    obtain ⟨hw, rfl⟩ := blockInstr_of_encodeElem hb
    rw [hw] at hv ⊢
    rw [decodeElem_bh_eq, ← hv]
    rfl
  case zh =>
    cases i
    case zhdr cmf flg =>
      obtain rfl := Option.some.inj hb
      obtain ⟨h0, h1⟩ := field_parts (o := 0) (m := 8) (n := 8) hv cmf.isLt
      rw [decodeElem_zh_eq, ofNat_of_field_eq h0, ofNat_of_field_eq h1]
      rfl
    all_goals cases hb
  case sl =>
    cases i
    case slen len nlen =>
      obtain rfl := Option.some.inj hb
      obtain ⟨h0, h1⟩ := field_parts (o := 0) (m := 16) (n := 16) hv len.isLt
      rw [decodeElem_sl_eq, ofNat_of_field_eq h0, ofNat_of_field_eq h1]
      rfl
    all_goals cases hb
  case sd =>
    cases i
    case sdata d =>
      obtain rfl := Option.some.inj hb
      rw [decodeElem_sd_eq, ofNat_of_field_eq (o := 0) (n := 8) hv]
      rfl
    all_goals cases hb
  case dh =>
    cases i
    case dhdr hl hd hcl =>
      obtain rfl := Option.some.inj hb
      have hsum : hl.toNat + hd.toNat * 2 ^ 5 + hcl.toNat * 2 ^ 10 =
          hl.toNat + (hd.toNat + hcl.toNat * 2 ^ 5) * 2 ^ 5 := by ring
      obtain ⟨h0, h⟩ := field_parts (o := 0) (m := 5) (n := 9) (hv.trans hsum) hl.isLt
      obtain ⟨h1, h2⟩ := field_parts (o := 5) (m := 5) (n := 4) h hd.isLt
      rw [decodeElem_dh_eq, ofNat_of_field_eq h0, ofNat_of_field_eq h1, ofNat_of_field_eq h2]
      rfl
    all_goals cases hb
  case cll =>
    cases i
    case cll l =>
      obtain rfl := Option.some.inj hb
      rw [decodeElem_cll_eq, ofNat_of_field_eq (o := 0) (n := 3) hv]
      rfl
    all_goals cases hb
  case tr =>
    cases i
    case trailer b0 b1 b2 b3 =>
      obtain rfl := Option.some.inj hb
      have hsum : b0.toNat + b1.toNat * 2 ^ 8 + b2.toNat * 2 ^ 16 + b3.toNat * 2 ^ 24 =
          b0.toNat + (b1.toNat + (b2.toNat + b3.toNat * 2 ^ 8) * 2 ^ 8) * 2 ^ 8 := by ring
      obtain ⟨h0, h⟩ := field_parts (o := 0) (m := 8) (n := 24) (hv.trans hsum) b0.isLt
      obtain ⟨h1, h⟩ := field_parts (o := 8) (m := 8) (n := 16) h b1.isLt
      obtain ⟨h2, h3⟩ := field_parts (o := 16) (m := 8) (n := 8) h b2.isLt
      rw [decodeElem_tr_eq, ofNat_of_field_eq h0, ofNat_of_field_eq h1, ofNat_of_field_eq h2,
        ofNat_of_field_eq h3]
      rfl
    all_goals cases hb

/-- Settles O12: the bits of an element decide its decode at every number of known bits; symbol 16 as
the first length is decided by its code word. -/
theorem elementDecodeInvertsEncode : Obligations.ElementDecodeInvertsEncode := by
  refine ⟨fun c i b v k hc hb hr hv hk => ?_, fun code w v k hc hw hs hv hk => ?_⟩
  · rw [decodeElem_of_encodeElem hc hb hr hv, if_pos hk]
  · rw [decodeElem_cls_of_reads hc hw hv, if_pos ⟨hs, rfl⟩, if_pos hk]

/-- Settles O13: with a bit of the element missing the same equation asks for more. -/
theorem partOfAnElementNeedsMore : Obligations.PartOfAnElementNeedsMore := by
  refine ⟨fun c i b v k hc hb hr hv _ hk => ?_, fun code w v k hc hw hs hv hk => ?_⟩
  · rw [decodeElem_of_encodeElem hc hb hr hv, if_neg (Nat.not_le_of_lt hk)]
  · rw [decodeElem_cls_of_reads hc hw hv, if_pos ⟨hs, rfl⟩, if_neg (Nat.not_le_of_lt hk)]

/-! ### Distance code words that are not used (R197) -/

theorem decodeElem_dist_of_invalid {x : Lengths} {u v k : Nat}
    (h : decodeSym x (v >>> u) (k - u) = .invalid) :
    decodeElem (.dist x u) v k = .bad .invalidSymbol := by
  simp only [decodeElem, hdecodeAt, h, Peek.bind]

/-- Settles O42: in both codes the decode at the offset is Invalid. -/
theorem unusedDistanceCodeWords : Obligations.UnusedDistanceCodeWords := by
  refine ⟨fun x u v k hx => decodeElem_dist_of_invalid (decodeSym_of_empty hx _ _),
    fun x u v k hx hk hv => decodeElem_dist_of_invalid (decodeSym_of_single hx (by omega) ?_)⟩
  rw [Nat.testBit, Nat.one_and_eq_mod_two] at hv
  simpa using hv

/-! ### Words of the spec (R75 to R77, R73, R106, R193, R194, R245) -/

/-- Settles O15: each word is closed, so the decoder is run on it. -/
theorem wordsOfTheSpecDecode : Obligations.WordsOfTheSpecDecode := by
  unfold Obligations.WordsOfTheSpecDecode
  decide +kernel

/-! ### The form of a table entry (R128) -/

theorem toNat_append {m n : Nat} (a : BitVec m) (b : BitVec n) :
    (a ++ b).toNat = a.toNat * 2 ^ n + b.toNat := by
  rw [BitVec.toNat_append, ← Nat.shiftLeft_add_eq_or_of_lt b.isLt, Nat.shiftLeft_eq]

theorem toBits_direct {s len : Nat} (hs : s ≤ 287) (hlen : len ≤ 15) :
    (Entry.direct s len).toBits.toNat = 1 * 2 ^ 13 + s * 2 ^ 4 + len := by
  simp only [Entry.toBits, toNat_append, BitVec.toNat_ofNat]
  omega

/-- Settles O7: TAG, SYM and LEN stand side by side in the form, and the tag decides the entry. -/
theorem entryFormatRoundTrip : Obligations.EntryFormatRoundTrip := by
  refine ⟨fun s len hs hlen => toBits_direct hs hlen, by decide, by decide, fun e he => ?_,
    fun b => ?_⟩
  · cases e with
    | direct s len =>
      obtain ⟨hs, hlen⟩ := he s len rfl
      have hbits := toBits_direct hs hlen
      have htag : field (Entry.direct s len).toBits.toNat 13 2 = 1 := by
        rw [hbits, field, Nat.shiftRight_eq_div_pow]
        omega
      have hsym : field (Entry.direct s len).toBits.toNat 4 9 = s := by
        rw [hbits, field, Nat.shiftRight_eq_div_pow]
        omega
      have hl : field (Entry.direct s len).toBits.toNat 0 4 = len := by
        rw [hbits, field, Nat.shiftRight_eq_div_pow]
        omega
      simp only [Entry.ofBits, htag, hsym, hl]
    | sub => decide
    | hole => decide
  · have hlt := b.isLt
    have htag : field b.toNat 13 2 = b.toNat / 2 ^ 13 := by
      rw [field, Nat.shiftRight_eq_div_pow]
      omega
    have hsmall : b.toNat / 2 ^ 13 < 4 := by omega
    rw [Entry.ofBits, htag]
    generalize b.toNat / 2 ^ 13 = tag at hsmall
    interval_cases tag <;> simp

/-! ### The two symbols of a match (R87, R193, R194) -/

/-- A search from above finds the greatest number with the property. -/
theorem find?_reverse_range {p : Nat → Bool} {n i : Nat}
    (h : (List.range n).reverse.find? p = some i) :
    i < n ∧ p i = true ∧ ∀ j, i < j → j < n → p j = false := by
  induction n with
  | zero => simp at h
  | succ n ih =>
    rw [List.range_succ, List.reverse_append, List.reverse_singleton, List.singleton_append,
      List.find?_cons] at h
    split at h
    · next hp =>
      obtain rfl := Option.some.inj h
      exact ⟨Nat.lt_succ_self n, hp, fun j h1 h2 => absurd h1 (Nat.not_lt_of_le (Nat.le_of_lt_succ h2))⟩
    · next hp =>
      obtain ⟨h1, h2, h3⟩ := ih h
      refine ⟨Nat.lt_succ_of_lt h1, h2, fun j hij hj => ?_⟩
      rcases Nat.eq_or_lt_of_le (Nat.le_of_lt_succ hj) with rfl | hlt
      · exact hp
      · exact h3 j hij hlt

/-- The row found is the last one whose base is at most the value. -/
theorem exists_rowFor {bases : List Nat} {n : Nat} (hpos : 0 < bases.length)
    (hbase : bases.getD 0 0 ≤ n) :
    ∃ i, rowFor bases n = some i ∧ i < bases.length ∧ bases.getD i 0 ≤ n ∧
      ∀ j, i < j → j < bases.length → n < bases.getD j 0 := by
  cases hf : rowFor bases n with
  | none =>
    have hnone := List.find?_eq_none.mp hf 0 (by simpa using hpos)
    exact absurd (decide_eq_true hbase) hnone
  | some i =>
    obtain ⟨hi, hp, hlast⟩ := find?_reverse_range hf
    exact ⟨i, rfl, hi, of_decide_eq_true hp, fun j h1 h2 =>
      Nat.lt_of_not_le (of_decide_eq_false (hlast j h1 h2))⟩

/-- The rows of the length table follow each other without a gap (R193). -/
theorem lenBase_rows : ∀ i < 28, lenBaseTable.getD (i + 1) 0 ≤
    lenBaseTable.getD i 0 + 2 ^ lenExtra (257 + i) := by decide

/-- The rows of the distance table follow each other without a gap (R194). -/
theorem distBase_rows : ∀ t < 29, distBaseTable.getD (t + 1) 0 ≤
    distBaseTable.getD t 0 + 2 ^ distExtra t := by decide

theorem litLenInstr_isSome {s : Nat} (h1 : 257 ≤ s) (h2 : s ≤ 285) (e : Nat) :
    ∃ i, litLenInstr s e = some i := by
  interval_cases s <;> exact ⟨_, rfl⟩

theorem distInstr_isSome {t : Nat} (h : t ≤ 29) (e : Nat) : ∃ i, distInstr t e = some i := by
  interval_cases t <;> exact ⟨_, rfl⟩

/-- The length symbol of every length, with an extra value its field admits. -/
theorem lengthInstr_spec {n : Nat} (h1 : 3 ≤ n) (h2 : n ≤ 258) :
    ∃ i sym e, lengthInstr n = some i ∧ litLenSym i = some (sym, e) ∧ 257 ≤ sym ∧ sym ≤ 285 ∧
      ¬(sym = 284 ∧ e = 31) ∧ lenBaseTable.getD (sym - 257) 0 + e = n ∧ (n = 258 → sym = 285) := by
  obtain ⟨r, hrow, hr, hbase, hlast⟩ := exists_rowFor (bases := lenBaseTable) (by decide) h1
  have hr' : r ≤ 28 := Nat.le_of_lt_succ hr
  have he : n - lenBaseTable.getD r 0 < 2 ^ lenExtra (257 + r) := by
    rcases Nat.eq_or_lt_of_le hr' with rfl | hlt
    · have : lenBaseTable.getD 28 0 = 258 := rfl
      rw [this, Nat.sub_eq_zero_of_le h2]
      decide
    · have := hlast (r + 1) (Nat.lt_succ_self r) (Nat.succ_lt_succ hlt)
      have := lenBase_rows r hlt
      omega
  obtain ⟨i, hi⟩ := litLenInstr_isSome (s := 257 + r) (by omega) (by omega)
    (n - lenBaseTable.getD r 0)
  refine ⟨i, 257 + r, n - lenBaseTable.getD r 0, ?_, litLenSym_of_litLenInstr hi he, by omega,
    by omega, ?_, ?_, ?_⟩
  · rw [lengthInstr, hrow]
    exact hi
  · rintro ⟨h27, h31⟩
    obtain rfl : r = 27 := by omega
    have hbase27 : lenBaseTable.getD 27 0 = 227 := rfl
    have := hlast 28 (by decide) (by decide)
    have hbase28 : lenBaseTable.getD 28 0 = 258 := rfl
    omega
  · rw [Nat.add_sub_cancel_left]
    omega
  · rintro rfl
    rcases Nat.eq_or_lt_of_le hr' with rfl | hlt
    · rfl
    · exact absurd (hlast 28 hlt (by decide)) (by decide)

/-- The distance symbol of every distance, with an extra value its field admits. -/
theorem distanceInstr_spec {n : Nat} (h1 : 1 ≤ n) (h2 : n ≤ 32768) :
    ∃ j t e, distanceInstr n = some j ∧ distSym j = some (t, e) ∧ t ≤ 29 ∧
      distBaseTable.getD t 0 + e = n := by
  obtain ⟨t, hrow, ht, hbase, hlast⟩ := exists_rowFor (bases := distBaseTable) (by decide) h1
  have ht' : t ≤ 29 := Nat.le_of_lt_succ ht
  have he : n - distBaseTable.getD t 0 < 2 ^ distExtra t := by
    rcases Nat.eq_or_lt_of_le ht' with rfl | hlt
    · have hb : distBaseTable.getD 29 0 = 24577 := rfl
      have hx : distExtra 29 = 13 := rfl
      rw [hb, hx]
      omega
    · have := hlast (t + 1) (Nat.lt_succ_self t) (Nat.succ_lt_succ hlt)
      have := distBase_rows t hlt
      omega
  obtain ⟨j, hj⟩ := distInstr_isSome ht' (n - distBaseTable.getD t 0)
  refine ⟨j, t, _, ?_, distSym_of_distInstr hj he, ht', Nat.add_sub_cancel' hbase⟩
  rw [distanceInstr, hrow]
  exact hj

/-- Settles O14: the row of the table that holds the value gives the symbol, and the rows leave no
gap, so the rest fits the extra field. -/
theorem matchNotationCoversEveryPair : Obligations.MatchNotationCoversEveryPair := by
  intro length distance hl1 hl2 hd1 hd2
  obtain ⟨i, sym, e, hi, hsym, h1, h2, h3, hlen, h258⟩ := lengthInstr_spec hl1 hl2
  obtain ⟨j, t, e2, hj, htsym, ht, hdist⟩ := distanceInstr_spec hd1 hd2
  refine ⟨i, j, sym, e, t, e2, ?_, hsym, h1, h2, h3, hlen, h258, htsym, ht, hdist⟩
  rw [expandMatch, if_pos ⟨hl1, hl2, hd1, hd2⟩, hi, hj]

end Sys2Proof.Machine
end

section
/-! Proofs for single steps: the window memory (20_memory.md), the host commands (46_host_interface.md),
the element a step runs (42_decode_fsm.md), the dynamic header, and the two parts of a match
(43_symbol_decoder.md). -/

namespace Sys2Proof.Machine

/-! ### The window memory (R14, R53) -/

theorem Memory.read_write_same (m : Memory) (a : Nat) (b : Byte) :
    Memory.read (Memory.write m a b) a = some b := by
  induction m with
  | nil => simp [Memory.write, Memory.read]
  | cons c m ih =>
    obtain ⟨x, d⟩ := c
    unfold Memory.write
    split
    · simp [Memory.read]
    · split
      · simp [Memory.read]
      · next hne => simp [Memory.read, Ne.symm hne, ih]

theorem Memory.read_write_of_ne (m : Memory) {a a' : Nat} (b : Byte) (h : a' ≠ a) :
    Memory.read (Memory.write m a b) a' = Memory.read m a' := by
  induction m with
  | nil => simp [Memory.write, Memory.read, Ne.symm h]
  | cons c m ih =>
    obtain ⟨x, d⟩ := c
    unfold Memory.write
    split
    · simp [Memory.read, Ne.symm h]
    · split
      · next heq => simp [Memory.read, ← heq, Ne.symm h]
      · simp [Memory.read, ih]

/-- Settles O43: by induction over the cells before the one written. -/
theorem windowMemory : Obligations.WindowMemory := fun m a b =>
  ⟨Memory.read_write_same m a b, fun _ h => Memory.read_write_of_ne m b h⟩

/-- After one more byte the address of distance 1 is the one just written. -/
theorem windowSource_succ_one (wp : BitVec 15) : windowSource (wp + 1) 1 = wp.toNat := by
  have := wp.isLt
  have hone : (1 : BitVec 15).toNat = 1 := rfl
  simp only [windowSource, Config.window, BitVec.toNat_add, hone]
  omega

/-- After one more byte every other byte is one further back. -/
theorem windowSource_succ (wp : BitVec 15) {d : Nat} (h : d < 32768) :
    windowSource (wp + 1) (d + 1) = windowSource wp d := by
  have := wp.isLt
  have hone : (1 : BitVec 15).toNat = 1 := rfl
  simp only [windowSource, Config.window, BitVec.toNat_add, hone]
  omega

/-- The bytes at distances 1 to 32767 do not stand where the next one is written. -/
theorem windowSource_ne (wp : BitVec 15) {d : Nat} (h1 : 1 ≤ d) (h2 : d < 32768) :
    windowSource wp d ≠ wp.toNat := by
  have := wp.isLt
  simp only [windowSource, Config.window]
  omega

/-- The window read after one more byte `b` (R53). -/
theorem read_window_write_one (m : Memory) (wp : BitVec 15) (b : Byte) :
    Memory.read (Memory.write m wp.toNat b) (windowSource (wp + 1) 1) = some b := by
  rw [windowSource_succ_one, Memory.read_write_same]

theorem read_window_write_succ (m : Memory) (wp : BitVec 15) (b : Byte) {d : Nat} (h1 : 1 ≤ d)
    (h2 : d < 32768) : Memory.read (Memory.write m wp.toNat b) (windowSource (wp + 1) (d + 1)) =
      Memory.read m (windowSource wp d) := by
  rw [windowSource_succ wp h2, Memory.read_write_of_ne m b (windowSource_ne wp h1 h2)]

/-- Settles O44: `emit` writes at `wp` and moves it on. -/
theorem windowHoldsTheLastBytes : Obligations.WindowHoldsTheLastBytes := by
  intro b s t h
  obtain ⟨c, -, -, rfl⟩ := emit_next.mp h
  exact ⟨read_window_write_one _ _ b, fun _ h1 h2 => read_window_write_succ _ _ b h1 h2⟩

/-! ### Steps with no call in progress (R261, R262) -/

theorem step_of_command {s : State} {t : Transaction} {rest : List Transaction} {i : Instr}
    (hcall : s.call = none) (hcmds : s.cmds = t :: rest) (hi : decodeCommand t = some i) :
    step s = exec i { s with cmds := rest } := by
  simp [step, fetch, nextCommand, hcall, hcmds, hi]

theorem step_of_refused {s : State} {t : Transaction} {rest : List Transaction}
    (hcall : s.call = none) (hcmds : s.cmds = t :: rest) (hi : decodeCommand t = none) :
    step s = .next (respond .refused { s with cmds := rest }) := by
  simp [step, fetch, nextCommand, hcall, hcmds, hi]

theorem step_of_idle {s : State} (hcall : s.call = none) (hcmds : s.cmds = []) :
    step s = .next s := by
  simp [step, fetch, nextCommand, hcall, hcmds]

/-- Settles O17: the two cases of the port. -/
theorem stepRunsTheNextCommand : Obligations.StepRunsTheNextCommand :=
  ⟨fun _ _ _ _ hcall hcmds hi => step_of_command hcall hcmds hi,
    fun _ hcall hcmds => step_of_idle hcall hcmds⟩

/-- Settles O22: the reset values of R37 are those of `State.resetTo`. -/
theorem resetSetsTheRegisters : Obligations.ResetSetsTheRegisters := fun cfg wrap s =>
  ⟨_, rfl, rfl, rfl, rfl, rfl, rfl, rfl, rfl, rfl, rfl, rfl, rfl, rfl, rfl,
    by cases wrap <;> rfl, rfl, rfl, rfl, rfl, rfl, rfl, rfl⟩

theorem execAdvance_of_error {s : State} (h : s.phase = .error) (inp out : List Byte) (off : Nat)
    (eoi : Bool) :
    execAdvance inp out off eoi s = .next (respond (.advanced s.err 0 0 out) s) :=
  if_pos h

theorem execAdvance_of_done {s : State} (h : s.phase = .done) (inp out : List Byte) (off : Nat)
    (eoi : Bool) :
    execAdvance inp out off eoi s = .next (respond (.advanced statusOk 0 0 out) s) := by
  rw [execAdvance, if_neg (by simp [h]), if_pos h]

theorem execAdvance_of_off {s : State} (he : s.phase ≠ .error) (hd : s.phase ≠ .done)
    {inp out : List Byte} {off : Nat} (h : out.length < off) (eoi : Bool) :
    execAdvance inp out off eoi s = .next (respond .refused s) := by
  rw [execAdvance, if_neg he, if_neg hd, if_pos h]

theorem execAdvance_of_le {s : State} (he : s.phase ≠ .error) (hd : s.phase ≠ .done)
    {inp out : List Byte} {off : Nat} (h : off ≤ out.length) (eoi : Bool) :
    execAdvance inp out off eoi s = .next (beginCall inp out off eoi s) := by
  rw [execAdvance, if_neg he, if_neg hd, if_neg (Nat.not_lt_of_le h)]

/-- Settles O23: the tests of ADVANCE in their order. -/
theorem advanceSetsUpTheCall : Obligations.AdvanceSetsUpTheCall := fun inp out off eoi _ =>
  ⟨fun he hd h => execAdvance_of_le he hd h eoi, fun h => execAdvance_of_error h inp out off eoi,
    fun h => execAdvance_of_done h inp out off eoi, fun he hd h => execAdvance_of_off he hd h eoi⟩

/-- Settles O47: after RESET nothing is pending, no byte is in the history and no call runs. -/
theorem resetMeetsTheInvariant : Obligations.ResetMeetsTheInvariant := by
  intro cfg wrap cmds resps
  constructor
  case bits => exact ⟨by simp, by simp⟩
  case window => exact ⟨rfl, by simp, by simp, fun d h1 h2 => by simp at h2; omega⟩
  case call => intro c hc; cases hc
  case err => cases wrap <;> simp [ErrOk]
  case phase => cases wrap <;> simp [PhaseOk]

/-! ### The element a step runs (R164, R263) -/

/-- A step runs the element that its run of peeks reads. -/
theorem step_of_fetchLoop_got {s t : State} {c : Call} {x : ElemCtx} {i : Instr}
    (hcall : s.call = some c) (hx : expected c s = some x)
    (h : fetchLoop (decodeElem x) (c.inp.drop c.ip) s = .got i t) : step s = exec i t := by
  simp only [step, fetch, hcall, hx, readElem, probe_of_call hcall, h]

/-- A step whose run of peeks ends the call is that end. -/
theorem step_of_fetchLoop_ended {s : State} {c : Call} {x : ElemCtx} {o : Outcome}
    (hcall : s.call = some c) (hx : expected c s = some x)
    (h : fetchLoop (decodeElem x) (c.inp.drop c.ip) s = .ended o) : step s = o := by
  simp only [step, fetch, hcall, hx, readElem, probe_of_call hcall, h]

theorem step_of_got {s : State} {c : Call} {x : ElemCtx} {i : Instr} (hcall : s.call = some c)
    (hx : expected c s = some x) (hi : decodeElem x s.acc.toNat s.nb.toNat = .got i) :
    step s = exec i s :=
  step_of_fetchLoop_got hcall hx (fetchLoop_of_got hi _)

/-- Settles O18: with the element known the run of peeks ends at once. -/
theorem stepRunsTheDecodedElement : Obligations.StepRunsTheDecodedElement :=
  fun _ _ _ _ hcall hx hi => step_of_got hcall hx hi

theorem step_of_bad {s : State} {c : Call} {x : ElemCtx} {e : Err} (hcall : s.call = some c)
    (hx : expected c s = some x) (he : decodeElem x s.acc.toNat s.nb.toNat = .bad e) :
    step s = raise e s :=
  step_of_fetchLoop_ended hcall hx (by cases c.inp.drop c.ip <;> simp [fetchLoop, he])

theorem step_of_needMore_nil {s : State} {c : Call} {x : ElemCtx} (hcall : s.call = some c)
    (hx : expected c s = some x) (hn : decodeElem x s.acc.toNat s.nb.toNat = .needMore)
    (hend : c.inp.drop c.ip = []) : step s = shortage s :=
  step_of_fetchLoop_ended hcall hx (by rw [hend, fetchLoop_nil_of_needMore hn])

theorem step_of_needMore_cons {s : State} {c : Call} {x : ElemCtx} {b : Byte}
    (hcall : s.call = some c) (hx : expected c s = some x)
    (hn : decodeElem x s.acc.toNat s.nb.toNat = .needMore) (hb : c.inp[c.ip]? = some b) :
    step s = step (fetchByte b s) := by
  obtain ⟨hlt, rfl⟩ := List.getElem?_eq_some_iff.mp hb
  have hcall' : (fetchByte c.inp[c.ip] s).call = some { c with ip := c.ip + 1 } := by simp [hcall]
  have hx' : expected { c with ip := c.ip + 1 } (fetchByte c.inp[c.ip] s) = some x := hx
  have hloop : fetchLoop (decodeElem x) (c.inp.drop c.ip) s =
      fetchLoop (decodeElem x) (c.inp.drop (c.ip + 1)) (fetchByte c.inp[c.ip] s) := by
    rw [List.drop_eq_getElem_cons hlt]
    simp [fetchLoop, hn]
  cases h : fetchLoop (decodeElem x) (c.inp.drop c.ip) s with
  | got i t =>
    rw [step_of_fetchLoop_got hcall hx h, step_of_fetchLoop_got hcall' hx' (hloop.symm.trans h)]
  | ended o =>
    rw [step_of_fetchLoop_ended hcall hx h,
      step_of_fetchLoop_ended hcall' hx' (hloop.symm.trans h)]

/-- Settles O19: one turn of the run of peeks for each thing a peek can answer. -/
theorem stepFetchesOnDemand : Obligations.StepFetchesOnDemand := by
  intro s c x hcall hx _
  refine ⟨fun hn => ⟨fun b hb => step_of_needMore_cons hcall hx hn hb, fun hend => ?_⟩,
    fun e he => step_of_bad hcall hx he⟩
  rw [step_of_needMore_nil hcall hx hn (by rw [hend, List.drop_length]), shortage_of_call hcall]

/-- In STORED_COPY a step reads no element through `acc`. -/
theorem fetch_of_storedCopy {s : State} {c : Call} (hcall : s.call = some c)
    (hphase : s.phase = .storedCopy) : fetch s = readStored c s := by
  simp only [fetch, hcall, expected, transfer, hphase]

theorem step_of_stRem_eq_zero {s : State} {c : Call} (hcall : s.call = some c)
    (hphase : s.phase = .storedCopy) (hrem : s.stRem = 0) : step s = .next (endBlock s) := by
  rw [step, fetch_of_storedCopy hcall hphase, readStored, if_pos hrem]

theorem step_of_stored_byte {s : State} {c : Call} {b : Byte} (hcall : s.call = some c)
    (hphase : s.phase = .storedCopy) (hrem : s.stRem ≠ 0) (hb : c.inp[c.ip]? = some b) :
    step s = exec (.sdata b) s := by
  rw [step, fetch_of_storedCopy hcall hphase, readStored, if_neg hrem, hb]

theorem step_of_stored_end {s : State} {c : Call} (hcall : s.call = some c)
    (hphase : s.phase = .storedCopy) (hrem : s.stRem ≠ 0) (hb : c.inp[c.ip]? = none) :
    step s = shortage s := by
  rw [step, fetch_of_storedCopy hcall hphase, readStored, if_neg hrem, hb]

/-- Settles O20: the cases of the stored copy up to its byte. -/
theorem stepRunsTheStoredByte : Obligations.StepRunsTheStoredByte := fun _ _ hcall hphase =>
  ⟨step_of_stRem_eq_zero hcall hphase, fun hrem =>
    ⟨fun _ hb => step_of_stored_byte hcall hphase hrem hb, fun hb =>
      (step_of_stored_end hcall hphase hrem hb).trans (shortage_of_call hcall)⟩⟩

/-! ### The trailer (R245) -/

theorem trailerValue_toNat (b0 b1 b2 b3 : Byte) : (trailerValue b0 b1 b2 b3).toNat =
    b0.toNat * 2 ^ 24 + b1.toNat * 2 ^ 16 + b2.toNat * 2 ^ 8 + b3.toNat := by
  simp only [trailerValue, toNat_append]
  ring

theorem execTrailer_of_ok {b0 b1 b2 b3 : Byte} {s : State}
    (h : s.ignoreCk = true ∨ trailerValue b0 b1 b2 b3 = s.ck) (hbits : 32 ≤ s.nb.toNat) :
    execTrailer b0 b1 b2 b3 s = .next { s with
      acc := s.acc >>> 32, nb := s.nb - 32, phase := .done } := by
  have hok : ¬ (s.ignoreCk = false ∧ trailerValue b0 b1 b2 b3 ≠ s.ck) := by
    rintro ⟨hi, hne⟩
    rcases h with h | h
    · simp [hi] at h
    · exact hne h
  rw [execTrailer, if_neg hok, consume_of_le hbits, andThen_of_next]
  rfl

theorem execTrailer_of_mismatch {b0 b1 b2 b3 : Byte} {s : State} (hi : s.ignoreCk = false)
    (h : trailerValue b0 b1 b2 b3 ≠ s.ck) :
    execTrailer b0 b1 b2 b3 s = raise .checksumMismatch s :=
  if_pos ⟨hi, h⟩

/-- Settles O27: the trailer is compared as a number, most significant byte first. -/
theorem zlibTrailer : Obligations.ZlibTrailer := by
  intro b0 b1 b2 b3 s
  simp only [← trailerValue_toNat]
  exact ⟨fun h hbits => execTrailer_of_ok (h.imp id BitVec.eq_of_toNat_eq) hbits,
    fun hi h => execTrailer_of_mismatch hi fun heq => h (congrArg BitVec.toNat heq)⟩

/-! ### The dynamic header (R154, R155) -/

theorem execDhdr_of_ok {hl hd : BitVec 5} {hc : BitVec 4} {s : State} (h1 : hl.toNat + 257 ≤ 286)
    (h2 : hd.toNat + 1 ≤ 30) (hbits : 14 ≤ s.nb.toNat) :
    execDhdr hl hd hc s = .next { s with
      acc := s.acc >>> 14, nb := s.nb - 14
      hlit := BitVec.ofNat 9 (hl.toNat + 257)
      hdist := BitVec.ofNat 5 (hd.toNat + 1)
      hclen := BitVec.ofNat 5 (hc.toNat + 4)
      clLen := Vector.replicate 19 0, clIdx := 0, phase := .dynClLens } := by
  rw [execDhdr, if_neg (by omega), consume_of_le hbits, andThen_of_next]
  rfl

theorem execDhdr_of_bad {hl hd : BitVec 5} (h : hl.toNat + 257 > 286 ∨ hd.toNat + 1 > 30)
    (hc : BitVec 4) (s : State) : execDhdr hl hd hc s = raise .malformedHuffmanTable s :=
  if_pos h

/-- Settles O31: the limits of R154 decide. -/
theorem dynamicHeader : Obligations.DynamicHeader := fun _ _ hc s =>
  ⟨execDhdr_of_ok, fun h => execDhdr_of_bad h hc s⟩

theorem execCll_of_more {v : BitVec 3} {s : State} (h : s.clIdx.toNat + 1 ≠ s.hclen.toNat)
    (hbits : 3 ≤ s.nb.toNat) :
    execCll v s = .next { s with
      acc := s.acc >>> 3, nb := s.nb - 3, clLen := setClLen s v, clIdx := s.clIdx + 1 } := by
  rw [execCll, if_neg (fun hc => h hc.1), consume_of_le hbits, andThen_of_next, if_neg h]
  rfl

theorem execCll_of_last {v : BitVec 3} {s : State} (h : s.clIdx.toNat + 1 = s.hclen.toNat)
    (hok : clAccepted (lengthsOf (setClLen s v)) = true) (hbits : 3 ≤ s.nb.toNat) :
    execCll v s = .next { s with
      acc := s.acc >>> 3, nb := s.nb - 3, clLen := setClLen s v, clIdx := s.clIdx + 1
      dynIdx := 0, phase := .dynLens } := by
  rw [execCll, if_neg (by simp [hok]), consume_of_le hbits, andThen_of_next, if_pos h]
  rfl

theorem execCll_of_bad {v : BitVec 3} {s : State} (h : s.clIdx.toNat + 1 = s.hclen.toNat)
    (hbad : clAccepted (lengthsOf (setClLen s v)) = false) :
    execCll v s = raise .malformedHuffmanTable s :=
  if_pos ⟨h, hbad⟩

theorem setClLen_of_lt {s : State} (h : s.clIdx.toNat < 19) (v : BitVec 3) :
    setClLen s v = s.clLen.setIfInBounds (clOrder.getD s.clIdx.toNat 0) v := by
  have hlt : s.clIdx.toNat < clOrder.length := h
  simp [setClLen, List.getD_eq_getElem?_getD, List.getElem?_eq_getElem hlt]

/-- Settles O32: the three cases of CLL; a code is accepted when its Kraft sum is 2^15. -/
theorem codeLengthCodeLength : Obligations.CodeLengthCodeLength := by
  intro v s h19
  simp only [← setClLen_of_lt h19]
  exact ⟨execCll_of_more, fun h hok => execCll_of_last h (decide_eq_true hok),
    fun h hbad => execCll_of_bad h (decide_eq_false hbad)⟩

/-! ### The code lengths (R156 to R161) -/

theorem fillRun_getElem {n : Nat} (x : Vector (BitVec 4) n) (j r : Nat) (v : BitVec 4) {i : Nat}
    (hi : i < n) : (fillRun x j r v)[i] = if j ≤ i ∧ i < j + r then v else x[i] := by
  induction r generalizing x j with
  | zero => simp [fillRun]
  | succ r ih =>
    rw [fillRun, ih, Vector.getElem_setIfInBounds]
    by_cases hj : j = i
    · subst hj
      simp
    · have hrange : (j + 1 ≤ i ∧ i < j + 1 + r) ↔ (j ≤ i ∧ i < j + (r + 1)) := by omega
      simp only [hrange, if_neg hj]

theorem litLenLengths_getElem (lens : Vector (BitVec 4) 316) {hlit i : Nat}
    (hi : i < 288) : (litLenLengths lens hlit)[i] = if i < hlit then lens[i] else 0 := by
  have hlt : i < 316 := by omega
  by_cases h : i < hlit <;> simp [litLenLengths, List.getElem_append, h, hlt, -List.reduceReplicate]

theorem distLengths_getElem (lens : Vector (BitVec 4) 316) {hlit hdist i : Nat}
    (hlit_le : hlit ≤ 286) (hdist_le : hdist ≤ 30) (hi : i < 32) :
    (distLengths lens hlit hdist)[i] =
      if i < hdist then lens.toList.getD (hlit + i) 0 else 0 := by
  by_cases h : i < hdist
  · have hlt : hlit + i < 316 := by omega
    have hdrop : i < 316 - hlit := by omega
    simp [distLengths, h, hlt, hdrop, -List.reduceReplicate]
  · simp [distLengths, List.getElem_append, h, -List.reduceReplicate]

/-- A run that ends before the total is committed (R156). -/
theorem applyRun_of_inside {r u : Nat} {val : BitVec 4} {s : State}
    (h : s.dynIdx.toNat + r ≠ lengthTotal s) (hbits : u ≤ s.nb.toNat) :
    applyRun r val u s = .next { s with
      acc := s.acc >>> u, nb := s.nb - BitVec.ofNat 6 u
      lens := runLens r val s, dynIdx := BitVec.ofNat 9 (s.dynIdx.toNat + r) } := by
  rw [applyRun, if_neg (fun hc => h hc.1), consume_of_le hbits, andThen_of_next, if_neg h]

/-- A run that reaches the total installs both codes (R161). -/
theorem applyRun_of_end {r u : Nat} {val : BitVec 4} {s : State}
    (h : s.dynIdx.toNat + r = lengthTotal s) (hok : endChecksOk (runLens r val s) s = true)
    (hbits : u ≤ s.nb.toNat) :
    applyRun r val u s = .next { s with
      acc := s.acc >>> u, nb := s.nb - BitVec.ofNat 6 u
      lens := runLens r val s, dynIdx := BitVec.ofNat 9 (s.dynIdx.toNat + r)
      codeLL := newCodeLL (runLens r val s) s, codeD := newCodeD (runLens r val s) s
      phase := .symbolLoop } := by
  rw [applyRun, if_neg (by simp [hok]), consume_of_le hbits, andThen_of_next, if_pos h]

theorem applyRun_of_bad {r : Nat} {val : BitVec 4} {s : State}
    (h : s.dynIdx.toNat + r = lengthTotal s) (hbad : endChecksOk (runLens r val s) s = false)
    (u : Nat) : applyRun r val u s = raise .malformedHuffmanTable s :=
  if_pos ⟨h, hbad⟩

theorem applyRepeat_of_le {r : Nat} {s : State} (h : s.dynIdx.toNat + r ≤ lengthTotal s)
    (val : BitVec 4) (u : Nat) : applyRepeat r val u s = applyRun r val u s :=
  if_neg (Nat.not_lt_of_le h)

theorem applyRepeat_of_gt {r : Nat} {s : State} (h : lengthTotal s < s.dynIdx.toNat + r)
    (val : BitVec 4) (u : Nat) : applyRepeat r val u s = raise .malformedHuffmanTable s :=
  if_pos h

theorem execClsym16_of_zero {s : State} (h : s.dynIdx = 0) (e : BitVec 2) :
    execClsym16 e s = raise .malformedHuffmanTable s :=
  if_pos h

theorem execClsym16_of_ne_zero {s : State} (h : s.dynIdx ≠ 0) (e : BitVec 2) :
    execClsym16 e s = applyRepeat (3 + e.toNat) (previousLength s) (clWidth s 16 + 2) s :=
  if_neg h

/-- A code-length symbol with a run that ends by the total is that run. -/
theorem exec_of_runOf {i : Instr} {r u : Nat} {val : BitVec 4} {s : State}
    (hrun : runOf s i = some (r, val, u)) (hprev : s.dynIdx = 0 → ∀ e, i ≠ .clsym16 e)
    (hle : s.dynIdx.toNat + r ≤ lengthTotal s) : exec i s = applyRun r val u s := by
  cases i
  case clsymLen sym => cases hrun; rfl
  case clsym16 e =>
    cases hrun
    exact (execClsym16_of_ne_zero (fun h => hprev h e rfl) e).trans (applyRepeat_of_le hle _ _)
  case clsym17 e => cases hrun; exact applyRepeat_of_le hle _ _
  case clsym18 e => cases hrun; exact applyRepeat_of_le hle _ _
  all_goals cases hrun

/-- Settles O33: the run of the symbol, and the lengths it leaves. -/
theorem runOfLengthsInside : Obligations.RunOfLengthsInside := by
  intro i r val u s hrun hprev hlt _ hbits
  have hle : s.dynIdx.toNat + r ≤ lengthTotal s := Nat.le_of_lt hlt
  exact ⟨runLens r val s, (exec_of_runOf hrun hprev hle).trans
    (applyRun_of_inside (Nat.ne_of_lt hlt) hbits), fun n => fillRun_getElem _ _ _ _ n.isLt⟩

/-- Settles O34: the run that reaches the total, with the two codes cut out of the lengths. -/
theorem runOfLengthsAtTheEnd : Obligations.RunOfLengthsAtTheEnd := by
  intro i r val u s hrun hprev htot hlit hdist hbits
  have hexec := exec_of_runOf hrun hprev (Nat.le_of_eq htot)
  refine ⟨runLens r val s, newCodeLL (runLens r val s) s, newCodeD (runLens r val s) s,
    fun n => fillRun_getElem _ _ _ _ n.isLt, fun n => litLenLengths_getElem _ n.isLt,
    fun n => distLengths_getElem _ hlit hdist n.isLt, fun hll hd => ?_, fun hbad => ?_⟩
  · exact hexec.trans (applyRun_of_end htot (by simp [endChecksOk, hll, hd]) hbits)
  · refine hexec.trans (applyRun_of_bad htot ?_ u)
    rw [endChecksOk, Bool.and_eq_false_iff]
    exact hbad

/-- Settles O35: each of the four by the test of its meaning. -/
theorem badRepeatsRaise : Obligations.BadRepeatsRaise := by
  refine fun s => ⟨fun e h => execClsym16_of_zero h e, fun e h => ?_,
    fun e h => applyRepeat_of_gt h _ _, fun e h => applyRepeat_of_gt h _ _⟩
  by_cases h0 : s.dynIdx = 0
  · exact execClsym16_of_zero h0 e
  · exact (execClsym16_of_ne_zero h0 e).trans (applyRepeat_of_gt h _ _)

/-! ### Length and distance symbols (R193 to R195) -/

/-- Every length symbol but 284 with extra value 31 is the length part of its element. -/
theorem exec_of_length {i : Instr} {sym e : Nat} (h : litLenSym i = some (sym, e))
    (h1 : 257 ≤ sym) (h2 : sym ≤ 285) (h3 : ¬(sym = 284 ∧ e = 31)) (s : State) :
    exec i s = lengthPart sym e s := by
  cases i
  case lit b =>
    cases h
    have := b.isLt
    omega
  case len284 x =>
    cases h
    exact if_neg fun hx => h3 ⟨rfl, by rw [hx]; rfl⟩
  case eob => cases h; omega
  case llInvalid286 => cases h; omega
  case llInvalid287 => cases h; omega
  all_goals cases h
  all_goals rfl

/-- Every distance symbol 0..29 is the distance part of its element. -/
theorem exec_of_distance {i : Instr} {sym e : Nat} (h : distSym i = some (sym, e))
    (h1 : sym ≤ 29) (s : State) : exec i s = distancePart sym e s := by
  cases i
  case distInvalid30 => cases h; omega
  case distInvalid31 => cases h; omega
  all_goals cases h
  all_goals rfl

theorem lengthPart_of_call {s : State} {c : Call} (hcall : s.call = some c) (sym e : Nat) :
    lengthPart sym e s = .next { s with call := some { c with
      pend := some ⟨BitVec.ofNat 9 (lenBase sym + e), llWidth s sym + lenExtra sym⟩ } } :=
  lengthPart_next.mpr ⟨c, hcall, rfl⟩

theorem lenExtra_of_le {sym : Nat} (h : 257 ≤ sym) :
    lenExtra sym = lenExtraTable.getD (sym - 257) 0 :=
  if_neg (Nat.not_lt_of_le h)

/-- Settles O38: base and extra width are the rows of the tables of R193. -/
theorem lengthSymbols : Obligations.LengthSymbols := by
  intro i sym e s c hi h1 h2 h3 hcall
  rw [exec_of_length hi h1 h2 h3, lengthPart_of_call hcall, lenExtra_of_le h1]
  rfl

theorem distancePart_of_le {s : State} {c : Call} {p : PendingLength} {sym e : Nat}
    (hcall : s.call = some c) (hpend : c.pend = some p) (hdist : distBase sym + e ≤ s.hist.toNat)
    (hbits : p.used + distWidth s sym + distExtra sym ≤ s.nb.toNat) :
    distancePart sym e s = .next { s with
      acc := s.acc >>> (p.used + distWidth s sym + distExtra sym)
      nb := s.nb - BitVec.ofNat 6 (p.used + distWidth s sym + distExtra sym)
      call := some { c with pend := none }
      brLen := p.length
      brDist := BitVec.ofNat 16 (distBase sym + e)
      phase := .backReference } := by
  simp only [distancePart, hcall, hpend, if_neg (Nat.not_lt_of_le hdist), consume_of_le hbits,
    andThen_of_next, dropPending, Option.map_some]

theorem distancePart_of_gt {s : State} {c : Call} {p : PendingLength} {sym e : Nat}
    (hcall : s.call = some c) (hpend : c.pend = some p) (hdist : s.hist.toNat < distBase sym + e) :
    distancePart sym e s = raise .invalidDistance s := by
  simp only [distancePart, hcall, hpend, if_pos hdist]

/-- Settles O39: the test of the distance against `hist` decides. -/
theorem distanceSymbols : Obligations.DistanceSymbols := by
  intro i sym e s c p hi h1 hcall hpend
  rw [exec_of_distance hi h1]
  exact ⟨distancePart_of_le hcall hpend, fun h =>
    (distancePart_of_gt hcall hpend h).trans (raise_of_call hcall)⟩

/-- A distance symbol right after its length symbol: nothing of the call is left changed. -/
theorem distancePart_after_length {s : State} {c : Call} (hcall : s.call = some c)
    (hpend : c.pend = none) {p : PendingLength} {t e : Nat} (hdist : distBase t + e ≤ s.hist.toNat)
    (hbits : p.used + distWidth s t + distExtra t ≤ s.nb.toNat) :
    distancePart t e { s with call := some { c with pend := some p } } = .next { s with
      acc := s.acc >>> (p.used + distWidth s t + distExtra t)
      nb := s.nb - BitVec.ofNat 6 (p.used + distWidth s t + distExtra t)
      brLen := p.length
      brDist := BitVec.ofNat 16 (distBase t + e)
      phase := .backReference } := by
  have hc : s.call = some { c with pend := none } := by rw [hcall, ← hpend]
  refine (distancePart_of_le (s := { s with call := some { c with pend := some p } })
    (c := { c with pend := some p }) rfl rfl hdist hbits).trans ?_
  rw [hc]
  rfl

/-- Settles O40: the distance part finds the length part in progress and commits both. -/
theorem matchStartsTheBackReference : Obligations.MatchStartsTheBackReference := by
  intro i j sym e t e2 s c hi h1 h2 h3 hj ht hcall hpend u hbits hdist
  rw [exec_of_length hi h1 h2 h3, lengthPart_of_call hcall, andThen_of_next, exec_of_distance hj ht,
    lenExtra_of_le h1]
  exact distancePart_after_length hcall hpend hdist hbits

end Sys2Proof.Machine
end

section
/-! The step of a call as rules (42_decode_fsm.md section 5, 46_host_interface.md): what an element
commits, what it refuses, how a call ends, and that a step inside a call is one of these moves. -/

namespace Sys2Proof.Machine

/-! ### What a step does beside the registers -/

/-- The state after `consume(n)` (R107). -/
def taken (n : Nat) (s : State) : State :=
  { s with acc := s.acc >>> n, nb := s.nb - BitVec.ofNat 6 n }

theorem consume_eq_taken {n : Nat} {s : State} (h : n ≤ s.nb.toNat) :
    consume n s = .next (taken n s) :=
  consume_of_le h

/-- What a step that stays in its call does to the call and to the output: nothing, a change of the
element in progress, or one byte emitted. -/
inductive Effect where
  | quiet
  | pend (q : Option PendingLength)
  | byte (b : Byte)
deriving DecidableEq, Repr

/-- The state after an effect on the call `c`. -/
def Effect.on : Effect → Call → State → State
  | .quiet, c, s => { s with call := some c }
  | .pend q, c, s => { s with call := some { c with pend := q } }
  | .byte b, c, s => { s with
      call := some { c with out := c.out.set (c.off + c.prod) b, prod := c.prod + 1 }
      win := Memory.write s.win s.wp.toNat b
      wp := s.wp + 1
      hist := bumpHist s.hist
      ck := if s.ignoreCk then s.ck else ckFold s.wrap s.ck b }

theorem quiet_on_of_call {c : Call} {s : State} (h : s.call = some c) :
    Effect.quiet.on c s = s := by
  rw [Effect.on, ← h]

theorem next_quiet {o : Outcome} {c : Call} {s : State} (h : o = .next s) (hcall : s.call = some c) :
    o = .next (Effect.quiet.on c s) := by
  rw [quiet_on_of_call hcall, h]

theorem emit_eq_on {b : Byte} {s : State} {c : Call} (hcall : s.call = some c)
    (hroom : c.off + c.prod < c.out.length) : emit b s = .next ((Effect.byte b).on c s) :=
  emit_of_room b hcall hroom

/-- The state after the call `c` has returned `status` (R263, R309): an error is entered, a stall or
the end of the stream leaves the registers. -/
def endCall (status : BitVec 3) (c : Call) (s : State) : State :=
  respond (.advanced status c.ip c.prod c.out) { s with
    call := none
    phase := if status = 0 then s.phase else .error
    err := if status = 0 then s.err else status }

theorem raise_eq_endCall {e : Err} {s : State} {c : Call} (h : s.call = some c) :
    raise e s = .next (endCall e.code c s) := by
  rw [raise_of_call h, endCall, if_neg (code_ne_zero e), if_neg (code_ne_zero e)]

theorem stall_eq_endCall {s : State} {c : Call} (h : s.call = some c) :
    stall s = .next (endCall 0 c s) := by
  rw [stall_of_call h, endCall, if_pos rfl, if_pos rfl]
  rfl

/-- The status of a call that finds no input (R111). -/
def shortStatus (eoi : Bool) : BitVec 3 := if eoi then Err.truncatedInput.code else 0

theorem shortage_eq_endCall {s : State} {c : Call} (h : s.call = some c) :
    shortage s = .next (endCall (shortStatus c.eoi) c s) := by
  rw [shortage_of_call h, shortStatus]
  cases c.eoi with
  | false => exact stall_eq_endCall h
  | true => exact raise_eq_endCall h

/-! ### What an element commits (R150 to R161, R191 to R195, R243 to R245) -/

/-- The run of a code-length symbol is tried: there is a previous length to repeat, and a repeat does
not go past the total (R157 to R160). -/
def RunStarts (s : State) (r : Nat) : Instr → Prop
  | .clsymLen _ => True
  | .clsym16 _ => s.dynIdx ≠ 0 ∧ s.dynIdx.toNat + r ≤ lengthTotal s
  | _ => s.dynIdx.toNat + r ≤ lengthTotal s

/-- `Commit c s i n f t`: run in `s` with the call `c`, the element `i` consumes n bits, leaves the
registers of `t`, and has the effect `f` on the call. -/
inductive Commit (c : Call) (s : State) : Instr → Nat → Effect → State → Prop where
  | zhdr {cmf flg : Byte} (h : headerBad cmf flg = false) :
    Commit c s (.zhdr cmf flg) 16 .quiet { taken 16 s with phase := .blockHeader }
  | blkStored (f : Bool) :
    Commit c s (.blkStored f) 3 .quiet { align (taken 3 s) with final := f, phase := .storedLen }
  | blkFixed (f : Bool) :
    Commit c s (.blkFixed f) 3 .quiet { taken 3 s with
      final := f, codeLL := fixedLL, codeD := fixedD, phase := .symbolLoop }
  | blkDynamic (f : Bool) :
    Commit c s (.blkDynamic f) 3 .quiet { taken 3 s with final := f, phase := .dynHeader }
  | slen {len nlen : BitVec 16} (h : storedLengthOk len nlen = true) :
    Commit c s (.slen len nlen) 32 .quiet { taken 32 s with stRem := len, phase := .storedCopy }
  | dhdr {hl hd : BitVec 5} (hc : BitVec 4) (h1 : hl.toNat + 257 ≤ 286) (h2 : hd.toNat + 1 ≤ 30) :
    Commit c s (.dhdr hl hd hc) 14 .quiet { taken 14 s with
      hlit := BitVec.ofNat 9 (hl.toNat + 257)
      hdist := BitVec.ofNat 5 (hd.toNat + 1)
      hclen := BitVec.ofNat 5 (hc.toNat + 4)
      clLen := Vector.replicate 19 0, clIdx := 0, phase := .dynClLens }
  | cllMore (v : BitVec 3) (h : s.clIdx.toNat + 1 ≠ s.hclen.toNat) :
    Commit c s (.cll v) 3 .quiet { taken 3 s with clLen := setClLen s v, clIdx := s.clIdx + 1 }
  | cllLast {v : BitVec 3} (h : s.clIdx.toNat + 1 = s.hclen.toNat)
      (hok : clAccepted (lengthsOf (setClLen s v)) = true) :
    Commit c s (.cll v) 3 .quiet { taken 3 s with
      clLen := setClLen s v, clIdx := s.clIdx + 1, dynIdx := 0, phase := .dynLens }
  | runInside {i : Instr} {r n : Nat} {val : BitVec 4} (hrun : runOf s i = some (r, val, n))
      (hstart : RunStarts s r i) (h : s.dynIdx.toNat + r ≠ lengthTotal s) :
    Commit c s i n .quiet { taken n s with
      lens := runLens r val s, dynIdx := BitVec.ofNat 9 (s.dynIdx.toNat + r) }
  | runEnd {i : Instr} {r n : Nat} {val : BitVec 4} (hrun : runOf s i = some (r, val, n))
      (hstart : RunStarts s r i) (h : s.dynIdx.toNat + r = lengthTotal s)
      (hok : endChecksOk (runLens r val s) s = true) :
    Commit c s i n .quiet { taken n s with
      lens := runLens r val s, dynIdx := BitVec.ofNat 9 (s.dynIdx.toNat + r)
      codeLL := newCodeLL (runLens r val s) s, codeD := newCodeD (runLens r val s) s
      phase := .symbolLoop }
  | lit (b : Byte) (hroom : c.off + c.prod < c.out.length) :
    Commit c s (.lit b) (llWidth s b.toNat) (.byte b) (taken (llWidth s b.toNat) s)
  | eob : Commit c s .eob (llWidth s 256) .quiet (endBlock (taken (llWidth s 256) s))
  | length {i : Instr} {sym e : Nat} (hsym : litLenSym i = some (sym, e)) (h1 : 257 ≤ sym)
      (h2 : sym ≤ 285) (h3 : ¬(sym = 284 ∧ e = 31)) :
    Commit c s i 0
      (.pend (some ⟨BitVec.ofNat 9 (lenBase sym + e), llWidth s sym + lenExtra sym⟩)) s
  | distance {i : Instr} {p : PendingLength} {sym e : Nat} (hpend : c.pend = some p)
      (hsym : distSym i = some (sym, e)) (h1 : sym ≤ 29) (h2 : distBase sym + e ≤ s.hist.toNat) :
    Commit c s i (p.used + distWidth s sym + distExtra sym) (.pend none)
      { taken (p.used + distWidth s sym + distExtra sym) s with
        brLen := p.length, brDist := BitVec.ofNat 16 (distBase sym + e), phase := .backReference }
  | trailer {b0 b1 b2 b3 : Byte} (h : s.ignoreCk = true ∨ trailerValue b0 b1 b2 b3 = s.ck) :
    Commit c s (.trailer b0 b1 b2 b3) 32 .quiet { taken 32 s with phase := .done }

/-- `Refused c s i e`: run in `s` with the call `c`, the element `i` raises the error `e`. -/
inductive Refused (c : Call) (s : State) : Instr → Err → Prop where
  | zhdr {cmf flg : Byte} (h : headerBad cmf flg = true) :
    Refused c s (.zhdr cmf flg) .malformedHeader
  | blkReserved (f : Bool) : Refused c s (.blkReserved f) .malformedHeader
  | slen {len nlen : BitVec 16} (h : storedLengthOk len nlen ≠ true) :
    Refused c s (.slen len nlen) .malformedStoredLength
  | dhdr {hl hd : BitVec 5} (hc : BitVec 4) (h : hl.toNat + 257 > 286 ∨ hd.toNat + 1 > 30) :
    Refused c s (.dhdr hl hd hc) .malformedHuffmanTable
  | cll {v : BitVec 3} (h : s.clIdx.toNat + 1 = s.hclen.toNat)
      (hbad : clAccepted (lengthsOf (setClLen s v)) = false) :
    Refused c s (.cll v) .malformedHuffmanTable
  | noPrevious (e : BitVec 2) (h : s.dynIdx = 0) : Refused c s (.clsym16 e) .malformedHuffmanTable
  | pastTotal {i : Instr} {r n : Nat} {val : BitVec 4} (hrun : runOf s i = some (r, val, n))
      (hi : ∀ sym, i ≠ .clsymLen sym) (h : lengthTotal s < s.dynIdx.toNat + r) :
    Refused c s i .malformedHuffmanTable
  | runEnd {i : Instr} {r n : Nat} {val : BitVec 4} (hrun : runOf s i = some (r, val, n))
      (hstart : RunStarts s r i) (h : s.dynIdx.toNat + r = lengthTotal s)
      (hbad : endChecksOk (runLens r val s) s = false) : Refused c s i .malformedHuffmanTable
  | len284 : Refused c s (.len284 31) .invalidSymbol
  | llInvalid286 : Refused c s .llInvalid286 .invalidSymbol
  | llInvalid287 : Refused c s .llInvalid287 .invalidSymbol
  | distInvalid30 : Refused c s .distInvalid30 .invalidSymbol
  | distInvalid31 : Refused c s .distInvalid31 .invalidSymbol
  | distance {i : Instr} {p : PendingLength} {sym e : Nat} (hpend : c.pend = some p)
      (hsym : distSym i = some (sym, e)) (h1 : sym ≤ 29) (h2 : s.hist.toNat < distBase sym + e) :
    Refused c s i .invalidDistance
  | trailer {b0 b1 b2 b3 : Byte} (hi : s.ignoreCk = false)
      (h : trailerValue b0 b1 b2 b3 ≠ s.ck) :
    Refused c s (.trailer b0 b1 b2 b3) .checksumMismatch

/-- A run that is tried is the run of its symbol. -/
theorem exec_of_runStarts {i : Instr} {r n : Nat} {val : BitVec 4} {s : State}
    (hrun : runOf s i = some (r, val, n)) (hstart : RunStarts s r i) :
    exec i s = applyRun r val n s := by
  cases i
  case clsymLen sym => cases hrun; rfl
  case clsym16 e =>
    cases hrun
    exact (execClsym16_of_ne_zero hstart.1 e).trans (applyRepeat_of_le hstart.2 _ _)
  case clsym17 e => cases hrun; exact applyRepeat_of_le hstart _ _
  case clsym18 e => cases hrun; exact applyRepeat_of_le hstart _ _
  all_goals cases hrun

/-- The meaning of an element is its rule. -/
theorem exec_of_commit {c : Call} {s t : State} {i : Instr} {n : Nat} {f : Effect}
    (hcall : s.call = some c) (hn : n ≤ s.nb.toNat) (h : Commit c s i n f t) :
    exec i s = .next (f.on c t) := by
  cases h with
  | zhdr h => exact next_quiet (execZhdr_of_good h hn) hcall
  | blkStored f => exact next_quiet (execBlkStored_of_le f hn) hcall
  | blkFixed f => exact next_quiet (execBlkFixed_of_le f hn) hcall
  | blkDynamic f => exact next_quiet (execBlkDynamic_of_le f hn) hcall
  | slen h => exact next_quiet (execSlen_of_ok h hn) hcall
  | dhdr hc h1 h2 => exact next_quiet (execDhdr_of_ok h1 h2 hn) hcall
  | cllMore v h => exact next_quiet (execCll_of_more h hn) hcall
  | cllLast h hok => exact next_quiet (execCll_of_last h hok hn) hcall
  | runInside hrun hstart h =>
    exact next_quiet ((exec_of_runStarts hrun hstart).trans (applyRun_of_inside h hn)) hcall
  | runEnd hrun hstart h hok =>
    exact next_quiet ((exec_of_runStarts hrun hstart).trans (applyRun_of_end h hok hn)) hcall
  | lit b hroom => exact execLit_of_room b hcall hroom hn
  | eob => exact next_quiet (execEob_of_le hn) ((endBlock_call _).trans hcall)
  | length hsym h1 h2 h3 => rw [exec_of_length hsym h1 h2 h3]; exact lengthPart_of_call hcall _ _
  | distance hpend hsym h1 h2 =>
    rw [exec_of_distance hsym h1]; exact distancePart_of_le hcall hpend h2 hn
  | trailer h => exact next_quiet (execTrailer_of_ok h hn) hcall

theorem exec_of_refused {c : Call} {s : State} {i : Instr} {e : Err} (hcall : s.call = some c)
    (h : Refused c s i e) : exec i s = raise e s := by
  cases h with
  | zhdr h => exact execZhdr_of_bad h s
  | blkReserved f => rfl
  | slen h => exact execSlen_of_not_ok h s
  | dhdr hc h => exact execDhdr_of_bad h hc s
  | cll h hbad => exact execCll_of_bad h hbad
  | noPrevious e h => exact execClsym16_of_zero h e
  | pastTotal hrun hi h =>
    cases i
    case clsymLen sym => exact absurd rfl (hi sym)
    case clsym16 e =>
      cases hrun
      by_cases h0 : s.dynIdx = 0
      · exact execClsym16_of_zero h0 e
      · exact (execClsym16_of_ne_zero h0 e).trans (applyRepeat_of_gt h _ _)
    case clsym17 e => cases hrun; exact applyRepeat_of_gt h _ _
    case clsym18 e => cases hrun; exact applyRepeat_of_gt h _ _
    all_goals cases hrun
  | runEnd hrun hstart h hbad =>
    rw [exec_of_runStarts hrun hstart]; exact applyRun_of_bad h hbad _
  | len284 => exact execLen284_of_max s
  | llInvalid286 => rfl
  | llInvalid287 => rfl
  | distInvalid30 => rfl
  | distInvalid31 => rfl
  | distance hpend hsym h1 h2 => rw [exec_of_distance hsym h1]; exact distancePart_of_gt hcall hpend h2
  | trailer hi h => exact execTrailer_of_mismatch hi h

/-! ### Every element read has a rule -/

/-- What an element can do: commit, be refused, or, a literal, find no room. -/
def HasRule (c : Call) (s : State) (i : Instr) : Prop :=
  (∃ n f t, Commit c s i n f t ∧ n ≤ s.nb.toNat) ∨ (∃ e, Refused c s i e) ∨
    ∃ b, i = .lit b ∧ c.out.length ≤ c.off + c.prod

theorem HasRule.of_commit {c : Call} {s t : State} {i : Instr} {n : Nat} {f : Effect}
    (h : Commit c s i n f t) (hn : n ≤ s.nb.toNat) : HasRule c s i :=
  .inl ⟨n, f, t, h, hn⟩

theorem HasRule.of_refused {c : Call} {s : State} {i : Instr} {e : Err} (h : Refused c s i e) :
    HasRule c s i :=
  .inr (.inl ⟨e, h⟩)

theorem hasRule_of_litLenSym {c : Call} {s : State} {i : Instr} {sym e : Nat}
    (hsym : litLenSym i = some (sym, e)) (hbits : llWidth s sym + lenExtra sym ≤ s.nb.toNat) :
    HasRule c s i := by
  by_cases hlen : 257 ≤ sym ∧ sym ≤ 285 ∧ ¬(sym = 284 ∧ e = 31)
  · obtain ⟨h1, h2, h3⟩ := hlen
    exact .of_commit (.length hsym h1 h2 h3) (Nat.zero_le _)
  · cases i
    case lit b =>
      cases hsym
      by_cases hroom : c.off + c.prod < c.out.length
      · exact .of_commit (.lit b hroom) ((Nat.le_add_right _ _).trans hbits)
      · exact .inr (.inr ⟨b, rfl, Nat.le_of_not_lt hroom⟩)
    case eob => cases hsym; exact .of_commit .eob hbits
    case llInvalid286 => exact .of_refused .llInvalid286
    case llInvalid287 => exact .of_refused .llInvalid287
    case len284 x =>
      cases hsym
      have h31 : x.toNat = 31 := by
        by_contra h
        exact hlen ⟨by decide, by decide, fun hx => h hx.2⟩
      obtain rfl : x = 31 := BitVec.eq_of_toNat_eq h31
      exact .of_refused .len284
    all_goals cases hsym
    all_goals exact absurd ⟨by decide, by decide, fun h => absurd h.1 (by decide)⟩ hlen

theorem hasRule_of_distSym {c : Call} {s : State} {i : Instr} {p : PendingLength} {sym e : Nat}
    (hpend : c.pend = some p) (hsym : distSym i = some (sym, e))
    (hbits : p.used + distWidth s sym + distExtra sym ≤ s.nb.toNat) : HasRule c s i := by
  by_cases h1 : sym ≤ 29
  · rcases Nat.lt_or_ge s.hist.toNat (distBase sym + e) with h2 | h2
    · exact .of_refused (.distance hpend hsym h1 h2)
    · exact .of_commit (.distance hpend hsym h1 h2) hbits
  · cases i
    case distInvalid30 => exact .of_refused .distInvalid30
    case distInvalid31 => exact .of_refused .distInvalid31
    all_goals cases hsym
    all_goals exact absurd (by decide) h1

/-- A run that is tried is inside the total or at it. -/
theorem hasRule_of_runStarts {c : Call} {s : State} {i : Instr} {r n : Nat} {val : BitVec 4}
    (hrun : runOf s i = some (r, val, n)) (hstart : RunStarts s r i) (hbits : n ≤ s.nb.toNat) :
    HasRule c s i := by
  by_cases h : s.dynIdx.toNat + r = lengthTotal s
  · cases hok : endChecksOk (runLens r val s) s with
    | false => exact .of_refused (.runEnd hrun hstart h hok)
    | true => exact .of_commit (.runEnd hrun hstart h hok) hbits
  · exact .of_commit (.runInside hrun hstart h) hbits

theorem hasRule_of_clsymSym {c : Call} {s : State} {i : Instr} {sym e : Nat}
    (hsym : clsymSym i = some (sym, e)) (hbits : clWidth s sym + clExtra sym ≤ s.nb.toNat) :
    HasRule c s i := by
  cases i
  case clsymLen l =>
    cases hsym
    exact hasRule_of_runStarts rfl trivial ((Nat.le_add_right _ _).trans hbits)
  case clsym16 x =>
    cases hsym
    by_cases h0 : s.dynIdx = 0
    · exact .of_refused (.noPrevious x h0)
    · rcases Nat.lt_or_ge (lengthTotal s) (s.dynIdx.toNat + (3 + x.toNat)) with h | h
      · exact .of_refused (.pastTotal rfl (fun _ => by simp) h)
      · exact hasRule_of_runStarts rfl ⟨h0, h⟩ hbits
  case clsym17 x =>
    cases hsym
    rcases Nat.lt_or_ge (lengthTotal s) (s.dynIdx.toNat + (3 + x.toNat)) with h | h
    · exact .of_refused (.pastTotal rfl (fun _ => by simp) h)
    · exact hasRule_of_runStarts rfl h hbits
  case clsym18 x =>
    cases hsym
    rcases Nat.lt_or_ge (lengthTotal s) (s.dynIdx.toNat + (11 + x.toNat)) with h | h
    · exact .of_refused (.pastTotal rfl (fun _ => by simp) h)
    · exact hasRule_of_runStarts rfl h hbits
  all_goals cases hsym

theorem hasRule_blockInstr {c : Call} {s : State} (v : Nat) (hbits : 3 ≤ s.nb.toNat) :
    HasRule c s (blockInstr v) := by
  unfold blockInstr
  split
  · exact .of_commit (.blkStored _) hbits
  · exact .of_commit (.blkFixed _) hbits
  · exact .of_commit (.blkDynamic _) hbits
  · exact .of_refused (.blkReserved _)

/-- A field format that is read has all its bits. -/
theorem got_of_ite {k n : Nat} {i j : Instr}
    (h : (if n ≤ k then Peek.got j else .needMore) = .got i) : n ≤ k ∧ j = i := by
  split at h
  · next hk => exact ⟨hk, Peek.got.inj h⟩
  · cases h

theorem hasRule_zhdr {c : Call} {s : State} (cmf flg : Byte) (hbits : 16 ≤ s.nb.toNat) :
    HasRule c s (.zhdr cmf flg) := by
  cases h : headerBad cmf flg with
  | false => exact .of_commit (.zhdr h) hbits
  | true => exact .of_refused (.zhdr h)

theorem hasRule_slen {c : Call} {s : State} (len nlen : BitVec 16) (hbits : 32 ≤ s.nb.toNat) :
    HasRule c s (.slen len nlen) := by
  by_cases h : storedLengthOk len nlen = true
  · exact .of_commit (.slen h) hbits
  · exact .of_refused (.slen h)

theorem hasRule_dhdr {c : Call} {s : State} (hl hd : BitVec 5) (hc : BitVec 4)
    (hbits : 14 ≤ s.nb.toNat) : HasRule c s (.dhdr hl hd hc) := by
  by_cases h : hl.toNat + 257 ≤ 286 ∧ hd.toNat + 1 ≤ 30
  · exact .of_commit (.dhdr hc h.1 h.2) hbits
  · exact .of_refused (.dhdr hc (by omega))

theorem hasRule_cll {c : Call} {s : State} (v : BitVec 3) (hbits : 3 ≤ s.nb.toNat) :
    HasRule c s (.cll v) := by
  by_cases h : s.clIdx.toNat + 1 = s.hclen.toNat
  · cases hok : clAccepted (lengthsOf (setClLen s v)) with
    | false => exact .of_refused (.cll h hok)
    | true => exact .of_commit (.cllLast h hok) hbits
  · exact .of_commit (.cllMore v h) hbits

theorem hasRule_trailer {c : Call} {s : State} (b0 b1 b2 b3 : Byte) (hbits : 32 ≤ s.nb.toNat) :
    HasRule c s (.trailer b0 b1 b2 b3) := by
  by_cases h : s.ignoreCk = true ∨ trailerValue b0 b1 b2 b3 = s.ck
  · exact .of_commit (.trailer h) hbits
  · rw [not_or] at h
    exact .of_refused (.trailer (Bool.eq_false_of_not_eq_true h.1) h.2)

/-- Every element that the phase expects and the pending bits give has a rule. -/
theorem hasRule_of_decodeElem {c : Call} {s : State} {x : ElemCtx} {i : Instr}
    (hx : expected c s = some x) (hi : decodeElem x s.acc.toNat s.nb.toNat = .got i) :
    HasRule c s i := by
  unfold expected at hx
  split at hx
  case h_7 =>
    split at hx
    · obtain rfl := Option.some.inj hx
      obtain ⟨sym, e, hinstr, he, -, hbits⟩ := decodeElem_ll hi
      exact hasRule_of_litLenSym (litLenSym_of_litLenInstr hinstr he) hbits
    · next p hp =>
      obtain rfl := Option.some.inj hx
      obtain ⟨sym, e, hinstr, he, -, hbits⟩ := decodeElem_dist hi
      exact hasRule_of_distSym hp (distSym_of_distInstr hinstr he) hbits
  all_goals cases hx
  · obtain ⟨hk, rfl⟩ := got_of_ite (decodeElem_zh_eq _ _ ▸ hi)
    exact hasRule_zhdr _ _ hk
  · obtain ⟨hk, rfl⟩ := got_of_ite (decodeElem_bh_eq _ _ ▸ hi)
    exact hasRule_blockInstr _ hk
  · obtain ⟨hk, rfl⟩ := got_of_ite (decodeElem_sl_eq _ _ ▸ hi)
    exact hasRule_slen _ _ hk
  · obtain ⟨hk, rfl⟩ := got_of_ite (decodeElem_dh_eq _ _ ▸ hi)
    exact hasRule_dhdr _ _ _ hk
  · obtain ⟨hk, rfl⟩ := got_of_ite (decodeElem_cll_eq _ _ ▸ hi)
    exact hasRule_cll _ hk
  · rcases decodeElem_cls hi with ⟨h0, rfl⟩ | ⟨sym, e, hinstr, he, -, hbits⟩
    · exact .of_refused (.noPrevious 0 (of_decide_eq_true h0))
    · exact hasRule_of_clsymSym (clsymSym_of_clsymInstr hinstr he) hbits
  · obtain ⟨hk, rfl⟩ := got_of_ite (decodeElem_tr_eq _ _ ▸ hi)
    exact hasRule_trailer _ _ _ _ hk

end Sys2Proof.Machine
end

section
/-! A step inside a call is a move, and a move does not depend on what the step does not read: the
checksum, the configuration, the buffers around the bytes it takes and writes, the port. -/

namespace Sys2Proof.Machine

/-! ### The run of peeks of a step (R104, R106) -/

/-- The bytes of `IN` not yet consumed. -/
def Call.rest (c : Call) : List Byte := c.inp.drop c.ip

/-- The state after k FETCHes. -/
def fetched (c : Call) (k : Nat) (s : State) : State := fetchBytes (c.rest.take k) s

/-- The call after k bytes. -/
def Call.ahead (c : Call) (k : Nat) : Call := { c with ip := c.ip + k }

theorem fetched_call {c : Call} {k : Nat} {s : State} (hcall : s.call = some c)
    (hk : k ≤ c.rest.length) : (fetched c k s).call = some (c.ahead k) := by
  rw [fetched, fetchBytes_call hcall, List.length_take_of_le hk]
  rfl

/-- FETCHing changes the bit reader and the cursor, and nothing else. -/
theorem fetched_frame (c : Call) (k : Nat) (s : State) : fetched c k s = { s with
    acc := (fetched c k s).acc, nb := (fetched c k s).nb, call := (fetched c k s).call } := by
  have h := fetchBytes_frame (c.rest.take k) s
  have hcall : (fetched c k s).call =
      s.call.map fun d => { d with ip := d.ip + (c.rest.take k).length } := by
    rw [fetched, h]
  rw [hcall]
  exact h

/-- `Fetches x c s k`: the phase expects the format x, and each of the next k bytes is wanted. -/
structure Fetches (x : ElemCtx) (c : Call) (s : State) (k : Nat) : Prop where
  format : expected c s = some x
  there : k ≤ c.rest.length
  wanted : ∀ j, j < k →
    decodeElem x (fetched c j s).acc.toNat (fetched c j s).nb.toNat = .needMore

/-- What the phase expects does not change with the bytes FETCHed. -/
theorem expected_fetched (c : Call) (k : Nat) (s : State) :
    expected (c.ahead k) (fetched c k s) = expected c s := by
  rw [fetched_frame]
  rfl

/-- Bytes that are wanted can be FETCHed before the step. -/
theorem fetchLoop_of_fetches {x : ElemCtx} {c : Call} {s : State} {k : Nat} (h : Fetches x c s k) :
    fetchLoop (decodeElem x) c.rest s = fetchLoop (decodeElem x) (c.rest.drop k) (fetched c k s) := by
  refine fetchLoop_of_needMore h.there fun j hj => ?_
  have hw := h.wanted j hj
  exact hw

theorem step_of_fetches_got {x : ElemCtx} {c : Call} {s : State} {k : Nat} {i : Instr}
    (hcall : s.call = some c) (h : Fetches x c s k)
    (hi : decodeElem x (fetched c k s).acc.toNat (fetched c k s).nb.toNat = .got i) :
    step s = exec i (fetched c k s) :=
  step_of_fetchLoop_got hcall h.format ((fetchLoop_of_fetches h).trans (fetchLoop_of_got hi _))

theorem step_of_fetches_bad {x : ElemCtx} {c : Call} {s : State} {k : Nat} {e : Err}
    (hcall : s.call = some c) (h : Fetches x c s k)
    (he : decodeElem x (fetched c k s).acc.toNat (fetched c k s).nb.toNat = .bad e) :
    step s = raise e (fetched c k s) := by
  refine step_of_fetchLoop_ended hcall h.format ((fetchLoop_of_fetches h).trans ?_)
  cases c.rest.drop k <;> simp [fetchLoop, he]

theorem step_of_fetches_short {x : ElemCtx} {c : Call} {s : State}
    (hcall : s.call = some c) (h : Fetches x c s c.rest.length)
    (hn : decodeElem x (fetched c c.rest.length s).acc.toNat
      (fetched c c.rest.length s).nb.toNat = .needMore) :
    step s = shortage (fetched c c.rest.length s) := by
  refine step_of_fetchLoop_ended hcall h.format ((fetchLoop_of_fetches h).trans ?_)
  rw [List.drop_length]
  exact fetchLoop_nil_of_needMore hn

/-- Every run of peeks ends: with an element, an error, or every byte FETCHed and more wanted. -/
theorem exists_fetches {x : ElemCtx} {c : Call} {s : State} (hx : expected c s = some x) :
    ∃ k, Fetches x c s k ∧
      (decodeElem x (fetched c k s).acc.toNat (fetched c k s).nb.toNat = .needMore →
        k = c.rest.length) := by
  cases h : fetchLoop (decodeElem x) c.rest s with
  | got i t =>
    obtain ⟨k, hk, rfl, hi, hj⟩ := fetchLoop_got h
    have hi' : decodeElem x (fetched c k s).acc.toNat (fetched c k s).nb.toNat = .got i := hi
    exact ⟨k, ⟨hx, hk, hj⟩, fun hn => by rw [hi'] at hn; cases hn⟩
  | ended o =>
    obtain ⟨k, t, hk, rfl, hend, hj⟩ := fetchLoop_ended h
    refine ⟨k, ⟨hx, hk, hj⟩, fun hn => ?_⟩
    rcases hend with ⟨e, he, -⟩ | ⟨hlen, -, -⟩
    · have he' : decodeElem x (fetched c k s).acc.toNat (fetched c k s).nb.toNat = .bad e := he
      rw [he'] at hn
      cases hn
    · exact hlen

/-! ### The moves (R164, R263) -/

/-- Why a call returns: what the known bits say, no input, no room, or the end of the stream. -/
inductive Cause where
  | bits
  | short
  | full
  | done
deriving DecidableEq, Repr

/-- What a step does to its call: it takes k bytes of `IN` and goes on with an effect, or it takes k
bytes and returns. -/
inductive Turn where
  | go (k : Nat) (f : Effect)
  | ret (cause : Cause) (status : BitVec 3) (k : Nat)
deriving DecidableEq, Repr

/-- `Move s c r t`: a step from `s`, in the call `c`, takes the turn `r` and leaves `t`. -/
inductive Move (s : State) (c : Call) : Turn → State → Prop where
  | commit {x : ElemCtx} {k n : Nat} {i : Instr} {f : Effect} {t : State} (hf : Fetches x c s k)
      (hi : decodeElem x (fetched c k s).acc.toNat (fetched c k s).nb.toNat = .got i)
      (hn : n ≤ (fetched c k s).nb.toNat) (hc : Commit (c.ahead k) (fetched c k s) i n f t) :
    Move s c (.go k f) (f.on (c.ahead k) t)
  | refused {x : ElemCtx} {k : Nat} {i : Instr} {e : Err} (hf : Fetches x c s k)
      (hi : decodeElem x (fetched c k s).acc.toNat (fetched c k s).nb.toNat = .got i)
      (hr : Refused (c.ahead k) (fetched c k s) i e) :
    Move s c (.ret .bits e.code k) (endCall e.code (c.ahead k) (fetched c k s))
  | bad {x : ElemCtx} {k : Nat} {e : Err} (hf : Fetches x c s k)
      (he : decodeElem x (fetched c k s).acc.toNat (fetched c k s).nb.toNat = .bad e) :
    Move s c (.ret .bits e.code k) (endCall e.code (c.ahead k) (fetched c k s))
  | noRoom {x : ElemCtx} {k : Nat} {b : Byte} (hf : Fetches x c s k)
      (hi : decodeElem x (fetched c k s).acc.toNat (fetched c k s).nb.toNat = .got (.lit b))
      (hroom : c.out.length ≤ c.off + c.prod) :
    Move s c (.ret .full 0 k) (endCall 0 (c.ahead k) (fetched c k s))
  | noInput {x : ElemCtx} (hf : Fetches x c s c.rest.length)
      (hn : decodeElem x (fetched c c.rest.length s).acc.toNat
        (fetched c c.rest.length s).nb.toNat = .needMore) :
    Move s c (.ret .short (shortStatus c.eoi) c.rest.length)
      (endCall (shortStatus c.eoi) (c.ahead c.rest.length) (fetched c c.rest.length s))
  | storedEnd (hp : s.phase = .storedCopy) (hrem : s.stRem = 0) :
    Move s c (.go 0 .quiet) (Effect.quiet.on (c.ahead 0) (endBlock s))
  | storedByte {b : Byte} (hp : s.phase = .storedCopy) (hrem : s.stRem ≠ 0)
      (hb : c.inp[c.ip]? = some b) (hroom : c.off + c.prod < c.out.length) :
    Move s c (.go 1 (.byte b))
      ((Effect.byte b).on (c.ahead 1) { s with stRem := s.stRem - 1 })
  | storedNoInput (hp : s.phase = .storedCopy) (hrem : s.stRem ≠ 0) (hb : c.inp[c.ip]? = none) :
    Move s c (.ret .short (shortStatus c.eoi) 0) (endCall (shortStatus c.eoi) (c.ahead 0) s)
  | storedNoRoom {b : Byte} (hp : s.phase = .storedCopy) (hrem : s.stRem ≠ 0)
      (hb : c.inp[c.ip]? = some b) (hroom : c.out.length ≤ c.off + c.prod) :
    Move s c (.ret .full 0 0) (endCall 0 (c.ahead 0) s)
  | copyEnd (hp : s.phase = .backReference) (hlen : s.brLen = 0) :
    Move s c (.go 0 .quiet) (Effect.quiet.on (c.ahead 0) { s with phase := .symbolLoop })
  | copyByte {b : Byte} (hp : s.phase = .backReference) (hlen : s.brLen ≠ 0)
      (hroom : c.off + c.prod < c.out.length)
      (hread : Memory.read s.win (windowSource s.wp s.brDist.toNat) = some b) :
    Move s c (.go 0 (.byte b))
      ((Effect.byte b).on (c.ahead 0) { s with brLen := s.brLen - 1 })
  | copyNoRoom (hp : s.phase = .backReference) (hlen : s.brLen ≠ 0)
      (hroom : c.out.length ≤ c.off + c.prod) :
    Move s c (.ret .full 0 0) (endCall 0 (c.ahead 0) s)
  | finish (hp : s.phase = .done) : Move s c (.ret .done 0 0) (endCall 0 (c.ahead 0) s)

theorem execSdata_eq_on {b : Byte} {s : State} {c : Call} (hcall : s.call = some c)
    (hrem : s.stRem ≠ 0) (hinp : c.ip < c.inp.length) (hroom : c.off + c.prod < c.out.length) :
    execSdata b s = .next ((Effect.byte b).on (c.ahead 1) { s with stRem := s.stRem - 1 }) :=
  execSdata_of_room b hcall hrem hinp hroom

/-- A move is the step. -/
theorem step_of_move {s t : State} {c : Call} {r : Turn} (hcall : s.call = some c)
    (h : Move s c r t) : step s = .next t := by
  cases h with
  | commit hf hi hn hc =>
    rw [step_of_fetches_got hcall hf hi]
    exact exec_of_commit (fetched_call hcall hf.there) hn hc
  | refused hf hi hr =>
    have hcall' := fetched_call hcall hf.there
    rw [step_of_fetches_got hcall hf hi, exec_of_refused hcall' hr]
    exact raise_eq_endCall hcall'
  | bad hf he =>
    rw [step_of_fetches_bad hcall hf he]
    exact raise_eq_endCall (fetched_call hcall hf.there)
  | noRoom hf hi hroom =>
    have hcall' := fetched_call hcall hf.there
    rw [step_of_fetches_got hcall hf hi]
    exact (execLit_of_no_room _ hcall' hroom).trans (stall_eq_endCall hcall')
  | noInput hf hn =>
    rw [step_of_fetches_short hcall hf hn]
    exact shortage_eq_endCall (fetched_call hcall hf.there)
  | storedEnd hp hrem =>
    exact next_quiet (step_of_stRem_eq_zero hcall hp hrem) ((endBlock_call s).trans hcall)
  | storedByte hp hrem hb hroom =>
    rw [step_of_stored_byte hcall hp hrem hb]
    exact execSdata_eq_on hcall hrem (List.getElem?_eq_some_iff.mp hb).1 hroom
  | storedNoInput hp hrem hb =>
    rw [step_of_stored_end hcall hp hrem hb]
    exact shortage_eq_endCall hcall
  | storedNoRoom hp hrem hb hroom =>
    rw [step_of_stored_byte hcall hp hrem hb]
    exact (execSdata_of_no_room _ hcall hrem (List.getElem?_eq_some_iff.mp hb).1 hroom).trans
      (stall_eq_endCall hcall)
  | copyEnd hp hlen =>
    rw [step_of_backReference hcall hp]
    exact next_quiet (backReference_of_brLen_eq_zero hlen) hcall
  | copyByte hp hlen hroom hread =>
    rw [step_of_backReference hcall hp]
    exact backReference_of_room hcall hlen hroom hread
  | copyNoRoom hp hlen hroom =>
    rw [step_of_backReference hcall hp, backReference_of_no_room hcall hlen hroom]
    exact stall_eq_endCall hcall
  | finish hp =>
    rw [step_of_done hcall hp]
    exact stall_eq_endCall hcall

/-- The step of a phase that reads an element is a move. -/
theorem exists_move_of_expected {s : State} {c : Call} {x : ElemCtx} (hx : expected c s = some x) :
    ∃ r t, Move s c r t := by
  obtain ⟨k, hf, hend⟩ := exists_fetches hx
  cases hd : decodeElem x (fetched c k s).acc.toNat (fetched c k s).nb.toNat with
  | got i =>
    have hx' : expected (c.ahead k) (fetched c k s) = some x := (expected_fetched c k s).trans hx
    obtain ⟨n, f, t, hc, hn⟩ | ⟨e, hr⟩ | ⟨b, rfl, hroom⟩ := hasRule_of_decodeElem hx' hd
    · exact ⟨_, _, .commit hf hd hn hc⟩
    · exact ⟨_, _, .refused hf hd hr⟩
    · exact ⟨_, _, .noRoom hf hd hroom⟩
  | bad e => exact ⟨_, _, .bad hf hd⟩
  | needMore =>
    obtain rfl := hend hd
    exact ⟨_, _, .noInput hf hd⟩

theorem exists_move_of_storedCopy {s : State} (c : Call) (hp : s.phase = .storedCopy) :
    ∃ r t, Move s c r t := by
  by_cases hrem : s.stRem = 0
  · exact ⟨_, _, .storedEnd hp hrem⟩
  · cases hb : c.inp[c.ip]? with
    | none => exact ⟨_, _, .storedNoInput hp hrem hb⟩
    | some b =>
      rcases Nat.lt_or_ge (c.off + c.prod) c.out.length with h | h
      · exact ⟨_, _, .storedByte hp hrem hb h⟩
      · exact ⟨_, _, .storedNoRoom hp hrem hb h⟩

/-- The byte that a back-reference copies next has a value (R226). -/
def CopyReads (s : State) : Prop :=
  s.brLen ≠ 0 → ∃ b, Memory.read s.win (windowSource s.wp s.brDist.toNat) = some b

theorem exists_move_of_backReference {s : State} (c : Call) (hp : s.phase = .backReference)
    (hread : CopyReads s) : ∃ r t, Move s c r t := by
  by_cases hlen : s.brLen = 0
  · exact ⟨_, _, .copyEnd hp hlen⟩
  · rcases Nat.lt_or_ge (c.off + c.prod) c.out.length with h | h
    · obtain ⟨b, hb⟩ := hread hlen
      exact ⟨_, _, .copyByte hp hlen h hb⟩
    · exact ⟨_, _, .copyNoRoom hp hlen h⟩

/-- Inside a call, outside ERROR and with the window written, there is a move. -/
theorem exists_move {s : State} (c : Call) (hp : s.phase ≠ .error)
    (hread : s.phase = .backReference → CopyReads s) : ∃ r t, Move s c r t := by
  cases hx : expected c s with
  | some x => exact exists_move_of_expected hx
  | none =>
    cases hphase : s.phase with
    | storedCopy => exact exists_move_of_storedCopy c hphase
    | backReference => exact exists_move_of_backReference c hphase (hread hphase)
    | done => exact ⟨_, _, .finish hphase⟩
    | error => exact absurd hphase hp
    | symbolLoop => cases hpend : c.pend <;> simp [expected, hphase, hpend] at hx
    | _ => simp [expected, hphase] at hx

theorem backReference_reads {s t : State} (h : backReference s = .next t) :
    room s = 0 ∨ CopyReads s := by
  rcases backReference_next h with ⟨h0, -⟩ | ⟨-, hroom, -⟩ | ⟨-, -, b, u, hb, -, -⟩
  · exact .inr fun hne => absurd h0 hne
  · exact .inl hroom
  · exact .inr fun _ => ⟨b, hb⟩

/-- A step inside a call is a move. -/
theorem move_of_step {s t : State} {c : Call} (hcall : s.call = some c) (h : step s = .next t) :
    ∃ r, Move s c r t := by
  have hmove : ∃ r u, Move s c r u := by
    cases hphase : s.phase with
    | error => simp [step_of_call hcall, expected, transfer, hphase] at h
    | backReference =>
      rw [step_of_backReference hcall hphase] at h
      rcases backReference_reads h with hroom | hread
      · by_cases hlen : s.brLen = 0
        · exact ⟨_, _, .copyEnd hphase hlen⟩
        · exact ⟨_, _, .copyNoRoom hphase hlen ((room_eq_zero hcall).mp hroom)⟩
      · exact exists_move_of_backReference c hphase hread
    | _ => exact exists_move c (by simp [hphase]) (by simp [hphase])
  obtain ⟨r, u, hu⟩ := hmove
  obtain rfl := Host.Outcome.next.inj ((step_of_move hcall hu).symm.trans h)
  exact ⟨r, hu⟩

end Sys2Proof.Machine
end

section
/-! What a step inside a call does not depend on (R6, R242, R261), and what it can change: the
statements of the whole machine that follow from its moves. -/

namespace Sys2Proof.Machine

/-! ### Registers and surroundings -/

/-- The registers that elements read and write, of `s`, in the surroundings of `e`: the window, the
checksum, the configuration, the call and the port. -/
def withEnv (s e : State) : State :=
  { s with
    win := e.win, wp := e.wp, hist := e.hist, ck := e.ck, ignoreCk := e.ignoreCk
    cfg := e.cfg, wrap := e.wrap, call := e.call, cmds := e.cmds, resps := e.resps }

@[simp] theorem withEnv_self (s : State) : withEnv s s = s := rfl

/-- Surroundings in which the step of `s` does the same: the same window, history and wrapper, and in
the trailer the same checksum. -/
structure Agree (s e : State) : Prop where
  win : e.win = s.win
  wp : e.wp = s.wp
  hist : e.hist = s.hist
  wrap : e.wrap = s.wrap
  check : s.phase = .trailer → e.ck = s.ck ∧ e.ignoreCk = s.ignoreCk

theorem Agree.refl (s : State) : Agree s s := ⟨rfl, rfl, rfl, rfl, fun _ => ⟨rfl, rfl⟩⟩

/-- What a turn does to the surroundings `e`, whose call is `c`. -/
def Turn.env : Turn → Call → State → State
  | .go k f, c, e => f.on (c.ahead k) e
  | .ret _ status k, c, e =>
    respond (.advanced status (c.ip + k) c.prod c.out) { e with call := none }

/-- The call `d` lets the turn happen that happens in the call `c`. -/
def Turn.Fits (c d : Call) : Turn → Prop
  | .go k f => d.rest.take k = c.rest.take k ∧ ∀ b, f = .byte b → d.off + d.prod < d.out.length
  | .ret .bits _ k => d.rest.take k = c.rest.take k
  | .ret .short _ _ => d.rest = c.rest ∧ d.eoi = c.eoi
  | .ret .full _ _ => d.rest = c.rest ∧ d.out.length ≤ d.off + d.prod
  | .ret .done _ _ => True

theorem fetchBytes_withEnv (bytes : List Byte) (s e : State) :
    fetchBytes bytes (withEnv s e) = withEnv (fetchBytes bytes s) (fetchBytes bytes e) := by
  induction bytes generalizing s e with
  | nil => rfl
  | cons b bytes ih => exact ih (fetchByte b s) (fetchByte b e)

theorem fetched_withEnv {c d : Call} {k : Nat} (h : d.rest.take k = c.rest.take k) (s e : State) :
    fetched d k (withEnv s e) = withEnv (fetched c k s) (fetched d k e) := by
  rw [fetched, fetched, fetched, h, fetchBytes_withEnv]

theorem take_eq_of_le {α : Type} {l m : List α} {j k : Nat} (hjk : j ≤ k)
    (h : l.take k = m.take k) : l.take j = m.take j := by
  rw [← Nat.min_eq_left hjk, ← List.take_take, ← List.take_take, h]

theorem Agree.ahead {s e : State} (h : Agree s e) (c d : Call) (k : Nat) :
    Agree (fetched c k s) (fetched d k e) := by
  rw [fetched_frame c k s, fetched_frame d k e]
  exact ⟨h.win, h.wp, h.hist, h.wrap, h.check⟩

/-- What the phase expects is not in the surroundings. -/
theorem expected_withEnv {c d : Call} (hpend : d.pend = c.pend) (s e : State) :
    expected d (withEnv s e) = expected c s := by
  unfold expected
  rw [hpend]
  rfl

theorem Fetches.transfer {x : ElemCtx} {c d : Call} {s e : State} {k : Nat} (h : Fetches x c s k)
    (hpend : d.pend = c.pend) (htake : d.rest.take k = c.rest.take k) :
    Fetches x d (withEnv s e) k where
  format := (expected_withEnv hpend s e).trans h.format
  there := by
    have hlen := congrArg List.length htake
    have := h.there
    rw [List.length_take, List.length_take] at hlen
    omega
  wanted j hj := by
    rw [fetched_withEnv (take_eq_of_le (Nat.le_of_lt hj) htake)]
    exact h.wanted j hj

/-- An effect on the call leaves the registers alone. -/
theorem withEnv_on (f : Effect) (c d : Call) (s e : State) :
    withEnv (f.on c s) (f.on d e) = f.on d (withEnv s e) := by
  cases f <;> rfl

/-- The surroundings do not hold the bit reader. -/
theorem on_withEnv_fetched (f : Effect) (d : Call) (k : Nat) (s e : State) :
    f.on d (withEnv s (fetched d k e)) = f.on d (withEnv s e) := by
  rw [fetched_frame d k e]
  cases f <;> rfl

theorem on_ahead_withEnv_fetched (f : Effect) (d : Call) (k : Nat) (s e : State) :
    f.on (d.ahead k) (withEnv s (fetched d k e)) = f.on (d.ahead k) (withEnv s e) := by
  rw [fetched_frame d k e]
  cases f <;> rfl

theorem endCall_withEnv (cause : Cause) (status : BitVec 3) (c d : Call) (k : Nat) (s e : State) :
    withEnv (endCall status (c.ahead k) s) ((Turn.ret cause status k).env d e) =
      endCall status (d.ahead k) (withEnv s (fetched d k e)) := by
  rw [fetched_frame d k e]
  rfl

theorem endBlock_withEnv {s e : State} (h : e.wrap = s.wrap) :
    endBlock (withEnv s e) = withEnv (endBlock s) e := by
  unfold endBlock
  cases hf : s.final <;> cases hw : s.wrap <;> simp [withEnv, hf, hw, h, align]

/-! ### The rules in other surroundings -/

theorem Commit.transfer {c d : Call} {s t e : State} {i : Instr} {n : Nat} {f : Effect}
    (h : Commit c s i n f t) (hpend : d.pend = c.pend) (hhist : e.hist = s.hist)
    (hwrap : e.wrap = s.wrap)
    (hck : ∀ b0 b1 b2 b3, i = .trailer b0 b1 b2 b3 → e.ck = s.ck ∧ e.ignoreCk = s.ignoreCk)
    (hroom : ∀ b, f = .byte b → d.off + d.prod < d.out.length) :
    Commit d (withEnv s e) i n f (withEnv t e) := by
  cases h with
  | zhdr h => exact .zhdr h
  | blkStored f => exact .blkStored f
  | blkFixed f => exact .blkFixed f
  | blkDynamic f => exact .blkDynamic f
  | slen h => exact .slen h
  | dhdr hc h1 h2 => exact .dhdr hc h1 h2
  | cllMore v h => exact .cllMore v h
  | cllLast h hok => exact .cllLast h hok
  | runInside hrun hstart h =>
    exact .runInside (s := withEnv s e) hrun (by cases i <;> exact hstart) h
  | runEnd hrun hstart h hok =>
    exact .runEnd (s := withEnv s e) hrun (by cases i <;> exact hstart) h hok
  | lit b h => exact .lit b (hroom b rfl)
  | eob => rw [← endBlock_withEnv (s := taken _ s) hwrap]; exact .eob
  | length hsym h1 h2 h3 => exact .length hsym h1 h2 h3
  | distance hp hsym h1 h2 => exact .distance (hpend.trans hp) hsym h1 (hhist ▸ h2)
  | trailer h =>
    obtain ⟨hc, hi⟩ := hck _ _ _ _ rfl
    exact .trailer (s := withEnv s e) (by rw [← hc, ← hi] at h; exact h)

theorem Refused.transfer {c d : Call} {s e : State} {i : Instr} {err : Err}
    (h : Refused c s i err) (hpend : d.pend = c.pend) (hhist : e.hist = s.hist)
    (hck : ∀ b0 b1 b2 b3, i = .trailer b0 b1 b2 b3 → e.ck = s.ck ∧ e.ignoreCk = s.ignoreCk) :
    Refused d (withEnv s e) i err := by
  cases h with
  | zhdr h => exact .zhdr h
  | blkReserved f => exact .blkReserved f
  | slen h => exact .slen h
  | dhdr hc h => exact .dhdr hc h
  | cll h hbad => exact .cll h hbad
  | noPrevious x h => exact .noPrevious x h
  | pastTotal hrun hi h => exact .pastTotal (s := withEnv s e) hrun hi h
  | runEnd hrun hstart h hbad =>
    exact .runEnd (s := withEnv s e) hrun (by cases i <;> exact hstart) h hbad
  | len284 => exact .len284
  | llInvalid286 => exact .llInvalid286
  | llInvalid287 => exact .llInvalid287
  | distInvalid30 => exact .distInvalid30
  | distInvalid31 => exact .distInvalid31
  | distance hp hsym h1 h2 => exact .distance (hpend.trans hp) hsym h1 (by rw [← hhist] at h2; exact h2)
  | trailer hi h =>
    obtain ⟨hc, hig⟩ := hck _ _ _ _ rfl
    exact .trailer (s := withEnv s e) (hig.trans hi) (by rw [← hc] at h; exact h)

/-- The phase in which an element is read (R71). -/
def readIn : Instr → Phase
  | .zhdr _ _ => .zlibHeader
  | .blkStored _ | .blkFixed _ | .blkDynamic _ | .blkReserved _ => .blockHeader
  | .slen _ _ => .storedLen
  | .sdata _ => .storedCopy
  | .dhdr _ _ _ => .dynHeader
  | .cll _ => .dynClLens
  | .clsymLen _ | .clsym16 _ | .clsym17 _ | .clsym18 _ => .dynLens
  | .trailer _ _ _ _ => .trailer
  | _ => .symbolLoop

theorem readIn_of_litLenInstr {sym e : Nat} {i : Instr} (h : litLenInstr sym e = some i) :
    readIn i = .symbolLoop := by
  unfold litLenInstr at h
  split at h
  case h_33 => split at h <;> cases h; rfl
  all_goals cases h; rfl

theorem readIn_of_distInstr {sym e : Nat} {i : Instr} (h : distInstr sym e = some i) :
    readIn i = .symbolLoop := by
  unfold distInstr at h
  split at h <;> cases h <;> rfl

theorem readIn_of_clsymInstr {sym e : Nat} {i : Instr} (h : clsymInstr sym e = some i) :
    readIn i = .dynLens := by
  unfold clsymInstr at h
  split at h
  case h_4 => split at h <;> cases h; rfl
  all_goals cases h; rfl

theorem readIn_blockInstr (v : Nat) : readIn (blockInstr v) = .blockHeader := by
  unfold blockInstr
  split <;> rfl

theorem expected_formatPhase {c : Call} {s : State} {x : ElemCtx} (hx : expected c s = some x) :
    s.phase = formatPhase x := by
  unfold expected at hx
  split at hx
  case h_7 hp =>
    rw [hp]
    split at hx <;> cases hx <;> rfl
  all_goals cases hx
  all_goals assumption

theorem readIn_of_decodeElem {x : ElemCtx} {v k : Nat} {i : Instr}
    (hi : decodeElem x v k = .got i) : readIn i = formatPhase x := by
  cases x with
  | zh => obtain ⟨-, rfl⟩ := got_of_ite (decodeElem_zh_eq _ _ ▸ hi); rfl
  | bh =>
    obtain ⟨-, rfl⟩ := got_of_ite (decodeElem_bh_eq _ _ ▸ hi)
    exact readIn_blockInstr _
  | sl => obtain ⟨-, rfl⟩ := got_of_ite (decodeElem_sl_eq _ _ ▸ hi); rfl
  | sd => obtain ⟨-, rfl⟩ := got_of_ite (decodeElem_sd_eq _ _ ▸ hi); rfl
  | dh => obtain ⟨-, rfl⟩ := got_of_ite (decodeElem_dh_eq _ _ ▸ hi); rfl
  | cll => obtain ⟨-, rfl⟩ := got_of_ite (decodeElem_cll_eq _ _ ▸ hi); rfl
  | cls code noPrev =>
    rcases decodeElem_cls hi with ⟨-, rfl⟩ | ⟨sym, e, hinstr, -⟩
    · rfl
    · exact readIn_of_clsymInstr hinstr
  | ll code =>
    obtain ⟨sym, e, hinstr, -⟩ := decodeElem_ll hi
    exact readIn_of_litLenInstr hinstr
  | dist code u =>
    obtain ⟨sym, e, hinstr, -⟩ := decodeElem_dist hi
    exact readIn_of_distInstr hinstr
  | tr => obtain ⟨-, rfl⟩ := got_of_ite (decodeElem_tr_eq _ _ ▸ hi); rfl

/-- An element is read in its phase. -/
theorem phase_of_decodeElem {c : Call} {s : State} {x : ElemCtx} {v k : Nat} {i : Instr}
    (hx : expected c s = some x) (hi : decodeElem x v k = .got i) : s.phase = readIn i :=
  (expected_formatPhase hx).trans (readIn_of_decodeElem hi).symm

/-! ### The moves in other surroundings -/

theorem next_byte_of_take {c d : Call} (h : d.rest.take 1 = c.rest.take 1) :
    d.inp[d.ip]? = c.inp[c.ip]? := by
  have hhead := congrArg List.head? h
  rwa [List.head?_take, List.head?_take, if_neg Nat.one_ne_zero, if_neg Nat.one_ne_zero,
    Call.rest, Call.rest, List.head?_drop, List.head?_drop] at hhead

/-- The trailer, read with the call `d`, compares the same checksum. -/
theorem Agree.check_of_got {x : ElemCtx} {c d : Call} {s e : State} {k : Nat} {i : Instr}
    (he : Agree s e) (hf : Fetches x c s k)
    (hi : decodeElem x (fetched c k s).acc.toNat (fetched c k s).nb.toNat = .got i)
    (b0 b1 b2 b3 : Byte) (htr : i = .trailer b0 b1 b2 b3) :
    (fetched d k e).ck = (fetched c k s).ck ∧ (fetched d k e).ignoreCk = (fetched c k s).ignoreCk := by
  subst htr
  refine (he.ahead c d k).check ?_
  rw [fetched_frame]
  exact phase_of_decodeElem hf.format hi

/-- In surroundings that agree, with a call that lets it, a move is the same move. -/
theorem Move.transfer {s t e : State} {c d : Call} {r : Turn} (h : Move s c r t)
    (hpend : d.pend = c.pend) (he : Agree s e) (hfit : r.Fits c d) :
    Move (withEnv s e) d r (withEnv t (r.env d e)) := by
  cases h with
  | @commit x k n i f t hf hi hn hc =>
    obtain ⟨htake, hroom⟩ := hfit
    have hs := fetched_withEnv htake s e
    have hc' := hc.transfer (d := d.ahead k) hpend (he.ahead c d k).hist (he.ahead c d k).wrap
      (he.check_of_got hf hi) hroom
    rw [← hs] at hc'
    change Move _ _ _ (withEnv (f.on (c.ahead k) t) (f.on (d.ahead k) e))
    rw [withEnv_on, ← on_ahead_withEnv_fetched]
    exact .commit (hf.transfer hpend htake) (by rw [hs]; exact hi) (by rw [hs]; exact hn) hc'
  | @refused x k i err hf hi hr =>
    have hs := fetched_withEnv hfit s e
    have hr' := hr.transfer (d := d.ahead k) hpend (he.ahead c d k).hist (he.check_of_got hf hi)
    rw [← hs] at hr'
    rw [endCall_withEnv, ← hs]
    exact .refused (hf.transfer hpend hfit) (by rw [hs]; exact hi) hr'
  | @bad x k err hf hbad =>
    have hs := fetched_withEnv hfit s e
    rw [endCall_withEnv, ← hs]
    exact .bad (hf.transfer hpend hfit) (by rw [hs]; exact hbad)
  | @noRoom x k b hf hi hroom =>
    obtain ⟨hrest, hfull⟩ := hfit
    have htake : d.rest.take k = c.rest.take k := by rw [hrest]
    have hs := fetched_withEnv htake s e
    rw [endCall_withEnv, ← hs]
    exact .noRoom (hf.transfer hpend htake) (by rw [hs]; exact hi) hfull
  | @noInput x hf hn =>
    obtain ⟨hrest, heoi⟩ := hfit
    have htake : d.rest.take c.rest.length = c.rest.take c.rest.length := by rw [hrest]
    have hs := fetched_withEnv htake s e
    rw [endCall_withEnv, ← hs, ← hrest, ← heoi]
    rw [← hrest] at hs hf
    refine .noInput (hf.transfer hpend (by rw [hrest])) ?_
    rw [hs, hrest]
    exact hn
  | storedEnd hp hrem =>
    change Move _ _ _ (withEnv (Effect.quiet.on (c.ahead 0) (endBlock s)) (Effect.quiet.on (d.ahead 0) e))
    rw [withEnv_on, ← endBlock_withEnv he.wrap]
    exact .storedEnd hp hrem
  | storedByte hp hrem hb hroom =>
    exact .storedByte (s := withEnv s e) hp hrem ((next_byte_of_take hfit.1).trans hb) (hfit.2 _ rfl)
  | storedNoInput hp hrem hb =>
    obtain ⟨hrest, heoi⟩ := hfit
    have hb' : d.inp[d.ip]? = none := (next_byte_of_take (by rw [hrest])).trans hb
    rw [endCall_withEnv, ← heoi]
    exact .storedNoInput (s := withEnv s e) hp hrem hb'
  | storedNoRoom hp hrem hb hroom =>
    obtain ⟨hrest, hfull⟩ := hfit
    exact .storedNoRoom (s := withEnv s e) hp hrem
      ((next_byte_of_take (by rw [hrest])).trans hb) hfull
  | copyEnd hp hlen => exact .copyEnd (s := withEnv s e) hp hlen
  | copyByte hp hlen hroom hread =>
    refine .copyByte (s := withEnv s e) hp hlen (hfit.2 _ rfl) ?_
    change Memory.read e.win (windowSource e.wp s.brDist.toNat) = _
    rw [he.win, he.wp]
    exact hread
  | copyNoRoom hp hlen hroom => exact .copyNoRoom (s := withEnv s e) hp hlen hfit.2
  | finish hp => exact .finish (s := withEnv s e) hp

/-- A literal is what emits a byte. -/
theorem Commit.room {c : Call} {s t : State} {i : Instr} {n : Nat} {b : Byte}
    (h : Commit c s i n (.byte b) t) : c.off + c.prod < c.out.length := by
  cases h with
  | lit b hroom => exact hroom

/-- The call of a move lets it happen. -/
theorem Move.fits {s t : State} {c : Call} {r : Turn} (h : Move s c r t) : r.Fits c c := by
  cases h with
  | commit hf hi hn hc => exact ⟨rfl, fun b hb => by subst hb; exact hc.room⟩
  | refused => rfl
  | bad => rfl
  | noRoom hf hi hroom => exact ⟨rfl, hroom⟩
  | noInput => exact ⟨rfl, rfl⟩
  | storedEnd => exact ⟨rfl, fun b hb => nomatch hb⟩
  | storedByte hp hrem hb hroom => exact ⟨rfl, fun _ _ => hroom⟩
  | storedNoInput => exact ⟨rfl, rfl⟩
  | storedNoRoom hp hrem hb hroom => exact ⟨rfl, hroom⟩
  | copyEnd => exact ⟨rfl, fun b hb => nomatch hb⟩
  | copyByte hp hlen hroom hread => exact ⟨rfl, fun _ _ => hroom⟩
  | copyNoRoom hp hlen hroom => exact ⟨rfl, hroom⟩
  | finish => trivial

/-- What a move does to the surroundings is what its turn says. -/
theorem Move.env_eq {s t : State} {c : Call} {r : Turn} (h : Move s c r t) (hcall : s.call = some c) :
    t = withEnv t (r.env c s) := by
  have h' : Move s c r (withEnv t (r.env c s)) := h.transfer rfl (Agree.refl s) h.fits
  exact Host.Outcome.next.inj ((step_of_move hcall h).symm.trans (step_of_move hcall h'))

/-- A step in other surroundings. -/
theorem step_withEnv {s t e : State} {c d : Call} {r : Turn} (h : Move s c r t)
    (hd : e.call = some d) (hpend : d.pend = c.pend) (he : Agree s e) (hfit : r.Fits c d) :
    step (withEnv s e) = .next (withEnv t (r.env d e)) :=
  step_of_move hd (h.transfer hpend he hfit)

end Sys2Proof.Machine
end

section
/-! The statements about every step of a call that follow from its moves (R6, R163, R242, R261,
R263), and what a step does with no call in progress. -/

namespace Sys2Proof.Machine

/-! ### The port (R261, R265, R266) -/

theorem isCommand_of_decodeCommand {x : Transaction} {i : Instr} (h : decodeCommand x = some i) :
    i.isCommand = true := by
  simp only [decodeCommand] at h
  split at h
  case h_6 => cases h
  all_goals split at h <;> cases h
  all_goals rfl

/-- What a step does with no call in progress: nothing, a result, the start of a call, or a RESET. -/
inductive PortStep (s : State) : State → Prop where
  | idle (h : s.cmds = []) : PortStep s s
  | respond {x : Transaction} {rest : List Transaction} (h : s.cmds = x :: rest) (r : Response)
      {ignore : Bool} (hignore : s.ignoreCk = true → ignore = true) :
    PortStep s (respond r { s with cmds := rest, ignoreCk := ignore })
  | start {x : Transaction} {rest : List Transaction} (h : s.cmds = x :: rest)
      {inp out : List Byte} {off : Nat} (eoi : Bool) (he : s.phase ≠ .error) (hd : s.phase ≠ .done)
      (hoff : off ≤ out.length) :
    PortStep s (beginCall inp out off eoi { s with cmds := rest })
  | reset {x : Transaction} {rest : List Transaction} (h : s.cmds = x :: rest) {cfg : Cfg}
      {wrap : Wrap} (hx : decodeCommand x = some (.reset cfg wrap)) :
    PortStep s { State.resetTo cfg wrap with cmds := rest, resps := .completed :: s.resps }

theorem portStep_of_advance {s : State} {x : Transaction} {rest : List Transaction}
    (h : s.cmds = x :: rest) (inp out : List Byte) (off : Nat) (eoi : Bool) :
    ∃ t, execAdvance inp out off eoi { s with cmds := rest } = .next t ∧ PortStep s t := by
  by_cases he : s.phase = .error
  · exact ⟨_, execAdvance_of_error (s := { s with cmds := rest }) he inp out off eoi,
      .respond h _ id⟩
  by_cases hd : s.phase = .done
  · exact ⟨_, execAdvance_of_done (s := { s with cmds := rest }) hd inp out off eoi,
      .respond h _ id⟩
  rcases Nat.lt_or_ge out.length off with hoff | hoff
  · exact ⟨_, execAdvance_of_off (s := { s with cmds := rest }) he hd hoff eoi, .respond h _ id⟩
  · exact ⟨_, execAdvance_of_le (s := { s with cmds := rest }) he hd hoff eoi,
      .start h eoi he hd hoff⟩

theorem exists_portStep {s : State} (hcall : s.call = none) :
    ∃ t, step s = .next t ∧ PortStep s t := by
  cases hcmds : s.cmds with
  | nil => exact ⟨s, step_of_idle hcall hcmds, .idle hcmds⟩
  | cons x rest =>
    cases hx : decodeCommand x with
    | none => exact ⟨_, step_of_refused hcall hcmds hx, .respond hcmds _ id⟩
    | some i =>
      rw [step_of_command hcall hcmds hx]
      have hi := isCommand_of_decodeCommand hx
      cases i
      case reset cfg wrap => exact ⟨_, rfl, .reset hcmds hx⟩
      case advance inp out off eoi => exact portStep_of_advance hcmds inp out off eoi
      case isDone => exact ⟨_, rfl, .respond hcmds _ id⟩
      case ignoreChecksum => exact ⟨_, rfl, .respond hcmds .completed fun _ => rfl⟩
      case checksum => exact ⟨_, rfl, .respond hcmds _ id⟩
      all_goals cases hi

theorem portStep_of_step {s t : State} (hcall : s.call = none) (h : step s = .next t) :
    PortStep s t := by
  obtain ⟨u, hu, hport⟩ := exists_portStep hcall
  obtain rfl := Host.Outcome.next.inj (hu.symm.trans h)
  exact hport

/-! ### The surroundings after a turn -/

@[simp] theorem Effect.on_phase (f : Effect) (c : Call) (s : State) :
    (f.on c s).phase = s.phase := by cases f <;> rfl
@[simp] theorem Effect.on_nb (f : Effect) (c : Call) (s : State) : (f.on c s).nb = s.nb := by
  cases f <;> rfl
@[simp] theorem Turn.env_cfg (r : Turn) (c : Call) (s : State) : (r.env c s).cfg = s.cfg := by
  rcases r with ⟨k, _ | _ | _⟩ | _ <;> rfl
@[simp] theorem Turn.env_wrap (r : Turn) (c : Call) (s : State) : (r.env c s).wrap = s.wrap := by
  rcases r with ⟨k, _ | _ | _⟩ | _ <;> rfl
@[simp] theorem Turn.env_ignoreCk (r : Turn) (c : Call) (s : State) :
    (r.env c s).ignoreCk = s.ignoreCk := by
  rcases r with ⟨k, _ | _ | _⟩ | _ <;> rfl
@[simp] theorem Turn.env_cmds (r : Turn) (c : Call) (s : State) : (r.env c s).cmds = s.cmds := by
  rcases r with ⟨k, _ | _ | _⟩ | _ <;> rfl

/-- Settles O16: the words by their fields, a refused word by the port's rule, and inside a call the
port is among the surroundings. -/
theorem portTakesOneCommandAtATime : Obligations.PortTakesOneCommandAtATime := by
  refine ⟨fun t => (decodeCommand_eq_none_iff t).symm,
    fun s t rest hcall hcmds ht => step_of_refused hcall hcmds ht, fun s t c hcall hstep => ?_⟩
  obtain ⟨r, hm⟩ := move_of_step hcall hstep
  rw [hm.env_eq hcall]
  exact r.env_cmds c s

/-- Settles O53: a turn that emits a byte had room for it; any other turn keeps the window and the
checksum. -/
theorem windowIsWrittenOnlyByEmit : Obligations.WindowIsWrittenOnlyByEmit := by
  intro s t c hcall hstep
  obtain ⟨r, hm⟩ := move_of_step hcall hstep
  rw [hm.env_eq hcall]
  rcases r with ⟨k, _ | q | b⟩ | ⟨cause, status, k⟩
  · exact .inl ⟨rfl, rfl, rfl, rfl, fun d hd => by cases hd; exact ⟨rfl, rfl⟩⟩
  · exact .inl ⟨rfl, rfl, rfl, rfl, fun d hd => by cases hd; exact ⟨rfl, rfl⟩⟩
  · have hroom : c.off + c.prod < c.out.length := hm.fits.2 b rfl
    exact .inr ⟨b, _, rfl, rfl, List.getElem?_set_self hroom, rfl, rfl, bumpHist_toNat s.hist, rfl⟩
  · exact .inl ⟨rfl, rfl, rfl, rfl, fun d hd => nomatch hd⟩

/-- Settles O56: the configuration is in the surroundings, and nothing that a move does reads it. -/
theorem tableSizeDoesNotMatter : Obligations.TableSizeDoesNotMatter := by
  intro s t c cfg hcall hstep
  obtain ⟨r, hm⟩ := move_of_step hcall hstep
  have henv : r.env c { s with cfg := cfg } = { r.env c s with cfg := cfg } := by
    rcases r with ⟨k, _ | _ | _⟩ | _ <;> rfl
  have h := step_withEnv (e := { s with cfg := cfg }) hm hcall rfl
    ⟨rfl, rfl, rfl, rfl, fun _ => ⟨rfl, rfl⟩⟩ hm.fits
  rw [henv] at h
  rw [hm.env_eq hcall]
  exact h

/-- Settles O57: outside the trailer nothing that a move does reads the checksum. -/
theorem checksumOptOutIsTransparent : Obligations.ChecksumOptOutIsTransparent := by
  intro s t c ck ignore hcall hphase hstep
  obtain ⟨r, hm⟩ := move_of_step hcall hstep
  have h := step_withEnv (e := { s with ck := ck, ignoreCk := ignore }) hm hcall rfl
    ⟨rfl, rfl, rfl, rfl, fun htr => absurd htr hphase⟩ hm.fits
  refine ⟨_, h, ?_, fun hig => ?_⟩
  · conv_rhs => rw [hm.env_eq hcall]
    rcases r with ⟨k, _ | _ | _⟩ | _ <;> rfl
  · subst hig
    rcases r with ⟨k, _ | _ | _⟩ | _ <;> rfl

/-! ### The phases (R163) -/

theorem endBlock_phase (s : State) : (endBlock s).phase = afterBlock s.final s.wrap := by
  unfold endBlock afterBlock
  cases s.final <;> cases s.wrap <;> rfl

theorem phaseEdge_self (final : Bool) (wrap : Wrap) (p : Phase) : phaseEdge final wrap p p = true := by
  cases p <;> simp [phaseEdge]

/-- A phase that reads an element can raise. -/
theorem phaseEdge_error (final : Bool) (wrap : Wrap) (x : ElemCtx) :
    phaseEdge final wrap (formatPhase x) .error = true := by
  cases x <;> simp [formatPhase, phaseEdge]

theorem phaseEdge_afterBlock (final : Bool) (wrap : Wrap) {p : Phase}
    (h : p = .storedCopy ∨ p = .symbolLoop) :
    phaseEdge final wrap p (afterBlock final wrap) = true := by
  rcases h with rfl | rfl <;> simp [phaseEdge]

theorem readIn_of_runOf {s : State} {i : Instr} {p : Nat × BitVec 4 × Nat} (h : runOf s i = some p) :
    readIn i = .dynLens := by
  unfold runOf at h
  split at h <;> cases h <;> rfl

theorem readIn_of_distSym {i : Instr} {sym e : Nat} (h : distSym i = some (sym, e)) :
    readIn i = .symbolLoop :=
  readIn_of_distInstr (((Laws.Encoding.all i).2.2.2.1 sym e h).1)

/-- The commit of an element takes an edge of the table. -/
theorem Commit.phaseEdge {c : Call} {s t : State} {i : Instr} {n : Nat} {f : Effect}
    (h : Commit c s i n f t) (hp : s.phase = readIn i) :
    phaseEdge s.final s.wrap s.phase t.phase = true := by
  cases h with
  | cllMore v h => exact phaseEdge_self _ _ _
  | runInside hrun hstart h => exact phaseEdge_self _ _ _
  | lit b hroom => exact phaseEdge_self _ _ _
  | length hsym h1 h2 h3 => exact phaseEdge_self _ _ _
  | eob =>
    rw [endBlock_phase]
    exact phaseEdge_afterBlock _ _ (.inr hp)
  | runEnd hrun hstart h hok => rw [hp, readIn_of_runOf hrun]; rfl
  | distance hpend hsym h1 h2 =>
    rw [hp, readIn_of_distSym hsym]
    simp [Machine.phaseEdge]
  | _ => rw [hp]; simp [readIn, Machine.phaseEdge]

theorem phaseEdge_endCall {final : Bool} {wrap : Wrap} {s : State} (status : BitVec 3) (c : Call)
    (h : Machine.phaseEdge final wrap s.phase .error = true) :
    Machine.phaseEdge final wrap s.phase (endCall status c s).phase = true := by
  by_cases h0 : status = 0
  · simp [endCall, h0, phaseEdge_self]
  · rw [endCall, respond_phase, if_neg h0]
    exact h

/-- A stall keeps the phase. -/
theorem phaseEdge_stall (final : Bool) (wrap : Wrap) (s : State) (c : Call) :
    Machine.phaseEdge final wrap s.phase (endCall 0 c s).phase = true :=
  phaseEdge_self _ _ _

theorem fetched_phase (c : Call) (k : Nat) (s : State) : (fetched c k s).phase = s.phase := by
  rw [fetched_frame]

/-- A move takes an edge of the table. -/
theorem Move.phaseEdge {s t : State} {c : Call} {r : Turn} (h : Move s c r t) :
    Machine.phaseEdge s.final s.wrap s.phase t.phase = true := by
  have hend : ∀ {x : ElemCtx} {k : Nat} (status : BitVec 3), Fetches x c s k →
      Machine.phaseEdge s.final s.wrap s.phase (endCall status (c.ahead k) (fetched c k s)).phase =
        true := by
    intro x k status hf
    rw [← fetched_phase c k s]
    refine phaseEdge_endCall status _ ?_
    rw [fetched_phase, expected_formatPhase hf.format]
    exact phaseEdge_error _ _ x
  cases h with
  | @commit x k n i f t hf hi hn hc =>
    rw [Effect.on_phase]
    have hp := phase_of_decodeElem hf.format hi
    rw [fetched_frame] at hc
    exact hc.phaseEdge hp
  | refused hf => exact hend _ hf
  | bad hf => exact hend _ hf
  | noRoom hf => exact hend _ hf
  | noInput hf => exact hend _ hf
  | storedEnd hp =>
    rw [Effect.on_phase, endBlock_phase]
    exact phaseEdge_afterBlock _ _ (.inl hp)
  | storedByte => exact phaseEdge_self _ _ _
  | storedNoInput hp => exact phaseEdge_endCall _ _ (by simp [hp, Machine.phaseEdge])
  | storedNoRoom => exact phaseEdge_self _ _ _
  | copyEnd hp => rw [hp]; rfl
  | copyByte => exact phaseEdge_self _ _ _
  | copyNoRoom => exact phaseEdge_self _ _ _
  | finish => exact phaseEdge_self _ _ _

/-- Settles O50: every move takes an edge of the table. -/
theorem phasesFollowTheTransitionTable : Obligations.PhasesFollowTheTransitionTable := by
  intro s t c hcall hstep
  obtain ⟨r, hm⟩ := move_of_step hcall hstep
  exact hm.phaseEdge

/-- DONE and ERROR have no edge out. -/
theorem phase_eq_of_phaseEdge {final : Bool} {wrap : Wrap} {p q : Phase}
    (h : phaseEdge final wrap p q = true) (hp : p = .done ∨ p = .error) : q = p := by
  rcases hp with rfl | rfl <;> simpa [phaseEdge] using h

/-- Settles O51: what the port does when it runs no RESET, and inside a call the surroundings of the
turn and the edges out of DONE and ERROR. -/
theorem onlyResetLeavesDoneAndError : Obligations.OnlyResetLeavesDoneAndError := by
  intro s t hstep hreset
  cases hcall : s.call with
  | none =>
    cases portStep_of_step hcall hstep with
    | idle h => exact ⟨rfl, rfl, id, fun _ => ⟨rfl, rfl, fun _ => hcall⟩, fun _ => rfl⟩
    | respond h r hig => exact ⟨rfl, rfl, hig, fun _ => ⟨rfl, rfl, fun _ => hcall⟩, fun _ => rfl⟩
    | start h eoi he hd hoff =>
      exact ⟨rfl, rfl, id, fun _ => ⟨rfl, rfl, fun hp => absurd hp (not_or.mpr ⟨hd, he⟩)⟩,
        fun _ => rfl⟩
    | reset h hx => exact absurd hx (hreset hcall _ _ _ _ h)
  | some c =>
    obtain ⟨r, hm⟩ := move_of_step hcall hstep
    refine ⟨?_, ?_, fun hig => ?_, fun h => absurd h (Option.some_ne_none c),
      phase_eq_of_phaseEdge hm.phaseEdge⟩
    all_goals rw [hm.env_eq hcall]
    · exact r.env_cfg c s
    · exact r.env_wrap c s
    · exact (r.env_ignoreCk c s).trans hig

end Sys2Proof.Machine
end

section
/-! Elements as bits of the window (40_bit_reader.md, 30_encoding.md section 8): an element that is
read is decided by its own bits, and a want of more is met by at most 48 of them. -/

namespace Sys2Proof.Machine

/-! ### Reading depends on the bits of the element only -/

/-- The bits an element has in a format, from the start of the window. -/
def elemWidth : ElemCtx → Instr → Nat
  | .zh, _ => 16
  | .bh, _ => 3
  | .sl, _ => 32
  | .sd, _ => 8
  | .dh, _ => 14
  | .cll, _ => 3
  | .cls code _, i => ((clsymSym i).map fun p => code.getD p.1 0 + clExtra p.1).getD 0
  | .ll code, i => ((litLenSym i).map fun p => code.getD p.1 0 + lenExtra p.1).getD 0
  | .dist code u, i => ((distSym i).map fun p => u + (code.getD p.1 0 + distExtra p.1)).getD 0
  | .tr, _ => 32

/-- The first n bits of `v` are the element i: with them known it is read, and with fewer known more
are wanted. -/
def Reads (x : ElemCtx) (v : Nat) (i : Instr) (n : Nat) : Prop :=
  ∀ w k, w % 2 ^ n = v % 2 ^ n → decodeElem x w k = if n ≤ k then .got i else .needMore

theorem field_congr {v w n o m : Nat} (h : w % 2 ^ n = v % 2 ^ n) (hn : o + m ≤ n) :
    field w o m = field v o m := by
  have hmod : ∀ a : Nat, field a o m = field (a % 2 ^ n) o m := fun a => by
    have hfield : a % 2 ^ n = field a 0 n := by rw [field, Nat.shiftRight_zero]
    rw [hfield, field_of_field hn, Nat.zero_add]
  rw [hmod w, h, ← hmod v]

theorem reads_symbolAt {x : Lengths} (hx : CodeFits x) {extra : Nat → Nat}
    {instr : Nat → Nat → Option Instr} {i : Instr} {v k o : Nat}
    (h : symbolAt x extra instr v k o = .got i) :
    ∃ s e, instr s e = some i ∧ e < 2 ^ extra s ∧ o + (x.getD s 0 + extra s) ≤ k ∧
      ∀ w j, w % 2 ^ (o + (x.getD s 0 + extra s)) = v % 2 ^ (o + (x.getD s 0 + extra s)) →
        symbolAt x extra instr w j o =
          if o + (x.getD s 0 + extra s) ≤ j then .got i else .needMore := by
  obtain ⟨s, e, b, hi, he, hb, hv⟩ := encodeSym_of_symbolAt hx h
  have hwidth : b.width = x.getD s 0 + extra s := by
    obtain ⟨u, hu, rfl, rfl⟩ := encodeSym_eq_some hb
    rw [(codeWords_len hu).1]
  refine ⟨s, e, hi, he, ?_⟩
  rw [← hwidth]
  refine ⟨?_, fun w j hw => ?_⟩
  · rw [symbolAt_of_encodeSym hx hi hb hv] at h
    exact (got_of_ite h).1
  · exact symbolAt_of_encodeSym hx hi hb ((field_congr hw (Nat.le_refl _)).trans hv) j

/-- An element of a field format. -/
theorem reads_of_eq {x : ElemCtx} {i : Instr} {v k n : Nat} {f : Nat → Instr}
    (heq : ∀ w j, decodeElem x w j = if n ≤ j then .got (f w) else .needMore)
    (hcongr : ∀ w, w % 2 ^ n = v % 2 ^ n → f w = f v) (h : decodeElem x v k = .got i) :
    n ≤ k ∧ Reads x v i n := by
  rw [heq] at h
  obtain ⟨hk, rfl⟩ := got_of_ite h
  exact ⟨hk, fun w j hw => by rw [heq, hcongr w hw]⟩

theorem elemWidth_ll {code : Lengths} {i : Instr} {sym e : Nat} (h : litLenSym i = some (sym, e)) :
    elemWidth (.ll code) i = code.getD sym 0 + lenExtra sym := by
  rw [elemWidth, h]
  rfl

theorem elemWidth_dist {code : Lengths} {u : Nat} {i : Instr} {sym e : Nat}
    (h : distSym i = some (sym, e)) :
    elemWidth (.dist code u) i = u + (code.getD sym 0 + distExtra sym) := by
  rw [elemWidth, h]
  rfl

theorem elemWidth_cls {code : Lengths} {noPrev : Bool} {i : Instr} {sym e : Nat}
    (h : clsymSym i = some (sym, e)) :
    elemWidth (.cls code noPrev) i = code.getD sym 0 + clExtra sym := by
  rw [elemWidth, h]
  rfl

theorem reads_ll {code : Lengths} (hx : CodeFits code) {i : Instr} {v k : Nat}
    (h : decodeElem (.ll code) v k = .got i) :
    elemWidth (.ll code) i ≤ k ∧ Reads (.ll code) v i (elemWidth (.ll code) i) := by
  rw [decodeElem_ll_eq] at h
  obtain ⟨s, e, hi, he, hk, hr⟩ := reads_symbolAt hx h
  rw [elemWidth_ll (litLenSym_of_litLenInstr hi he)]
  rw [Nat.zero_add] at hk hr
  exact ⟨hk, fun w j hw => (decodeElem_ll_eq code w j).trans (hr w j hw)⟩

theorem reads_dist {code : Lengths} (hx : CodeFits code) {u : Nat} {i : Instr} {v k : Nat}
    (h : decodeElem (.dist code u) v k = .got i) :
    elemWidth (.dist code u) i ≤ k ∧ Reads (.dist code u) v i (elemWidth (.dist code u) i) := by
  rw [decodeElem_dist_eq] at h
  obtain ⟨s, e, hi, he, hk, hr⟩ := reads_symbolAt hx h
  rw [elemWidth_dist (distSym_of_distInstr hi he)]
  exact ⟨hk, hr⟩

/-- A code-length symbol: symbol 16 as the first length is decided by its code word. -/
theorem reads_cls {code : Lengths} (hx : CodeFits code) {noPrev : Bool} {i : Instr} {v k : Nat}
    (h : decodeElem (.cls code noPrev) v k = .got i) :
    ∃ n, n ≤ k ∧ Reads (.cls code noPrev) v i n ∧
      (firstRepeat (.cls code noPrev) i = false → n = elemWidth (.cls code noPrev) i) := by
  obtain ⟨⟨s, len⟩, hs, -⟩ := bind_got.mp h
  obtain ⟨u, hu, rfl, rfl, hk, hv⟩ := hdecodeAt_got_word hs
  rw [Nat.zero_add] at hk
  have hword : ∀ {w n : Nat}, u.len ≤ n → w % 2 ^ n = v % 2 ^ n →
      field w 0 u.len = rev u.len u.code := fun hn hw =>
    (field_congr hw ((Nat.zero_add _).le.trans hn)).trans hv
  rw [decodeElem_cls_of_reads hx hu hv] at h
  by_cases h16 : u.sym = 16 ∧ noPrev = true
  · rw [if_pos h16] at h
    obtain ⟨-, rfl⟩ := got_of_ite h
    refine ⟨u.len, hk, fun w j hw => ?_, fun hr => ?_⟩
    · rw [decodeElem_cls_of_reads hx hu (hword (Nat.le_refl _) hw), if_pos h16]
    · obtain ⟨-, rfl⟩ := h16
      cases hr
  · rw [if_neg h16] at h
    have hlen := (codeWords_len hu).1
    rw [symbolAt_of_reads hx hu hv] at h
    split at h
    case isFalse => cases h
    next hkk =>
    have hi := orInvalid_got h
    have hsym := clsymSym_of_clsymInstr hi (field_lt _ _ _)
    have hwidth : elemWidth (.cls code noPrev) i = u.len + clExtra u.sym := by
      rw [elemWidth_cls hsym, hlen]
    rw [Nat.zero_add] at hkk
    refine ⟨_, hkk, fun w j hw => ?_, fun _ => hwidth.symm⟩
    rw [decodeElem_cls_of_reads hx hu (hword (Nat.le_add_right _ _) hw), if_neg h16,
      symbolAt_of_reads hx hu (hword (Nat.le_add_right _ _) hw), Nat.zero_add, Nat.zero_add,
      field_congr hw (Nat.le_refl _), ← Nat.zero_add u.len, hi]
    rfl

/-- An element that is read is decided by its own bits. -/
theorem reads_of_got {x : ElemCtx} (hx : CtxFits x) {i : Instr} {v k : Nat}
    (h : decodeElem x v k = .got i) :
    ∃ n, n ≤ k ∧ Reads x v i n ∧ (firstRepeat x i = false → n = elemWidth x i) := by
  have hfield : ∀ {n : Nat}, n = elemWidth x i → n ≤ k ∧ Reads x v i n →
      ∃ n, n ≤ k ∧ Reads x v i n ∧ (firstRepeat x i = false → n = elemWidth x i) :=
    fun hn hr => ⟨_, hr.1, hr.2, fun _ => hn⟩
  cases x with
  | cls code noPrev => exact reads_cls hx h
  | ll code => exact hfield rfl (reads_ll hx h)
  | dist code u => exact hfield rfl (reads_dist hx h)
  | zh =>
    refine hfield (n := 16) rfl (reads_of_eq (decodeElem_zh_eq · ·) (fun w hw => ?_) h)
    rw [field_congr hw (by decide), field_congr hw (by decide)]
  | bh =>
    refine hfield (n := 3) rfl (reads_of_eq (decodeElem_bh_eq · ·) (fun w hw => ?_) h)
    rw [field_congr hw (by decide)]
  | sl =>
    refine hfield (n := 32) rfl (reads_of_eq (decodeElem_sl_eq · ·) (fun w hw => ?_) h)
    rw [field_congr hw (by decide), field_congr hw (by decide)]
  | sd =>
    refine hfield (n := 8) rfl (reads_of_eq (decodeElem_sd_eq · ·) (fun w hw => ?_) h)
    rw [field_congr hw (by decide)]
  | dh =>
    refine hfield (n := 14) rfl (reads_of_eq (decodeElem_dh_eq · ·) (fun w hw => ?_) h)
    rw [field_congr hw (by decide), field_congr hw (by decide), field_congr hw (by decide)]
  | cll =>
    refine hfield (n := 3) rfl (reads_of_eq (decodeElem_cll_eq · ·) (fun w hw => ?_) h)
    rw [field_congr hw (by decide)]
  | tr =>
    refine hfield (n := 32) rfl (reads_of_eq (decodeElem_tr_eq · ·) (fun w hw => ?_) h)
    rw [field_congr hw (by decide), field_congr hw (by decide), field_congr hw (by decide),
      field_congr hw (by decide)]

/-! ### How many bits an element can want -/

theorem clExtra_le (s : Nat) : clExtra s ≤ 7 := by
  unfold clExtra
  split <;> decide

theorem getD_le {l : List Nat} {b : Nat} (h : ∀ a ∈ l, a ≤ b) (i : Nat) : l.getD i 0 ≤ b := by
  rw [List.getD_eq_getElem?_getD]
  cases hi : l[i]? with
  | none => exact Nat.zero_le b
  | some a => exact h a (List.mem_of_getElem? hi)

theorem lenExtra_le (s : Nat) : lenExtra s ≤ 5 := by
  unfold lenExtra
  split
  · exact Nat.zero_le _
  · exact getD_le (by decide) _

theorem distExtra_le (s : Nat) : distExtra s ≤ 13 := getD_le (by decide) s

theorem hdecodeAt_needMore {x : Lengths} (hx : ∀ l ∈ x, l ≤ Config.maxLen) {v k o : Nat}
    (h : hdecodeAt x v k o = .needMore) : k < o + 15 := by
  unfold hdecodeAt at h
  split at h
  · cases h
  · next hd =>
    obtain ⟨w, hw, hk⟩ := decodeSym_needMore hd
    have hlen := codeWords_len_le hx hw
    rw [Config.maxLen] at hlen
    omega
  · cases h

theorem orInvalid_ne_needMore (o : Option Instr) : orInvalid o ≠ .needMore := by
  cases o <;> exact fun h => nomatch h

theorem bind_needMore {α β : Type} {p : Peek α} {f : α → Peek β} :
    p.bind f = .needMore ↔ p = .needMore ∨ ∃ a, p = .got a ∧ f a = .needMore := by
  cases p <;> simp [Peek.bind]

/-- An extra field that is wanted is not all known. -/
theorem extra_needMore {v k o n : Nat} {f : Nat → Option Instr} (ho : o ≤ k)
    (h : ((extraAt v k o n).bind fun e => orInvalid (f e)) = .needMore) : k < o + n := by
  rcases bind_needMore.mp h with h | ⟨e, -, h⟩
  · rw [extraAt_eq ho] at h
    split at h
    · cases h
    · next hk => exact Nat.lt_of_not_le hk
  · exact absurd h (orInvalid_ne_needMore _)

theorem symbolAt_needMore {x : Lengths} (hx : ∀ l ∈ x, l ≤ Config.maxLen) {extra : Nat → Nat}
    {instr : Nat → Nat → Option Instr} {v k o b : Nat} (hextra : ∀ s, extra s ≤ b)
    (h : symbolAt x extra instr v k o = .needMore) : k < o + 15 + b := by
  rcases bind_needMore.mp h with h | ⟨⟨s, len⟩, hs, h⟩
  · have := hdecodeAt_needMore hx h
    omega
  · obtain ⟨w, hw, rfl, rfl, hk, -⟩ := hdecodeAt_got_word hs
    have hlt := extra_needMore hk h
    have hlen := codeWords_len_le hx hw
    have hext := hextra w.sym
    rw [Config.maxLen] at hlen
    dsimp only at hlt
    omega

/-- More bits are wanted only while fewer than 48 are known (R22, R104). -/
theorem needMore_lt {x : ElemCtx} (hx : CtxFits x) (ho : x.offset ≤ 20) {v k : Nat}
    (h : decodeElem x v k = .needMore) : k < 48 := by
  have hfield : ∀ {n : Nat} {p : Instr}, (if n ≤ k then Peek.got p else .needMore) = .needMore →
      n ≤ 48 → k < 48 := fun {n p} h hn => by
    by_cases hk : n ≤ k
    · rw [if_pos hk] at h
      cases h
    · omega
  cases x with
  | zh => rw [decodeElem_zh_eq] at h; exact hfield h (by decide)
  | bh => rw [decodeElem_bh_eq] at h; exact hfield h (by decide)
  | sl => rw [decodeElem_sl_eq] at h; exact hfield h (by decide)
  | sd => rw [decodeElem_sd_eq] at h; exact hfield h (by decide)
  | dh => rw [decodeElem_dh_eq] at h; exact hfield h (by decide)
  | cll => rw [decodeElem_cll_eq] at h; exact hfield h (by decide)
  | tr => rw [decodeElem_tr_eq] at h; exact hfield h (by decide)
  | ll code =>
    rw [decodeElem_ll_eq] at h
    have := symbolAt_needMore hx.1 lenExtra_le h
    omega
  | dist code u =>
    rw [decodeElem_dist_eq] at h
    have := symbolAt_needMore hx.1 distExtra_le h
    have hu : u ≤ 20 := ho
    omega
  | cls code noPrev =>
    rcases bind_needMore.mp h with h | ⟨⟨s, len⟩, hs, h⟩
    · have := hdecodeAt_needMore hx.1 h
      omega
    · obtain ⟨w, hw, rfl, rfl, hk, -⟩ := hdecodeAt_got_word hs
      split at h
      · cases h
      · have hlt := extra_needMore ((Nat.zero_add _).symm.le.trans hk) h
        have hlen := codeWords_len_le hx.1 hw
        have hext := clExtra_le w.sym
        rw [Config.maxLen] at hlen
        dsimp only at hlt
        omega

/-! ### The codes of the block fit (R123 to R125) -/

theorem lengthsOf_le {n w : Nat} (hw : w ≤ 4) (x : Vector (BitVec w) n) :
    ∀ l ∈ lengthsOf x, l ≤ Config.maxLen := by
  intro l hl
  obtain ⟨b, -, rfl⟩ := List.mem_map.mp hl
  have hlt : b.toNat < 2 ^ 4 := Nat.lt_of_lt_of_le b.isLt (Nat.pow_le_pow_right (by decide) hw)
  rw [Config.maxLen]
  omega

theorem codeFits_of_distAccepted {x : Lengths} (hx : ∀ l ∈ x, l ≤ Config.maxLen)
    (h : distAccepted x = true) : CodeFits x := by
  refine ⟨hx, ?_⟩
  rcases (distAccepted_iff x).mp h with hc | hempty | hsingle
  · exact (codeFits_of_complete hx hc).2
  · have hnil : x.filter (fun l => decide (l ≠ 0)) = [] := by simpa using hempty
    rw [kraft_filter, hnil]
    decide
  · rw [kraft_filter, hsingle]
    decide

theorem codeFits_of_llAccepted {x : Lengths} (hx : ∀ l ∈ x, l ≤ Config.maxLen)
    (h : llAccepted x = true) : CodeFits x :=
  codeFits_of_complete hx (Bool.and_eq_true_iff.mp h).1

end Sys2Proof.Machine
end

section
/-! The bit reader inside a call (R22, R103, R104): the bits a step FETCHes, where they stand, and the
cursors after the step. -/

namespace Sys2Proof.Machine

/-! ### The format the phase expects (R71, R123 to R125) -/

/-- In a state that meets the invariant the code of the expected format fits, and the element in
progress is at most 20 bits, all pending. -/
theorem ctx_of_expected {s : State} {c : Call} {x : ElemCtx} (hinv : Inv s) (hcall : s.call = some c)
    (hx : expected c s = some x) : CtxFits x ∧ x.offset ≤ 20 ∧ x.offset ≤ s.nb.toNat := by
  have hphase := hinv.phase
  have hpend := (hinv.call c hcall).2.2.2
  unfold expected at hx
  unfold PhaseOk at hphase
  split at hx
  case h_6 hp =>
    cases hx
    rw [hp] at hphase
    exact ⟨codeFits_of_complete (lengthsOf_le (by decide) _) hphase.2.2, Nat.zero_le _, Nat.zero_le _⟩
  case h_7 hp =>
    rw [hp] at hphase
    split at hx
    · cases hx
      exact ⟨codeFits_of_llAccepted (lengthsOf_le (by decide) _) hphase.1, Nat.zero_le _,
        Nat.zero_le _⟩
    · next p hp =>
      cases hx
      obtain ⟨-, -, -, -, h20, hnb⟩ := hpend p hp
      exact ⟨codeFits_of_distAccepted (lengthsOf_le (by decide) _) hphase.2, h20, hnb⟩
  all_goals cases hx
  all_goals exact ⟨trivial, Nat.zero_le _, Nat.zero_le _⟩

/-- Stored bytes are not read through `acc` (R153). -/
theorem expected_ne_sd {s : State} {c : Call} {x : ElemCtx} (hx : expected c s = some x) :
    x ≠ .sd := by
  rintro rfl
  unfold expected at hx
  split at hx
  case h_7 => split at hx <;> cases hx
  all_goals cases hx

/-! ### The bits after k FETCHes -/

@[simp] theorem fetched_zero (c : Call) (s : State) : fetched c 0 s = s := rfl

theorem fetched_succ {c : Call} {k : Nat} (hk : k < c.rest.length) (s : State) :
    fetched c (k + 1) s = fetchByte c.rest[k] (fetched c k s) := by
  rw [fetched, List.take_succ_eq_append_getElem hk, fetchBytes, List.foldl_append]
  rfl

/-- While every byte is wanted, `nb` counts them and they stand above the bits pending before. -/
theorem Fetches.bits {x : ElemCtx} {c : Call} {s : State} {k : Nat} (h : Fetches x c s k)
    (hx : CtxFits x) (ho : x.offset ≤ 20) (hb : BitsOk s) :
    ∀ j, j ≤ k → (fetched c j s).nb.toNat = s.nb.toNat + 8 * j ∧ BitsOk (fetched c j s) := by
  intro j hj
  induction j with
  | zero => exact ⟨rfl, hb⟩
  | succ j ih =>
    obtain ⟨hnb, hbits⟩ := ih (Nat.le_of_succ_le hj)
    have hlt := needMore_lt hx ho (h.wanted j hj)
    have hle : (fetched c j s).nb.toNat ≤ 55 := hbits.1
    rw [fetched_succ (Nat.lt_of_lt_of_le hj h.there)]
    have hnb' := fetchByte_nb_toNat (c.rest[j]'(Nat.lt_of_lt_of_le hj h.there)) hle
    exact ⟨by omega, by rw [hnb']; omega, fetchByte_acc_lt _ hle hbits.2⟩

/-- A FETCH leaves the bits pending before it where they are. -/
theorem fetched_succ_acc_mod {x : ElemCtx} {c : Call} {s : State} {k : Nat} (h : Fetches x c s k)
    (hx : CtxFits x) (ho : x.offset ≤ 20) (hb : BitsOk s) {j n : Nat} (hj : j < k)
    (hn : n ≤ (fetched c j s).nb.toNat) :
    (fetched c (j + 1) s).acc.toNat % 2 ^ n = (fetched c j s).acc.toNat % 2 ^ n := by
  obtain ⟨-, hbits⟩ := h.bits hx ho hb j (Nat.le_of_lt hj)
  rw [fetched_succ (Nat.lt_of_lt_of_le hj h.there), fetchByte_acc_toNat _ hbits.1 hbits.2]
  obtain ⟨d, hd⟩ := Nat.exists_eq_add_of_le hn
  rw [hd, Nat.pow_add, Nat.mul_left_comm, Nat.add_mul_mod_self_left]

theorem fetched_acc_mod {x : ElemCtx} {c : Call} {s : State} {k : Nat} (h : Fetches x c s k)
    (hx : CtxFits x) (ho : x.offset ≤ 20) (hb : BitsOk s) {n : Nat} (hn : n ≤ s.nb.toNat) :
    ∀ j, j ≤ k → (fetched c j s).acc.toNat % 2 ^ n = s.acc.toNat % 2 ^ n := by
  intro j hj
  induction j with
  | zero => rfl
  | succ j ih =>
    have hnb := (h.bits hx ho hb j (Nat.le_of_succ_le hj)).1
    rw [fetched_succ_acc_mod h hx ho hb hj (by omega), ih (Nat.le_of_succ_le hj)]

/-- The last byte FETCHed is one the element needs. -/
theorem Fetches.last_needed {x : ElemCtx} {c : Call} {s : State} {k n : Nat} {i : Instr}
    (h : Fetches x c s k) (hx : CtxFits x) (ho : x.offset ≤ 20) (hb : BitsOk s) (hk : 0 < k)
    (hr : Reads x (fetched c k s).acc.toNat i n) : (fetched c k s).nb.toNat < n + 8 := by
  obtain ⟨j, rfl⟩ := Nat.exists_eq_add_of_lt hk
  rw [Nat.zero_add] at h hr ⊢
  have hj := (h.bits hx ho hb j (Nat.le_succ j)).1
  have hk := (h.bits hx ho hb (j + 1) (Nat.le_refl _)).1
  by_contra hge
  have hle : n ≤ (fetched c j s).nb.toNat := by omega
  have hgot := hr _ (fetched c j s).nb.toNat
    (fetched_succ_acc_mod h hx ho hb (Nat.lt_succ_self j) hle).symm
  rw [if_pos hle, h.wanted j (Nat.lt_succ_self j)] at hgot
  cases hgot

/-! ### The cursors after a move (R51, R52, R101) -/

theorem fetchBytes_nb_le (bytes : List Byte) (s : State) :
    (fetchBytes bytes s).nb.toNat ≤ s.nb.toNat + 8 * bytes.length := by
  induction bytes generalizing s with
  | nil => exact Nat.le_refl _
  | cons b bytes ih =>
    have h1 := ih (fetchByte b s)
    have h2 : (fetchByte b s).nb.toNat ≤ s.nb.toNat + 8 := by
      rw [fetchByte_nb]
      bv_omega
    rw [fetchBytes_cons, List.length_cons]
    omega

theorem fetched_nb_le (c : Call) (k : Nat) (s : State) :
    (fetched c k s).nb.toNat ≤ s.nb.toNat + 8 * k := by
  have h := fetchBytes_nb_le (c.rest.take k) s
  have hk := List.length_take_le k c.rest
  rw [fetched]
  omega

theorem taken_nb {n : Nat} {s : State} (h : n ≤ s.nb.toNat) :
    (taken n s).nb.toNat = s.nb.toNat - n :=
  nb_sub_toNat h

theorem endBlock_nb_le (s : State) : (endBlock s).nb.toNat ≤ s.nb.toNat := by
  rcases endBlock_eq s with ⟨h, -⟩ | ⟨h, -⟩ | ⟨h, -⟩ <;> rw [h]
  exact Nat.zero_le _

/-- A commit gives no bits back. -/
theorem Commit.nb_le {c : Call} {s t : State} {i : Instr} {n : Nat} {f : Effect}
    (h : Commit c s i n f t) (hn : n ≤ s.nb.toNat) : t.nb.toNat ≤ s.nb.toNat := by
  have htaken : (taken n s).nb.toNat ≤ s.nb.toNat := by
    rw [taken_nb hn]
    exact Nat.sub_le _ _
  cases h with
  | blkStored f => exact Nat.zero_le _
  | eob => exact (endBlock_nb_le _).trans htaken
  | length => exact Nat.le_refl _
  | _ => exact htaken

/-- The bytes a turn takes. -/
def Turn.bytes : Turn → Nat
  | .go k _ => k
  | .ret _ _ k => k

theorem lt_length_rest {c : Call} {b : Byte} (h : c.inp[c.ip]? = some b) : 1 ≤ c.rest.length := by
  have hlt := (List.getElem?_eq_some_iff.mp h).1
  rw [Call.rest, List.length_drop]
  omega

theorem Move.bytes_le {s t : State} {c : Call} {r : Turn} (h : Move s c r t) :
    r.bytes ≤ c.rest.length := by
  cases h with
  | commit hf => exact hf.there
  | refused hf => exact hf.there
  | bad hf => exact hf.there
  | noRoom hf => exact hf.there
  | noInput hf => exact hf.there
  | storedByte hp hrem hb => exact lt_length_rest hb
  | _ => exact Nat.zero_le _

/-- A move that goes on counts at most the bits it FETCHes. -/
theorem Move.nb_le {s t : State} {c : Call} {k : Nat} {f : Effect} (h : Move s c (.go k f) t) :
    t.nb.toNat ≤ s.nb.toNat + 8 * k := by
  cases h with
  | commit hf hi hn hc =>
    rw [Effect.on_nb]
    exact (hc.nb_le hn).trans (fetched_nb_le c k s)
  | storedEnd => rw [Effect.on_nb]; exact endBlock_nb_le s
  | storedByte => exact Nat.le_add_right _ _
  | copyEnd => exact Nat.le_add_right _ _
  | copyByte => exact Nat.le_add_right _ _

/-- The call after a turn. -/
def Turn.next : Turn → Call → Option Call
  | .go k .quiet, c => some (c.ahead k)
  | .go k (.pend q), c => some { c.ahead k with pend := q }
  | .go k (.byte b), c =>
    some { c.ahead k with out := c.out.set (c.off + c.prod) b, prod := c.prod + 1 }
  | .ret _ _ _, _ => none

theorem Move.call_eq {s t : State} {c : Call} {r : Turn} (h : Move s c r t) (hcall : s.call = some c) :
    t.call = r.next c := by
  rw [h.env_eq hcall]
  rcases r with ⟨k, _ | _ | _⟩ | _ <;> rfl

theorem length_rest (c : Call) : c.rest.length = c.inp.length - c.ip := List.length_drop

/-- Settles O52: what each turn does to the call, and the bits it takes and gives back. -/
theorem buffersAreReadAndWrittenInOrder : Obligations.BuffersAreReadAndWrittenInOrder := by
  intro s t c d hinv hcall hstep hd
  obtain ⟨r, hm⟩ := move_of_step hcall hstep
  obtain ⟨-, hip, hprod, -⟩ := hinv.call c hcall
  have hbytes := hm.bytes_le
  rw [length_rest] at hbytes
  rw [hm.call_eq hcall] at hd
  cases r with
  | ret cause status k => cases hd
  | go k f =>
    have hnb := hm.nb_le
    have hk : k ≤ c.inp.length - c.ip := hbytes
    have hip' : c.ip + k ≤ c.inp.length := by omega
    have hcur : 8 * c.ip + t.nb.toNat ≤ 8 * (c.ip + k) + s.nb.toNat := by omega
    cases f with
    | quiet =>
      cases hd
      exact ⟨rfl, rfl, rfl, Nat.le_add_right _ _, hip', rfl, hprod, .inl rfl, hcur, fun _ _ => rfl⟩
    | pend q =>
      cases hd
      exact ⟨rfl, rfl, rfl, Nat.le_add_right _ _, hip', rfl, hprod, .inl rfl, hcur, fun _ _ => rfl⟩
    | byte b =>
      have hroom : c.off + c.prod < c.out.length := hm.fits.2 b rfl
      cases hd
      refine ⟨rfl, rfl, rfl, Nat.le_add_right _ _, hip', List.length_set, ?_, .inr rfl, hcur,
        fun n hn => ?_⟩
      · rw [List.length_set]
        exact hroom
      · exact List.getElem?_set_ne (by have hn' : n < c.off + c.prod ∨ c.off + (c.prod + 1) ≤ n := hn; omega)

/-! ### The end of a call (R263, R264, R309) -/

theorem endCall_phase (status : BitVec 3) (c : Call) (s : State) :
    (endCall status c s).phase = if status = 0 then s.phase else .error := rfl

/-- A call returns after its FETCHes, with its counts. -/
theorem Move.eq_endCall {s t : State} {c : Call} {cause : Cause} {status : BitVec 3} {k : Nat}
    (h : Move s c (.ret cause status k) t) : t = endCall status (c.ahead k) (fetched c k s) := by
  cases h <;> rfl

/-- A call that returns has FETCHed only bytes that were wanted. -/
theorem Move.ret_nb {s t : State} {c : Call} {cause : Cause} {status : BitVec 3} {k : Nat}
    (h : Move s c (.ret cause status k) t) (hinv : Inv s) (hcall : s.call = some c) :
    (fetched c k s).nb.toNat = s.nb.toNat + 8 * k := by
  have hbits : ∀ {x : ElemCtx} {k : Nat}, Fetches x c s k →
      (fetched c k s).nb.toNat = s.nb.toNat + 8 * k := fun hf => by
    obtain ⟨hx, ho, -⟩ := ctx_of_expected hinv hcall hf.format
    exact (hf.bits hx ho hinv.bits _ (Nat.le_refl _)).1
  cases h with
  | refused hf => exact hbits hf
  | bad hf => exact hbits hf
  | noRoom hf => exact hbits hf
  | noInput hf => exact hbits hf
  | _ => rfl

/-- Settles O54: the registers at the end of a call are those after its FETCHes. -/
theorem callEndsWithItsCounts : Obligations.CallEndsWithItsCounts := by
  intro s t c hinv hcall hstep ht
  obtain ⟨r, hm⟩ := move_of_step hcall hstep
  cases r with
  | go k f =>
    rw [hm.call_eq hcall] at ht
    cases f <;> cases ht
  | ret cause status k =>
    have hnb := hm.ret_nb hinv hcall
    have hbytes : k ≤ c.rest.length := hm.bytes_le
    obtain ⟨herr, hip, hprod, -⟩ := hinv.call c hcall
    obtain rfl := hm.eq_endCall
    rw [length_rest] at hbytes
    have hframe := fetched_frame c k s
    have hk : fetched c k s = fetchBytes ((c.inp.drop c.ip).take (c.ip + k - c.ip)) s := by
      rw [Nat.add_sub_cancel_left]
      rfl
    refine ⟨status, c.ip + k, ?_, Nat.le_add_right _ _, by omega, by omega, ?_, ?_, ?_, ?_, ?_⟩
    · rw [hframe]
      rfl
    · rw [← hk]
      rfl
    · rw [← hk]
      rfl
    · change 8 * (c.ip + k) + s.nb.toNat = 8 * c.ip + (fetched c k s).nb.toNat
      omega
    · rw [hframe]
      rfl
    · rw [endCall_phase, fetched_phase]
      split
      · next h0 => exact ⟨fun h => absurd h0 h, fun h => absurd h herr⟩
      · next h0 => exact ⟨fun _ => rfl, fun _ => h0⟩

end Sys2Proof.Machine
end

section
/-! The invariant of the block is kept by every step (10_state.md, 20_memory.md, 60_exceptions.md),
and from a state that meets it no step faults. -/

namespace Sys2Proof.Machine

/-! ### What the invariant asks of each phase -/

theorem phaseOk_storedLen {s : State} (hp : s.phase = .storedLen) :
    PhaseOk s ↔ s.nb.toNat % 8 = 0 ∧ s.nb.toNat ≤ 24 := by
  rw [PhaseOk, hp]

theorem phaseOk_storedCopy {s : State} (hp : s.phase = .storedCopy) : PhaseOk s ↔ s.nb = 0 := by
  rw [PhaseOk, hp]

theorem phaseOk_dynClLens {s : State} (hp : s.phase = .dynClLens) :
    PhaseOk s ↔ CountsOk s ∧ 4 ≤ s.hclen.toNat ∧ s.hclen.toNat ≤ 19 ∧
      s.clIdx.toNat < s.hclen.toNat := by
  rw [PhaseOk, hp]

theorem phaseOk_dynLens {s : State} (hp : s.phase = .dynLens) :
    PhaseOk s ↔ CountsOk s ∧ s.dynIdx.toNat < s.hlit.toNat + s.hdist.toNat ∧
      clAccepted (lengthsOf s.clLen) = true := by
  rw [PhaseOk, hp]

theorem phaseOk_symbolLoop {s : State} (hp : s.phase = .symbolLoop) :
    PhaseOk s ↔ llAccepted (lengthsOf s.codeLL) = true ∧ distAccepted (lengthsOf s.codeD) = true := by
  rw [PhaseOk, hp]

theorem phaseOk_backReference {s : State} (hp : s.phase = .backReference) :
    PhaseOk s ↔ llAccepted (lengthsOf s.codeLL) = true ∧ distAccepted (lengthsOf s.codeD) = true ∧
      s.brLen.toNat ≤ 258 ∧ 1 ≤ s.brDist.toNat ∧ s.brDist.toNat ≤ s.hist.toNat := by
  rw [PhaseOk, hp]

theorem phaseOk_trailer {s : State} (hp : s.phase = .trailer) :
    PhaseOk s ↔ s.wrap = .zlib ∧ s.nb.toNat % 8 = 0 ∧ s.nb.toNat ≤ 24 := by
  rw [PhaseOk, hp]

theorem phaseOk_blockHeader {s : State} (hp : s.phase = .blockHeader) : PhaseOk s := by
  rw [PhaseOk, hp]
  trivial

theorem phaseOk_done {s : State} (hp : s.phase = .done) : PhaseOk s := by
  rw [PhaseOk, hp]
  trivial

theorem phaseOk_error {s : State} (hp : s.phase = .error) : PhaseOk s := by
  rw [PhaseOk, hp]
  trivial

/-- The end of a block leaves a legal state, whatever it was before. -/
theorem phaseOk_endBlock (s : State) : PhaseOk (endBlock s) := by
  rcases endBlock_eq s with ⟨h, -⟩ | ⟨h, -⟩ | ⟨h, -, hw⟩
  · exact phaseOk_blockHeader (by rw [h])
  · exact phaseOk_done (by rw [h])
  · rw [h]
    exact (phaseOk_trailer rfl).mpr ⟨hw, rfl, Nat.zero_le _⟩

/-! ### The bit reader and the window -/

theorem bitsOk_of_empty {s : State} (hnb : s.nb = 0) (hacc : s.acc = 0) : BitsOk s := by
  rw [BitsOk, hnb, hacc]
  decide

theorem bitsOk_taken {n : Nat} {s : State} (hn : n ≤ s.nb.toNat) (h : BitsOk s) :
    BitsOk (taken n s) := by
  have hnb := taken_nb hn
  have h55 := h.1
  refine ⟨by omega, ?_⟩
  rw [hnb]
  exact acc_shift_lt hn h.2

theorem bitsOk_endBlock {s : State} (h : BitsOk s) : BitsOk (endBlock s) := by
  rcases endBlock_eq s with ⟨he, -⟩ | ⟨he, -⟩ | ⟨he, -⟩ <;> rw [he]
  · exact h
  · exact h
  · exact bitsOk_of_empty rfl rfl

theorem Commit.bitsOk {c : Call} {s t : State} {i : Instr} {n : Nat} {f : Effect}
    (h : Commit c s i n f t) (hn : n ≤ s.nb.toNat) (hb : BitsOk s) : BitsOk t := by
  have htaken := bitsOk_taken hn hb
  cases h with
  | blkStored f => exact bitsOk_of_empty rfl rfl
  | eob => exact bitsOk_endBlock htaken
  | length => exact hb
  | _ => exact htaken

/-- The window after one more byte still holds each of the last `hist` bytes. -/
theorem windowOk_write {s t : State} (b : Byte) (h : WindowOk s)
    (hwin : t.win = Memory.write s.win s.wp.toNat b) (hwp : t.wp = s.wp + 1)
    (hhist : t.hist = bumpHist s.hist) : WindowOk t := by
  obtain ⟨hwf, haddr, hle, hread⟩ := h
  have hbump := bumpHist_toNat s.hist
  rw [Config.window] at hbump
  rw [WindowOk, hwin, hwp, hhist]
  refine ⟨Memory.wf_write _ b hwf, fun cell hcell => ?_, by rw [Config.window]; omega,
    fun d h1 h2 => ?_⟩
  · rcases Memory.mem_write hcell with rfl | hmem
    · exact s.wp.isLt
    · exact haddr cell hmem
  · rcases Nat.eq_or_lt_of_le h1 with rfl | hd
    · rw [read_window_write_one]
      rfl
    · obtain ⟨e, rfl⟩ := Nat.exists_eq_add_of_le' h1
      rw [read_window_write_succ _ _ b (by omega) (by omega)]
      exact hread e (by omega) (by omega)

/-! ### A step that stays in its call -/

/-- The phase is legal after an effect on the call: the history only grows. -/
theorem PhaseOk.on {u : State} (h : PhaseOk u) (hh : u.hist.toNat ≤ Config.window) (f : Effect)
    (c : Call) : PhaseOk (f.on c u) := by
  cases f with
  | quiet => exact h
  | pend q => exact h
  | byte b =>
    cases hp : u.phase
    case backReference =>
      obtain ⟨hll, hd, hlen, h1, h2⟩ := (phaseOk_backReference hp).mp h
      refine (phaseOk_backReference (s := (Effect.byte b).on c u) hp).mpr ⟨hll, hd, hlen, h1, ?_⟩
      change _ ≤ (bumpHist u.hist).toNat
      rw [bumpHist_toNat]
      change u.brDist.toNat ≤ u.hist.toNat at h2
      change u.brDist.toNat ≤ _
      omega
    all_goals
      rw [PhaseOk, hp] at h
      rw [PhaseOk, Effect.on_phase, hp]
      exact h

/-- The element in progress after an effect. -/
def Effect.pending : Effect → Call → Option PendingLength
  | .pend q, _ => q
  | _, c => c.pend

/-- The element in progress is legal in `s` (R101, R193). -/
def PendOk (s : State) (p : PendingLength) : Prop :=
  s.phase = .symbolLoop ∧ 3 ≤ p.length.toNat ∧ p.length.toNat ≤ 258 ∧ 1 ≤ p.used ∧ p.used ≤ 20 ∧
    p.used ≤ s.nb.toNat

/-- The registers before an effect that leaves the invariant. -/
structure Settles (s u : State) (c : Call) (f : Effect) : Prop where
  bits : BitsOk u
  phase : PhaseOk u
  live : u.phase ≠ .error
  err : u.err = s.err
  win : u.win = s.win
  wp : u.wp = s.wp
  hist : u.hist = s.hist
  pend : ∀ p, f.pending c = some p → PendOk u p

theorem WindowOk.on {s u : State} {c d : Call} {f : Effect} (h : WindowOk s) (hs : Settles s u c f) :
    WindowOk (f.on d u) := by
  have hu : WindowOk u := by
    rw [WindowOk, hs.win, hs.wp, hs.hist]
    exact h
  cases f with
  | quiet => exact hu
  | pend q => exact hu
  | byte b => exact windowOk_write b hu rfl rfl rfl

theorem CallOk.on {s u : State} {c : Call} {k : Nat} {f : Effect} (hs : Settles s u c f)
    (hip : c.ip + k ≤ c.inp.length) (hprod : c.off + c.prod ≤ c.out.length)
    (hroom : ∀ b, f = .byte b → c.off + c.prod < c.out.length) : CallOk (f.on (c.ahead k) u) := by
  intro d hd
  refine ⟨by rw [Effect.on_phase]; exact hs.live, ?_⟩
  cases f with
  | quiet => cases hd; exact ⟨hip, hprod, hs.pend⟩
  | pend q => cases hd; exact ⟨hip, hprod, hs.pend⟩
  | byte b =>
    cases hd
    refine ⟨hip, ?_, hs.pend⟩
    have hlt := hroom b rfl
    change c.off + (c.prod + 1) ≤ (c.out.set _ b).length
    rw [List.length_set]
    exact hlt

theorem Inv.on {s u : State} {c : Call} {k : Nat} {f : Effect} (h : Inv s) (hcall : s.call = some c)
    (hs : Settles s u c f) (hk : k ≤ c.rest.length)
    (hroom : ∀ b, f = .byte b → c.off + c.prod < c.out.length) : Inv (f.on (c.ahead k) u) := by
  obtain ⟨hlive, hip, hprod, -⟩ := h.call c hcall
  rw [length_rest] at hk
  have hhist : u.hist.toNat ≤ Config.window := hs.hist ▸ h.window.2.2.1
  have hbits : BitsOk (f.on (c.ahead k) u) := by cases f <;> exact hs.bits
  have herr : (f.on (c.ahead k) u).err = s.err := by cases f <;> exact hs.err
  refine ⟨hbits, h.window.on hs, CallOk.on hs (by omega) hprod hroom, ?_, hs.phase.on hhist f _⟩
  rw [ErrOk, herr, Effect.on_phase]
  exact ⟨fun he => absurd (h.err.mp he) hlive, fun hp => absurd hp hs.live⟩

/-! ### What a commit leaves -/

theorem lenBase_bounds {sym e : Nat} (h1 : 257 ≤ sym) (h2 : sym ≤ 285) (he : e < 2 ^ lenExtra sym) :
    3 ≤ lenBase sym + e ∧ lenBase sym + e ≤ 258 := by
  have h : ∀ t < 29, 3 ≤ lenBase (257 + t) ∧ lenBase (257 + t) + 2 ^ lenExtra (257 + t) ≤ 259 := by
    decide
  obtain ⟨t, rfl⟩ := Nat.exists_eq_add_of_le h1
  obtain ⟨h3, h4⟩ := h t (by omega)
  omega

theorem one_le_distBase {t : Nat} (h : t ≤ 29) : 1 ≤ distBase t := by
  have hall : ∀ t < 30, 1 ≤ distBase t := by decide
  exact hall t (Nat.lt_succ_of_le h)

theorem distSym_eq_none_of_litLenSym {i : Instr} {p : Nat × Nat} (h : litLenSym i = some p) :
    distSym i = none := by
  cases i
  all_goals first | rfl | cases h

theorem distSym_eq_none_of_runOf {s : State} {i : Instr} {p : Nat × BitVec 4 × Nat}
    (h : runOf s i = some p) : distSym i = none := by
  unfold runOf at h
  split at h <;> first | rfl | cases h

/-- Only a distance symbol is committed after a length symbol. -/
theorem Commit.pending_of_dist {c : Call} {s t : State} {i : Instr} {n : Nat} {f : Effect}
    (h : Commit c s i n f t) {p : Nat × Nat} (hi : distSym i = some p) : f = .pend none := by
  cases h with
  | distance => rfl
  | length hsym => rw [distSym_eq_none_of_litLenSym hsym] at hi; cases hi
  | runInside hrun => rw [distSym_eq_none_of_runOf hrun] at hi; cases hi
  | runEnd hrun => rw [distSym_eq_none_of_runOf hrun] at hi; cases hi
  | _ => cases hi

/-- In the phases that read an element: with a length symbol in progress it is a distance symbol. -/
theorem distSym_of_pending {s : State} {c : Call} {x : ElemCtx} {p : PendingLength} {v k : Nat}
    {i : Instr} (hcall : CallOk s) (hc : s.call = some c) (hpend : c.pend = some p)
    (hx : expected c s = some x) (hi : decodeElem x v k = .got i) : ∃ q, distSym i = some q := by
  have hp := ((hcall c hc).2.2.2 p hpend).1
  rw [expected, hp, hpend] at hx
  obtain rfl := Option.some.inj hx
  obtain ⟨t, e, hinstr, he, -⟩ := decodeElem_dist hi
  exact ⟨_, distSym_of_distInstr hinstr he⟩

theorem afterBlock_ne_error (final : Bool) (wrap : Wrap) : afterBlock final wrap ≠ .error := by
  cases final <;> cases wrap <;> decide

theorem Commit.live {c : Call} {s t : State} {i : Instr} {n : Nat} {f : Effect}
    (h : Commit c s i n f t) (hs : s.phase ≠ .error) : t.phase ≠ .error := by
  cases h with
  | cllMore => exact hs
  | runInside => exact hs
  | lit => exact hs
  | length => exact hs
  | eob => rw [endBlock_phase]; exact afterBlock_ne_error _ _
  | _ => exact fun h => nomatch h

theorem Commit.frame {c : Call} {s t : State} {i : Instr} {n : Nat} {f : Effect}
    (h : Commit c s i n f t) : t.err = s.err ∧ t.win = s.win ∧ t.wp = s.wp ∧ t.hist = s.hist := by
  cases h with
  | eob => exact ⟨endBlock_err _, endBlock_win _, endBlock_wp _, endBlock_hist _⟩
  | _ => exact ⟨rfl, rfl, rfl, rfl⟩

end Sys2Proof.Machine
end

section
/-! Every step keeps the invariant, and from a state that meets it every step gives a next state
(O48, O49). -/

namespace Sys2Proof.Machine

/-! ### The phase registers after a commit -/

/-- A run that is tried ends at the total or before it. -/
theorem run_le_total {s : State} {i : Instr} {r n : Nat} {val : BitVec 4}
    (hrun : runOf s i = some (r, val, n)) (hstart : RunStarts s r i)
    (h : s.dynIdx.toNat < lengthTotal s) : s.dynIdx.toNat + r ≤ lengthTotal s := by
  cases i
  case clsymLen sym => cases hrun; exact h
  case clsym16 e => exact hstart.2
  case clsym17 e => exact hstart
  case clsym18 e => exact hstart
  all_goals cases hrun

theorem lengthTotal_le {s : State} (h : CountsOk s) : lengthTotal s ≤ 316 := by
  obtain ⟨-, h1, -, h2⟩ := h
  rw [lengthTotal]
  omega

theorem dynIdx_toNat {a b : Nat} (h : a ≤ b) (hb : b ≤ 316) : (BitVec.ofNat 9 a).toNat = a := by
  rw [BitVec.toNat_ofNat]
  exact Nat.mod_eq_of_lt (by omega)

theorem accepted_of_endChecksOk {lens : Vector (BitVec 4) 316} {s : State}
    (h : endChecksOk lens s = true) :
    llAccepted (lengthsOf (newCodeLL lens s)) = true ∧
      distAccepted (lengthsOf (newCodeD lens s)) = true :=
  Bool.and_eq_true_iff.mp h

theorem phaseOk_dhdr {s : State} {hl hd : BitVec 5} (hc : BitVec 4) (h1 : hl.toNat + 257 ≤ 286)
    (h2 : hd.toNat + 1 ≤ 30) (hp : s.phase = .dynClLens)
    (hhl : s.hlit = BitVec.ofNat 9 (hl.toNat + 257)) (hhd : s.hdist = BitVec.ofNat 5 (hd.toNat + 1))
    (hhc : s.hclen = BitVec.ofNat 5 (hc.toNat + 4)) (hidx : s.clIdx = 0) : PhaseOk s := by
  have hlt := hc.isLt
  have e1 : s.hlit.toNat = hl.toNat + 257 := by
    rw [hhl, BitVec.toNat_ofNat]; omega
  have e2 : s.hdist.toNat = hd.toNat + 1 := by
    rw [hhd, BitVec.toNat_ofNat]; omega
  have e3 : s.hclen.toNat = hc.toNat + 4 := by
    rw [hhc, BitVec.toNat_ofNat]; omega
  have e4 : s.clIdx.toNat = 0 := by rw [hidx]; rfl
  exact (phaseOk_dynClLens hp).mpr ⟨⟨by omega, by omega, by omega, by omega⟩, by omega, by omega,
    by omega⟩

theorem accepted_fixed :
    llAccepted (lengthsOf fixedLL) = true ∧ distAccepted (lengthsOf fixedD) = true := by
  decide +kernel

/-- The registers after a commit are as the next phase needs them; `a`, `m` and `q` are what FETCHes
change. -/
theorem Commit.phaseOk {c : Call} {s t : State} {a : BitVec 64} {m : BitVec 6} {q : Option Call}
    {i : Instr} {n : Nat} {f : Effect}
    (h : Commit c { s with acc := a, nb := m, call := q } i n f t) (hok : PhaseOk s)
    (hp : s.phase = readIn i) (hlen : s.phase = .storedLen → m = 32)
    (hhist : s.hist.toNat ≤ 32768) (hpend : ∀ p, c.pend = some p → p.length.toNat ≤ 258) :
    PhaseOk t := by
  cases h with
  | zhdr h => exact phaseOk_blockHeader rfl
  | blkStored f => exact (phaseOk_storedLen rfl).mpr ⟨rfl, Nat.zero_le _⟩
  | blkFixed f => exact (phaseOk_symbolLoop rfl).mpr accepted_fixed
  | blkDynamic f => trivial
  | slen h =>
    rw [hlen hp]
    refine (phaseOk_storedCopy rfl).mpr ?_
    change (32 : BitVec 6) - BitVec.ofNat 6 32 = 0
    decide
  | dhdr hc h1 h2 => exact phaseOk_dhdr hc h1 h2 rfl rfl rfl rfl rfl
  | cllMore v hmore =>
    obtain ⟨hcounts, h4, h19, hidx⟩ := (phaseOk_dynClLens hp).mp hok
    refine (phaseOk_dynClLens ?_).mpr ⟨hcounts, h4, h19, ?_⟩
    · exact hp
    have hmore' : s.clIdx.toNat + 1 ≠ s.hclen.toNat := hmore
    have hadd : (s.clIdx + 1).toNat = s.clIdx.toNat + 1 := by bv_omega
    change (s.clIdx + 1).toNat < s.hclen.toNat
    omega
  | cllLast h hacc =>
    obtain ⟨hcounts, -⟩ := (phaseOk_dynClLens hp).mp hok
    refine (phaseOk_dynLens rfl).mpr ⟨hcounts, ?_, hacc⟩
    exact Nat.lt_of_lt_of_le (Nat.lt_of_lt_of_le (Nat.succ_pos 256) hcounts.1)
      (Nat.le_add_right _ _)
  | runInside hrun hstart hinside =>
    obtain ⟨hcounts, hidx, hacc⟩ := (phaseOk_dynLens (hp.trans (readIn_of_runOf hrun))).mp hok
    have hle := run_le_total hrun hstart hidx
    have htot := lengthTotal_le hcounts
    refine (phaseOk_dynLens ?_).mpr ⟨hcounts, ?_, hacc⟩
    · exact hp.trans (readIn_of_runOf hrun)
    change (BitVec.ofNat 9 _).toNat < lengthTotal s
    rw [dynIdx_toNat hle htot]
    exact Nat.lt_of_le_of_ne hle hinside
  | runEnd hrun hstart h hok => exact (phaseOk_symbolLoop rfl).mpr (accepted_of_endChecksOk hok)
  | lit b hroom =>
    refine (phaseOk_symbolLoop ?_).mpr ((phaseOk_symbolLoop hp).mp hok)
    exact hp
  | eob => exact phaseOk_endBlock _
  | length hsym h1 h2 h3 =>
    have hp' := hp.trans (readIn_of_litLenInstr (litLenInstr_of_litLenSym hsym).1)
    refine (phaseOk_symbolLoop ?_).mpr ((phaseOk_symbolLoop hp').mp hok)
    exact hp'
  | @distance i p sym e hp' hsym h1 h2 =>
    obtain ⟨hll, hd⟩ := (phaseOk_symbolLoop (hp.trans (readIn_of_distSym hsym))).mp hok
    have h2' : distBase sym + e ≤ s.hist.toNat := h2
    have hpos := one_le_distBase h1
    have hdist : (BitVec.ofNat 16 (distBase sym + e)).toNat = distBase sym + e := by
      rw [BitVec.toNat_ofNat]
      omega
    refine (phaseOk_backReference rfl).mpr ⟨hll, hd, hpend p hp', ?_, ?_⟩
    · change 1 ≤ (BitVec.ofNat 16 _).toNat
      omega
    · change (BitVec.ofNat 16 _).toNat ≤ s.hist.toNat
      omega
  | trailer h => exact phaseOk_done rfl

/-! ### The element in progress after a commit -/

/-- A length symbol that is read is one to three bytes that are pending, for a legal length. -/
theorem pendOk_length {s u : State} {i : Instr} {sym e v k : Nat}
    (hi : decodeElem (.ll (lengthsOf s.codeLL)) v k = .got i) (hsym : litLenSym i = some (sym, e))
    (h1 : 257 ≤ sym) (h2 : sym ≤ 285) (hu : u.phase = .symbolLoop) (hk : k = u.nb.toNat) :
    PendOk u ⟨BitVec.ofNat 9 (lenBase sym + e), llWidth s sym + lenExtra sym⟩ := by
  obtain ⟨sym', e', hinstr, he, hne, hbits⟩ := decodeElem_ll hi
  obtain ⟨rfl, rfl⟩ := Prod.mk.inj
    (Option.some.inj ((litLenSym_of_litLenInstr hinstr he).symm.trans hsym))
  obtain ⟨h3, h258⟩ := lenBase_bounds h1 h2 he
  have hlen : (BitVec.ofNat 9 (lenBase sym' + e')).toNat = lenBase sym' + e' := by
    rw [BitVec.toNat_ofNat]
    omega
  have hwidth : (lengthsOf s.codeLL).getD sym' 0 ≤ Config.maxLen :=
    getD_le (lengthsOf_le (by decide) s.codeLL) sym'
  have hextra := lenExtra_le sym'
  rw [Config.maxLen] at hwidth
  subst hk
  refine ⟨hu, by rw [hlen]; exact h3, by rw [hlen]; exact h258, ?_, ?_, hbits⟩
  · change 1 ≤ (lengthsOf s.codeLL).getD sym' 0 + _
    omega
  · change (lengthsOf s.codeLL).getD sym' 0 + _ ≤ 20
    omega

/-- A commit that leaves a length symbol in progress is that of a length symbol. -/
theorem Commit.eq_length {c : Call} {s t : State} {i : Instr} {n : Nat} {p : PendingLength}
    (h : Commit c s i n (.pend (some p)) t) : ∃ sym e, litLenSym i = some (sym, e) ∧ 257 ≤ sym ∧
      sym ≤ 285 ∧ ¬(sym = 284 ∧ e = 31) ∧ n = 0 ∧ t = s ∧
      p = ⟨BitVec.ofNat 9 (lenBase sym + e), llWidth s sym + lenExtra sym⟩ := by
  cases h with
  | length hsym h1 h2 h3 => exact ⟨_, _, hsym, h1, h2, h3, rfl, rfl, rfl⟩

/-- Any commit but that of a distance symbol finds no length symbol in progress. -/
theorem Commit.pend_eq_none {s s' t : State} {c c' : Call} {x : ElemCtx} {v k n : Nat} {i : Instr}
    {f : Effect} (h : Commit c' s' i n f t) (hok : CallOk s) (hcall : s.call = some c)
    (hx : expected c s = some x) (hi : decodeElem x v k = .got i) (hne : f ≠ .pend none) :
    c.pend = none := by
  cases hpend : c.pend with
  | none => rfl
  | some p =>
    obtain ⟨q, hq⟩ := distSym_of_pending hok hcall hpend hx hi
    exact absurd (h.pending_of_dist hq) hne

/-! ### Moves that go on -/

section

variable {s t : State} {c : Call} (hinv : Inv s) (hcall : s.call = some c)

include hinv hcall

/-- With a length symbol in progress the phase is SYMBOL_LOOP. -/
theorem pend_eq_none (hp : s.phase ≠ .symbolLoop) : c.pend = none := by
  cases hpend : c.pend with
  | none => rfl
  | some p => exact absurd ((hinv.call c hcall).2.2.2 p hpend).1 hp

/-- LEN and NLEN start at a byte, so the element that is read is all the pending bits. -/
theorem Fetches.storedLen_nb {x : ElemCtx} {k : Nat} {i : Instr} (hf : Fetches x c s k)
    (hi : decodeElem x (fetched c k s).acc.toNat (fetched c k s).nb.toNat = .got i)
    (hp : s.phase = .storedLen) : (fetched c k s).nb = 32 := by
  obtain ⟨hx, ho, -⟩ := ctx_of_expected hinv hcall hf.format
  obtain ⟨h8, h24⟩ := (phaseOk_storedLen hp).mp hinv.phase
  have hnb := hf.bits hx ho hinv.bits
  obtain rfl : x = .sl := by
    have hformat := hf.format
    rw [expected, hp] at hformat
    exact (Option.some.inj hformat).symm
  rw [decodeElem_sl_eq] at hi
  have h32 := (got_of_ite hi).1
  have hk := (hnb k (Nat.le_refl k)).1
  have h40 : (fetched c k s).nb.toNat < 40 := by
    cases k with
    | zero => rw [fetched_zero]; omega
    | succ j =>
      have hj := (hnb j (Nat.le_succ j)).1
      have hw := hf.wanted j (Nat.lt_succ_self j)
      rw [decodeElem_sl_eq] at hw
      by_cases hle : 32 ≤ (fetched c j s).nb.toNat
      · rw [if_pos hle] at hw
        cases hw
      · omega
  refine BitVec.eq_of_toNat_eq ?_
  change _ = 32
  omega

theorem settles_commit {x : ElemCtx} {k n : Nat} {i : Instr} {f : Effect} (hf : Fetches x c s k)
    (hi : decodeElem x (fetched c k s).acc.toNat (fetched c k s).nb.toNat = .got i)
    (hn : n ≤ (fetched c k s).nb.toNat) (hc : Commit (c.ahead k) (fetched c k s) i n f t) :
    Settles s t c f := by
  obtain ⟨hx, ho, -⟩ := ctx_of_expected hinv hcall hf.format
  obtain ⟨hlive, -, -, hpend⟩ := hinv.call c hcall
  have hbits := (hf.bits hx ho hinv.bits k (Nat.le_refl k)).2
  have hp := phase_of_decodeElem hf.format hi
  obtain ⟨herr, hwin, hwp, hhist⟩ := hc.frame
  have hframe := fetched_frame c k s
  have hphase : PhaseOk t := by
    have hc' := hc
    rw [hframe] at hc'
    exact hc'.phaseOk hinv.phase hp (hf.storedLen_nb hinv hcall hi) hinv.window.2.2.1
      fun p h => (hpend p h).2.2.1
  refine ⟨hc.bitsOk hn hbits, hphase, hc.live (by rw [fetched_phase]; exact hlive),
    by rw [herr, hframe], by rw [hwin, hframe], by rw [hwp, hframe], by rw [hhist, hframe],
    fun p hpp => ?_⟩
  have hnone := hc.pend_eq_none hinv.call hcall hf.format hi
  cases f with
  | quiet => exact absurd (hpp.symm.trans (hnone fun h => nomatch h)) (Option.some_ne_none p)
  | byte b => exact absurd (hpp.symm.trans (hnone fun h => nomatch h)) (Option.some_ne_none p)
  | pend q =>
    obtain rfl : q = some p := hpp
    obtain ⟨sym, e, hsym, h1, h2, -, -, rfl, rfl⟩ := hc.eq_length
    have hp' : s.phase = .symbolLoop :=
      hp.trans (readIn_of_litLenInstr (litLenInstr_of_litLenSym hsym).1)
    have hx : x = .ll (lengthsOf (fetched c k s).codeLL) := by
      have hformat := hf.format
      rw [expected, hp', hnone (fun h => nomatch h)] at hformat
      rw [hframe]
      exact (Option.some.inj hformat).symm
    rw [hx] at hi
    exact pendOk_length hi hsym h1 h2 (by rw [fetched_phase]; exact hp') rfl

/-- A move that goes on leaves registers that the invariant admits. -/
theorem Move.settles {k : Nat} {f : Effect} (h : Move s c (.go k f) t) :
    ∃ u, t = f.on (c.ahead k) u ∧ Settles s u c f := by
  have hnone : s.phase ≠ .symbolLoop → ∀ {p : PendingLength} {P : Prop}, c.pend = some p → P :=
    fun hne p P hp => by rw [pend_eq_none hinv hcall hne] at hp; cases hp
  cases h with
  | commit hf hi hn hc => exact ⟨_, rfl, settles_commit hinv hcall hf hi hn hc⟩
  | storedEnd hp hrem =>
    exact ⟨_, rfl, bitsOk_endBlock hinv.bits, phaseOk_endBlock s,
      by rw [endBlock_phase]; exact afterBlock_ne_error _ _, endBlock_err s, endBlock_win s,
      endBlock_wp s, endBlock_hist s, fun p h => hnone (by rw [hp]; decide) h⟩
  | storedByte hp hrem hb hroom =>
    refine ⟨_, rfl, hinv.bits, ?_, by rw [hp]; decide, rfl, rfl, rfl, rfl,
      fun p h => hnone (by rw [hp]; decide) h⟩
    refine (phaseOk_storedCopy ?_).mpr ((phaseOk_storedCopy hp).mp hinv.phase)
    exact hp
  | copyEnd hp hlen =>
    obtain ⟨hll, hd, -⟩ := (phaseOk_backReference hp).mp hinv.phase
    exact ⟨_, rfl, hinv.bits, (phaseOk_symbolLoop rfl).mpr ⟨hll, hd⟩, (nomatch ·), rfl, rfl,
      rfl, rfl, fun p h => hnone (by rw [hp]; decide) h⟩
  | copyByte hp hlen hroom hread =>
    obtain ⟨hll, hd, h258, h1, h2⟩ := (phaseOk_backReference hp).mp hinv.phase
    refine ⟨_, rfl, hinv.bits, ?_, by rw [hp]; decide, rfl, rfl, rfl, rfl,
      fun p h => hnone (by rw [hp]; decide) h⟩
    refine (phaseOk_backReference ?_).mpr ⟨hll, hd, ?_, h1, h2⟩
    · exact hp
    · change (s.brLen - 1).toNat ≤ 258
      have hne : s.brLen.toNat ≠ 0 := fun h => hlen (BitVec.eq_of_toNat_eq h)
      bv_omega

/-! ### Moves that end the call -/

/-- The bits FETCHed for a want leave the phase legal. -/
theorem phaseOk_fetched {x : ElemCtx} {k : Nat} (hf : Fetches x c s k)
    (hneed : x = .sl ∨ x = .tr → (fetched c k s).nb.toNat < 32) : PhaseOk (fetched c k s) := by
  obtain ⟨hx, ho, -⟩ := ctx_of_expected hinv hcall hf.format
  have hnb := (hf.bits hx ho hinv.bits k (Nat.le_refl k)).1
  have hp := expected_formatPhase hf.format
  have hok := hinv.phase
  rw [← fetched_phase c k s] at hp
  have hregs : x ≠ .sl → x ≠ .tr → x ≠ .sd → PhaseOk (fetched c k s) := fun h1 h2 h3 => by
    rw [fetched_frame c k s, PhaseOk]
    rw [PhaseOk] at hok
    rw [expected_formatPhase hf.format] at hok ⊢
    cases x
    case sl => exact absurd rfl h1
    case tr => exact absurd rfl h2
    case sd => exact absurd rfl h3
    all_goals exact hok
  by_cases hsl : x = .sl
  · have h32 := hneed (.inl hsl)
    subst hsl
    obtain ⟨h8, -⟩ := (phaseOk_storedLen ((fetched_phase c k s).symm.trans hp)).mp hok
    exact (phaseOk_storedLen hp).mpr ⟨by omega, by omega⟩
  by_cases htr : x = .tr
  · have h32 := hneed (.inr htr)
    subst htr
    obtain ⟨hw, h8, -⟩ := (phaseOk_trailer ((fetched_phase c k s).symm.trans hp)).mp hok
    refine (phaseOk_trailer hp).mpr ⟨?_, by omega, by omega⟩
    rw [fetched_frame]
    exact hw
  · exact hregs hsl htr (expected_ne_sd hf.format)

/-- The state after a call meets the invariant when its registers do. -/
theorem inv_endCall {u : State} {d : Call} (status : BitVec 3) (hbits : BitsOk u)
    (hphase : status = 0 → PhaseOk u) (hframe : u.phase = s.phase ∧ u.err = s.err ∧ u.win = s.win ∧
      u.wp = s.wp ∧ u.hist = s.hist) : Inv (endCall status d u) := by
  obtain ⟨hp, he, hwin, hwp, hhist⟩ := hframe
  have hlive := (hinv.call c hcall).1
  refine ⟨hbits, ?_, fun d hd => (nomatch hd), ?_, ?_⟩
  · have hw := hinv.window
    rw [WindowOk, ← hwin, ← hwp, ← hhist] at hw
    exact hw
  · rw [ErrOk, endCall_phase]
    change (if status = 0 then u.err else status) ≠ 0 ↔ _
    split
    · rw [he, hp]
      exact hinv.err
    · next h0 => exact ⟨fun _ => rfl, fun _ => h0⟩
  · by_cases h0 : status = 0
    · subst h0
      exact hphase rfl
    · exact phaseOk_error (by rw [endCall_phase, if_neg h0])

theorem inv_endCall_fetched {x : ElemCtx} {k : Nat} (hf : Fetches x c s k) (status : BitVec 3)
    (hphase : status = 0 → PhaseOk (fetched c k s)) :
    Inv (endCall status (c.ahead k) (fetched c k s)) := by
  obtain ⟨hx, ho, -⟩ := ctx_of_expected hinv hcall hf.format
  refine inv_endCall hinv hcall status (hf.bits hx ho hinv.bits k (Nat.le_refl k)).2 hphase ?_
  rw [fetched_frame]
  exact ⟨rfl, rfl, rfl, rfl, rfl⟩

/-- A step inside a call keeps the invariant. -/
theorem Move.inv {r : Turn} (h : Move s c r t) : Inv t := by
  have hsame : ∀ (status : BitVec 3) (d : Call), Inv (endCall status d s) := fun status d =>
    inv_endCall hinv hcall status hinv.bits (fun _ => hinv.phase) ⟨rfl, rfl, rfl, rfl, rfl⟩
  cases r with
  | go k f =>
    obtain ⟨u, rfl, hs⟩ := h.settles hinv hcall
    exact hinv.on hcall hs h.bytes_le h.fits.2
  | ret cause status k =>
    cases h with
    | @refused x k i e hf hi hr =>
      exact inv_endCall_fetched hinv hcall hf _ fun h0 => absurd h0 (code_ne_zero e)
    | @bad x k e hf he =>
      exact inv_endCall_fetched hinv hcall hf _ fun h0 => absurd h0 (code_ne_zero e)
    | noRoom hf hi hroom =>
      refine inv_endCall_fetched hinv hcall hf _ fun _ => phaseOk_fetched hinv hcall hf ?_
      have hx := readIn_of_decodeElem hi
      rintro (rfl | rfl) <;> cases hx
    | noInput hf hn =>
      refine inv_endCall_fetched hinv hcall hf _ fun _ => phaseOk_fetched hinv hcall hf ?_
      rintro (rfl | rfl)
      · rw [decodeElem_sl_eq] at hn
        by_contra hge
        rw [if_pos (Nat.le_of_not_lt hge)] at hn
        cases hn
      · rw [decodeElem_tr_eq] at hn
        by_contra hge
        rw [if_pos (Nat.le_of_not_lt hge)] at hn
        cases hn
    | _ => exact hsame _ _

end

/-! ### The port -/

theorem inv_start {s u : State} {inp out : List Byte} {off : Nat} (eoi : Bool) (h : Inv s)
    (he : s.phase ≠ .error) (hoff : off ≤ out.length)
    (hu : u = { s with cmds := u.cmds, resps := u.resps, call := u.call }) :
    Inv (beginCall inp out off eoi u) := by
  rw [hu]
  refine ⟨h.bits, h.window, fun c hc => ?_, h.err, h.phase⟩
  cases hc
  exact ⟨he, Nat.zero_le _, hoff, fun p hp => nomatch hp⟩

theorem PortStep.inv {s t : State} (h : PortStep s t) (hinv : Inv s) :
    Inv t := by
  cases h with
  | idle => exact hinv
  | respond => exact ⟨hinv.bits, hinv.window, hinv.call, hinv.err, hinv.phase⟩
  | start h eoi he hd hoff => exact inv_start eoi hinv he hoff rfl
  | reset => exact resetMeetsTheInvariant _ _ _ _

/-- Settles O48: every move and every command keeps the invariant. -/
theorem stepKeepsTheInvariant : Obligations.StepKeepsTheInvariant := by
  intro s t hinv hstep
  cases hcall : s.call with
  | none => exact (portStep_of_step hcall hstep).inv hinv
  | some c =>
    obtain ⟨r, hm⟩ := move_of_step hcall hstep
    exact hm.inv hinv hcall

theorem copyReads_of_inv {s : State} (hinv : Inv s) (hp : s.phase = .backReference) :
    CopyReads s := by
  intro _
  obtain ⟨-, -, -, h1, h2⟩ := (phaseOk_backReference hp).mp hinv.phase
  exact Option.isSome_iff_exists.mp (hinv.window.2.2.2 s.brDist.toNat h1 h2)

/-- Inside a call, from a state that meets the invariant, there is a move. -/
theorem exists_move_of_inv {s : State} {c : Call} (hinv : Inv s) (hcall : s.call = some c) :
    ∃ r t, Move s c r t :=
  exists_move c (hinv.call c hcall).1 (copyReads_of_inv hinv)

/-- Settles O49: with no call the port always answers, and inside a call there is a move. -/
theorem noStepGoesOutOfBounds : Obligations.NoStepGoesOutOfBounds := by
  intro s hinv
  cases hcall : s.call with
  | none =>
    obtain ⟨t, ht, -⟩ := exists_portStep hcall
    exact ⟨t, ht⟩
  | some c =>
    obtain ⟨r, t, hm⟩ := exists_move_of_inv hinv hcall
    exact ⟨t, step_of_move hcall hm⟩

end Sys2Proof.Machine
end

section
/-! The copy of a back-reference as a run of steps (R223 to R225). -/

namespace Sys2Proof.Machine

theorem run_succ_of_step {s t : State} (h : step s = .next t) (k : Nat) :
    Host.Core.run Sys2Proof.core (k + 1) s = Host.Core.run Sys2Proof.core k t := by
  have h' : Sys2Proof.core.step s = .next t := h
  simp only [Host.Core.run, h']

/-- After n steps of a copy from `s` in the call `c`: the state `t` and its call `d`. -/
structure Copied (s : State) (c : Call) (n : Nat) (t : State) (d : Call) : Prop where
  run : Host.Core.run Sys2Proof.core n s = .next t
  call : t.call = some d
  phase : t.phase = .backReference
  brLen : t.brLen = 0
  prod : d.prod = c.prod + n
  ip : d.ip = c.ip
  length : d.out.length = c.out.length
  before : ∀ m, m < c.off + c.prod → d.out[m]? = c.out[m]?
  after : ∀ m, c.off + c.prod + n ≤ m → d.out[m]? = c.out[m]?
  copied : ∀ k, k < n → d.out[c.off + c.prod + k]? =
    if k < s.brDist.toNat then Memory.read s.win (windowSource s.wp (s.brDist.toNat - k))
    else d.out[c.off + c.prod + k - s.brDist.toNat]?

/-- The state after one byte of a copy. -/
def copyNext (b : Byte) (c : Call) (s : State) : State :=
  (Effect.byte b).on (c.ahead 0) { s with brLen := s.brLen - 1 }

/-- The call after one byte of a copy. -/
def Call.copyNext (b : Byte) (c : Call) : Call :=
  { c with out := c.out.set (c.off + c.prod) b, prod := c.prod + 1 }

theorem windowSource_copy {b : Byte} {s : State} {c : Call} {k : Nat}
    (hk : k < s.brDist.toNat) (hle : s.brDist.toNat ≤ 32768) :
    Memory.read (copyNext b c s).win (windowSource (copyNext b c s).wp (s.brDist.toNat - k)) =
      if s.brDist.toNat = k + 1 then some b
      else Memory.read s.win (windowSource s.wp (s.brDist.toNat - (k + 1))) := by
  change Memory.read (Memory.write s.win s.wp.toNat b) (windowSource (s.wp + 1) _) = _
  split
  · next h =>
    rw [h, Nat.add_sub_cancel_left]
    exact read_window_write_one _ _ b
  · next h =>
    have hsub : s.brDist.toNat - k = s.brDist.toNat - (k + 1) + 1 := by omega
    rw [hsub]
    exact read_window_write_succ _ _ b (by omega) (by omega)

/-- One byte, then the rest of the copy. -/
theorem Copied.cons {s t : State} {c d : Call} {n : Nat} {b : Byte}
    (hroom : c.off + c.prod < c.out.length) (hstep : step s = .next (copyNext b c s))
    (hread : Memory.read s.win (windowSource s.wp s.brDist.toNat) = some b)
    (hpos : 1 ≤ s.brDist.toNat) (hle : s.brDist.toNat ≤ 32768)
    (h : Copied (copyNext b c s) (c.copyNext b) n t d) : Copied s c (n + 1) t d := by
  have hprod : d.prod = c.prod + 1 + n := h.prod
  have hlen : d.out.length = (c.out.set (c.off + c.prod) b).length := h.length
  have hbefore : ∀ m, m < c.off + c.prod + 1 → d.out[m]? = (c.out.set (c.off + c.prod) b)[m]? :=
    h.before
  have hafter : ∀ m, c.off + c.prod + 1 + n ≤ m → d.out[m]? = (c.out.set (c.off + c.prod) b)[m]? :=
    h.after
  have hfirst : d.out[c.off + c.prod]? = some b := by
    rw [hbefore _ (Nat.lt_succ_self _), List.getElem?_set_self hroom]
  refine ⟨(run_succ_of_step hstep n).trans h.run, h.call, h.phase, h.brLen, by omega, h.ip,
    by rw [hlen, List.length_set], fun m hm => ?_, fun m hm => ?_, fun k hk => ?_⟩
  · rw [hbefore m (by omega), List.getElem?_set_ne (by omega)]
  · rw [hafter m (by omega), List.getElem?_set_ne (by omega)]
  · cases k with
    | zero => rw [if_pos (Nat.lt_of_succ_le hpos), Nat.add_zero, hfirst, Nat.sub_zero, hread]
    | succ k =>
      have hcopied : d.out[c.off + c.prod + 1 + k]? = _ := h.copied k (Nat.lt_of_succ_lt_succ hk)
      have hdist : (copyNext b c s).brDist = s.brDist := rfl
      have hidx : c.off + c.prod + (k + 1) = c.off + c.prod + 1 + k := by omega
      have hoff : (c.copyNext b).off + (c.copyNext b).prod + k = c.off + c.prod + (k + 1) := by
        change c.off + (c.prod + 1) + k = _
        omega
      rw [hidx, hcopied, hdist, hoff]
      by_cases hlt : k < s.brDist.toNat
      · rw [if_pos hlt, windowSource_copy hlt hle]
        by_cases heq : s.brDist.toNat = k + 1
        · have hzero : c.off + c.prod + 1 + k - s.brDist.toNat = c.off + c.prod := by omega
          rw [if_pos heq, if_neg (by omega), hzero, hfirst]
        · rw [if_neg heq, if_pos (by omega)]
      · rw [if_neg hlt, if_neg (by omega), hidx]

/-- With room for all its bytes a back-reference copies them in as many steps. -/
theorem exists_copied {s : State} {c : Call} {n : Nat} (hinv : Inv s) (hcall : s.call = some c)
    (hp : s.phase = .backReference) (hn : s.brLen.toNat = n)
    (hroom : n ≤ c.out.length - c.off - c.prod) : ∃ t d, Copied s c n t d := by
  induction n generalizing s c with
  | zero =>
    exact ⟨s, c, rfl, hcall, hp, BitVec.eq_of_toNat_eq hn, rfl, rfl, rfl, fun _ _ => rfl,
      fun _ _ => rfl, fun k hk => absurd hk (Nat.not_lt_zero k)⟩
  | succ n ih =>
    have hne : s.brLen ≠ 0 := fun h => by rw [h] at hn; cases hn
    obtain ⟨b, hread⟩ := copyReads_of_inv hinv hp hne
    have hlt : c.off + c.prod < c.out.length := by omega
    obtain ⟨-, -, -, h1, h2⟩ := (phaseOk_backReference hp).mp hinv.phase
    have hmove : Move s c (.go 0 (.byte b)) (copyNext b c s) := .copyByte hp hne hlt hread
    have hsub : (s.brLen - 1).toNat = n := by bv_omega
    obtain ⟨t, d, h⟩ := ih (hmove.inv hinv hcall) (c := c.copyNext b) rfl hp hsub (by
      change n ≤ (c.out.set _ b).length - c.off - (c.prod + 1)
      rw [List.length_set]
      omega)
    exact ⟨t, d, h.cons hlt (step_of_move hcall hmove) hread h1
      (h2.trans hinv.window.2.2.1)⟩

/-- Settles O46: each step copies the byte at the distance, which after k steps is a byte of the
window as it was or one the copy has written. -/
theorem overlappingCopyRepeats : Obligations.OverlappingCopyRepeats := by
  intro s c hinv hcall hp hroom
  obtain ⟨t, d, h⟩ := exists_copied hinv hcall hp rfl hroom
  exact ⟨t, d, h.run, h.call, h.phase, h.brLen, h.prod, h.ip, h.length, h.before, h.after, h.copied⟩

end Sys2Proof.Machine
end

section
/-! No byte is FETCHed before it is needed (R24, R104): the width of what is committed, and what is
left after it. -/

namespace Sys2Proof.Machine

/-! ### The bits an element commits -/

theorem lenExtra_of_lt {sym : Nat} (h : sym < 257) : lenExtra sym = 0 := if_pos h

theorem clExtra_of_lt {sym : Nat} (h : sym < 16) : clExtra sym = 0 := by
  unfold clExtra
  split
  all_goals first | rfl | omega

theorem elemWidth_of_runOf {s : State} {i : Instr} {r n : Nat} {val : BitVec 4}
    (h : runOf s i = some (r, val, n)) (noPrev : Bool) :
    n = elemWidth (.cls (lengthsOf s.clLen) noPrev) i := by
  cases i
  case clsymLen sym =>
    have hlt : sym.toNat < 16 := sym.isLt
    cases h
    rw [elemWidth_cls rfl, clExtra_of_lt hlt]
    rfl
  case clsym16 e => cases h; rfl
  case clsym17 e => cases h; rfl
  case clsym18 e => cases h; rfl
  all_goals cases h

theorem firstRepeat_of_runStarts {s : State} {i : Instr} {r : Nat} (h : RunStarts s r i)
    (code : Lengths) : firstRepeat (.cls code (decide (s.dynIdx = 0))) i = false := by
  refine Bool.eq_false_of_not_eq_true fun hr => ?_
  unfold firstRepeat at hr
  split at hr
  · next heq =>
    have h0 : decide (s.dynIdx = 0) = true := (ElemCtx.cls.inj heq).2
    exact h.1 (of_decide_eq_true h0)
  · cases hr

/-- In DYN_LENS the format is that of the code-length symbols. -/
theorem expected_eq_cls {c : Call} {s : State} {x : ElemCtx} (hx : expected c s = some x)
    (hp : formatPhase x = .dynLens) :
    x = .cls (lengthsOf s.clLen) (decide (s.dynIdx = 0)) := by
  rw [expected, expected_formatPhase hx, hp] at hx
  exact (Option.some.inj hx).symm

/-- In SYMBOL_LOOP the format is that of the literal/length symbols, or of the distance symbols after
a length symbol. -/
theorem expected_eq_symbol {c : Call} {s : State} {x : ElemCtx} (hx : expected c s = some x)
    (hp : formatPhase x = .symbolLoop) :
    (c.pend = none ∧ x = .ll (lengthsOf s.codeLL)) ∨
      ∃ p, c.pend = some p ∧ x = .dist (lengthsOf s.codeD) p.used := by
  rw [expected, expected_formatPhase hx, hp] at hx
  cases hpend : c.pend with
  | none =>
    rw [hpend] at hx
    exact .inl ⟨rfl, (Option.some.inj hx).symm⟩
  | some p =>
    rw [hpend] at hx
    exact .inr ⟨p, rfl, (Option.some.inj hx).symm⟩

/-- A literal/length symbol is read in its own format. -/
theorem expected_eq_ll {c : Call} {s : State} {x : ElemCtx} {i : Instr} {v k : Nat}
    (hx : expected c s = some x) (hi : decodeElem x v k = .got i) {p : Nat × Nat}
    (hsym : litLenSym i = some p) : c.pend = none ∧ x = .ll (lengthsOf s.codeLL) := by
  have hp := readIn_of_decodeElem hi
  rw [readIn_of_litLenInstr (litLenInstr_of_litLenSym hsym).1] at hp
  rcases expected_eq_symbol hx hp.symm with h | ⟨p, -, rfl⟩
  · exact h
  · obtain ⟨t, e, hinstr, he, -⟩ := decodeElem_dist hi
    have hd := distSym_of_distInstr hinstr he
    rw [distSym_eq_none_of_litLenSym hsym] at hd
    cases hd

/-- A distance symbol is read after a length symbol. -/
theorem expected_eq_dist {c : Call} {s : State} {x : ElemCtx} {i : Instr} {v k : Nat}
    {p : PendingLength} (hx : expected c s = some x) (hi : decodeElem x v k = .got i)
    (hpend : c.pend = some p) {q : Nat × Nat} (hsym : distSym i = some q) :
    x = .dist (lengthsOf s.codeD) p.used := by
  have hp := readIn_of_decodeElem hi
  rw [readIn_of_distSym hsym] at hp
  rcases expected_eq_symbol hx hp.symm with ⟨h, -⟩ | ⟨p', h, rfl⟩
  · rw [hpend] at h; cases h
  · rw [hpend] at h
    obtain rfl := Option.some.inj h
    rfl

/-- A commit is of the width of its element. -/
theorem Commit.width {c : Call} {s t : State} {i : Instr} {n : Nat} {f : Effect} {x : ElemCtx}
    {v k : Nat} (h : Commit c s i n f t) (hx : expected c s = some x)
    (hi : decodeElem x v k = .got i) (hf : ∀ q, f ≠ .pend (some q)) :
    n = elemWidth x i ∧ firstRepeat x i = false := by
  have hp := readIn_of_decodeElem hi
  cases h with
  | runInside hrun hstart h =>
    obtain rfl := expected_eq_cls hx (hp.symm.trans (readIn_of_runOf hrun))
    exact ⟨elemWidth_of_runOf hrun _, firstRepeat_of_runStarts hstart _⟩
  | runEnd hrun hstart h =>
    obtain rfl := expected_eq_cls hx (hp.symm.trans (readIn_of_runOf hrun))
    exact ⟨elemWidth_of_runOf hrun _, firstRepeat_of_runStarts hstart _⟩
  | lit b hroom =>
    obtain ⟨-, rfl⟩ := expected_eq_ll hx hi (p := (b.toNat, 0)) rfl
    refine ⟨?_, rfl⟩
    rw [elemWidth_ll rfl, lenExtra_of_lt (by have := b.isLt; omega)]
    rfl
  | eob =>
    obtain ⟨-, rfl⟩ := expected_eq_ll hx hi (p := (256, 0)) rfl
    exact ⟨rfl, rfl⟩
  | length => exact absurd rfl (hf _)
  | distance hpend hsym h1 h2 =>
    obtain rfl := expected_eq_dist hx hi hpend hsym
    refine ⟨?_, rfl⟩
    rw [elemWidth_dist hsym, ← Nat.add_assoc]
    rfl
  | _ =>
    cases x <;> cases hp
    exact ⟨rfl, rfl⟩

/-! ### The bits left after a commit -/

theorem Reads.got {x : ElemCtx} {v n k : Nat} {i : Instr} (h : Reads x v i n) (hk : n ≤ k) :
    decodeElem x v k = .got i := by
  rw [h v k rfl, if_pos hk]

/-- An element that is read stays read as more of its window is known. -/
theorem decodeElem_mono {x : ElemCtx} {v j k : Nat} {i : Instr} (hx : CtxFits x) (hjk : j ≤ k)
    (h : decodeElem x v j = .got i) : decodeElem x v k = .got i := by
  obtain ⟨n, hn, hr, -⟩ := reads_of_got hx h
  exact hr.got (hn.trans hjk)

/-- A length symbol (R193). -/
def IsLength (i : Instr) : Prop :=
  ∃ sym e, litLenSym i = some (sym, e) ∧ 257 ≤ sym ∧ sym ≤ 285

/-- The element that is read, if it is no length symbol, is not whole without the last byte pending. -/
theorem nb_lt_of_lookahead {s : State} {c : Call} {x : ElemCtx} {n : Nat} {i : Instr}
    (hlook : Lookahead s) (hcall : s.call = some c) (hx : expected c s = some x)
    (hr : Reads x s.acc.toNat i n) (hi : ¬ IsLength i) : s.nb.toNat < n + 8 := by
  by_contra hge
  have h8 : 8 ≤ s.nb.toNat := by omega
  have hgot : decodeElem x s.acc.toNat (s.nb.toNat - 8) = .got i := hr.got (by omega)
  rw [Lookahead] at hlook
  have hx' := hx
  unfold expected at hx'
  split at hx'
  case h_7 hp =>
    rw [hp, hcall] at hlook
    split at hx'
    · next hpend =>
      obtain rfl := Option.some.inj hx'
      simp only [Option.bind_some, hpend] at hlook
      obtain ⟨sym, e, hsym, h1, h2, -⟩ := hlook h8 i hgot
      exact hi ⟨sym, e, hsym, h1, h2⟩
    · next p hpend =>
      obtain rfl := Option.some.inj hx'
      simp only [Option.bind_some, hpend] at hlook
      exact hlook.2 h8 i hgot
  all_goals cases hx'
  all_goals next hp =>
    rw [hp] at hlook
    exact hlook h8 c _ i hx hgot

/-- With at most 7 bits pending and no element in progress nothing has been FETCHed too soon. -/
theorem lookahead_of_le {s : State} (hnb : s.nb.toNat ≤ 7)
    (hpend : s.call.bind (fun c => c.pend) = none) : Lookahead s := by
  have h8 : ∀ {P : Prop}, 8 ≤ s.nb.toNat → P := fun h => absurd h (by omega)
  rw [Lookahead]
  split
  · trivial
  · exact hnb
  · exact hnb
  · exact hnb
  · rw [hpend]
    exact h8
  · exact h8

theorem lookahead_pending {s : State} {p : PendingLength} (hp : s.phase = .symbolLoop)
    (hpend : s.call.bind (fun c => c.pend) = some p) : Lookahead s ↔ PendingMatches p s ∧
      (8 ≤ s.nb.toNat → ∀ j,
        decodeElem (.dist (lengthsOf s.codeD) p.used) s.acc.toNat (s.nb.toNat - 8) ≠ .got j) := by
  rw [Lookahead, hp, hpend]

theorem lookahead_symbol {s : State} (hp : s.phase = .symbolLoop)
    (hpend : s.call.bind (fun c => c.pend) = none) : Lookahead s ↔ (8 ≤ s.nb.toNat → ∀ i,
      decodeElem (.ll (lengthsOf s.codeLL)) s.acc.toNat (s.nb.toNat - 8) = .got i →
      ∃ sym e, litLenSym i = some (sym, e) ∧ 257 ≤ sym ∧ sym ≤ 285 ∧ ∀ j,
        decodeElem (.dist (lengthsOf s.codeD) (lengthAt s.codeLL sym + lenExtra sym))
          s.acc.toNat (s.nb.toNat - 8) ≠ .got j) := by
  rw [Lookahead, hp, hpend]

theorem lookahead_field {s : State} {x : ElemCtx} (hp : s.phase = formatPhase x)
    (hsl : formatPhase x ≠ .symbolLoop) (hsd : x ≠ .sd) : Lookahead s ↔ (8 ≤ s.nb.toNat →
      ∀ c y i, expected c s = some y → decodeElem y s.acc.toNat (s.nb.toNat - 8) ≠ .got i) := by
  rw [Lookahead, hp]
  cases x
  case ll => exact absurd rfl hsl
  case dist => exact absurd rfl hsl
  case sd => exact absurd rfl hsd
  all_goals rfl

theorem Commit.nb_le_of_lt {c : Call} {s t : State} {i : Instr} {n : Nat} {f : Effect}
    (h : Commit c s i n f t) (hn : n ≤ s.nb.toNat) (hlt : s.nb.toNat < n + 8) : t.nb.toNat ≤ 7 := by
  have htaken : (taken n s).nb.toNat ≤ 7 := by
    rw [taken_nb hn]
    omega
  cases h with
  | blkStored f => exact Nat.zero_le _
  | eob => exact (endBlock_nb_le _).trans htaken
  | length => exact Nat.le_of_lt_succ (by rwa [Nat.zero_add] at hlt)
  | _ => exact htaken

theorem Commit.not_isLength {c : Call} {s t : State} {i : Instr} {n : Nat} {f : Effect}
    (h : Commit c s i n f t) (hf : ∀ q, f ≠ .pend (some q)) : ¬ IsLength i := by
  rintro ⟨sym, e, hsym, h1, h2⟩
  cases h with
  | length => exact absurd rfl (hf _)
  | lit b hroom =>
    cases hsym
    have := b.isLt
    omega
  | eob => cases hsym; omega
  | runInside hrun =>
    have hp := readIn_of_litLenInstr (litLenInstr_of_litLenSym hsym).1
    rw [readIn_of_runOf hrun] at hp
    cases hp
  | runEnd hrun =>
    have hp := readIn_of_litLenInstr (litLenInstr_of_litLenSym hsym).1
    rw [readIn_of_runOf hrun] at hp
    cases hp
  | distance hpend hdist =>
    rw [distSym_eq_none_of_litLenSym hsym] at hdist
    cases hdist
  | _ => cases hsym

/-- After an effect that leaves no length symbol in progress. -/
theorem pend_of_not_length {u : State} {c : Call} {k : Nat} {f : Effect}
    (hf : ∀ q, f ≠ .pend (some q)) (hpend : f ≠ .pend none → c.pend = none) :
    ((f.on (c.ahead k) u).call.bind fun d => d.pend) = none := by
  cases f with
  | quiet => exact hpend (nomatch ·)
  | byte b => exact hpend (nomatch ·)
  | pend q =>
    cases q with
    | none => rfl
    | some p => exact absurd rfl (hf p)

section

variable {s t : State} {c : Call} (hinv : Inv s) (hcall : s.call = some c)

include hinv hcall

/-- What a step has FETCHed for an element that is read is needed for it. -/
theorem fetched_nb_lt (hlook : Lookahead s) {x : ElemCtx} {k n : Nat} {i : Instr}
    (hf : Fetches x c s k) (hr : Reads x (fetched c k s).acc.toNat i n) (hi : ¬ IsLength i) :
    (fetched c k s).nb.toNat < n + 8 := by
  obtain ⟨hx, ho, -⟩ := ctx_of_expected hinv hcall hf.format
  cases k with
  | zero => exact nb_lt_of_lookahead hlook hcall hf.format hr hi
  | succ k => exact hf.last_needed hx ho hinv.bits (Nat.succ_pos k) hr

/-- After a commit that is not that of a length symbol at most 7 bits are pending, and no element is in
progress. -/
theorem commit_leaves_le (hlook : Lookahead s) {x : ElemCtx} {k n : Nat} {i : Instr} {f : Effect}
    (hf : Fetches x c s k)
    (hi : decodeElem x (fetched c k s).acc.toNat (fetched c k s).nb.toNat = .got i)
    (hn : n ≤ (fetched c k s).nb.toNat) (hc : Commit (c.ahead k) (fetched c k s) i n f t)
    (hpf : ∀ q, f ≠ .pend (some q)) :
    t.nb.toNat ≤ 7 ∧ ((f.on (c.ahead k) t).call.bind fun d => d.pend) = none := by
  obtain ⟨hx, -, -⟩ := ctx_of_expected hinv hcall hf.format
  obtain ⟨m, hm, hr, hwidth⟩ := reads_of_got hx hi
  obtain ⟨hnw, hfr⟩ := hc.width ((expected_fetched c k s).trans hf.format) hi hpf
  obtain rfl : m = n := (hwidth hfr).trans hnw.symm
  refine ⟨hc.nb_le_of_lt hn (fetched_nb_lt hinv hcall hlook hf hr (hc.not_isLength hpf)), ?_⟩
  exact pend_of_not_length hpf (hc.pend_eq_none hinv.call hcall hf.format hi)

/-- A length symbol that was just read: neither it nor its distance symbol was whole without the last
byte. -/
theorem lookahead_length (hlook : Lookahead s) {k : Nat} {i : Instr} {p : PendingLength}
    (hpend : c.pend = none) (hp : s.phase = .symbolLoop)
    (hf : Fetches (.ll (lengthsOf s.codeLL)) c s k)
    (hi : decodeElem (.ll (lengthsOf s.codeLL)) (fetched c k s).acc.toNat
      (fetched c k s).nb.toNat = .got i)
    {sym e : Nat} (hsym : litLenSym i = some (sym, e)) (h1 : 257 ≤ sym) (h2 : sym ≤ 285)
    (hused : p.used = lengthAt s.codeLL sym + lenExtra sym) :
    Lookahead ((Effect.pend (some p)).on (c.ahead k) (fetched c k s)) := by
  obtain ⟨hx, ho, -⟩ := ctx_of_expected hinv hcall hf.format
  have hframe := fetched_frame c k s
  have hcodeLL : (fetched c k s).codeLL = s.codeLL := by rw [hframe]
  have hcodeD : (fetched c k s).codeD = s.codeD := by rw [hframe]
  refine (lookahead_pending (p := p) ?_ rfl).mpr ⟨⟨i, sym, e, ?_, hsym, h1, h2, ?_⟩, fun h8 j hj => ?_⟩
  · exact (fetched_phase c k s).trans hp
  · change decodeElem (.ll (lengthsOf (fetched c k s).codeLL)) _ _ = _
    rw [hcodeLL]
    exact hi
  · change p.used = lengthAt (fetched c k s).codeLL sym + _
    rw [hcodeLL]
    exact hused
  · change decodeElem (.dist (lengthsOf (fetched c k s).codeD) p.used) (fetched c k s).acc.toNat
      ((fetched c k s).nb.toNat - 8) = _ at hj
    rw [hcodeD] at hj
    obtain ⟨-, hr⟩ := reads_ll hx hi
    rw [elemWidth_ll hsym] at hr
    obtain ⟨d, -, -, -, hne, hbits⟩ := decodeElem_dist hj
    have hle : (lengthsOf s.codeLL).getD sym 0 + lenExtra sym ≤ (fetched c k s).nb.toNat - 8 := by
      change p.used = (lengthsOf s.codeLL).getD sym 0 + _ at hused
      omega
    cases k with
    | zero =>
      obtain ⟨sym', e', hsym', -, -, hno⟩ :=
        (lookahead_symbol hp (by rw [hcall]; exact hpend)).mp hlook h8 i (hr.got hle)
      obtain ⟨rfl, rfl⟩ := Prod.mk.inj (Option.some.inj (hsym'.symm.trans hsym))
      rw [hused] at hj
      exact hno j hj
    | succ k =>
      have hlt := hf.last_needed hx ho hinv.bits (Nat.succ_pos k) hr
      change 8 ≤ (fetched c (k + 1) s).nb.toNat at h8
      omega

/-- A literal that stalls with no room is not whole without the last byte. -/
theorem lookahead_noRoom (hlook : Lookahead s) {x : ElemCtx} {k : Nat} {b : Byte}
    (hf : Fetches x c s k)
    (hi : decodeElem x (fetched c k s).acc.toNat (fetched c k s).nb.toNat = .got (.lit b)) :
    Lookahead (endCall 0 (c.ahead k) (fetched c k s)) := by
  obtain ⟨hx, -, -⟩ := ctx_of_expected hinv hcall hf.format
  obtain ⟨n, hn, hr, -⟩ := reads_of_got hx hi
  obtain ⟨-, rfl⟩ := expected_eq_ll hf.format hi (p := (b.toNat, 0)) rfl
  have hnl : ¬ IsLength (.lit b) := by
    rintro ⟨sym, e, hsym, h1, -⟩
    cases hsym
    have := b.isLt
    omega
  have hlt := fetched_nb_lt hinv hcall hlook hf hr hnl
  refine (lookahead_symbol ?_ rfl).mpr fun h8 i hgot => ?_
  · exact (fetched_phase c k s).trans (expected_formatPhase hf.format)
  · change 8 ≤ (fetched c k s).nb.toNat at h8
    change decodeElem (.ll (lengthsOf (fetched c k s).codeLL)) (fetched c k s).acc.toNat
      ((fetched c k s).nb.toNat - 8) = _ at hgot
    have hcode : (fetched c k s).codeLL = s.codeLL := by rw [fetched_frame]
    rw [hcode, hr _ _ rfl, if_neg (by omega)] at hgot
    cases hgot

/-- An element that is still wanted is not whole. -/
theorem lookahead_noInput (hlook : Lookahead s) {x : ElemCtx} {k : Nat} (hf : Fetches x c s k)
    (hn : decodeElem x (fetched c k s).acc.toNat (fetched c k s).nb.toNat = .needMore) :
    Lookahead (endCall 0 (c.ahead k) (fetched c k s)) := by
  obtain ⟨hx, ho, -⟩ := ctx_of_expected hinv hcall hf.format
  have hno : ∀ j, j ≤ (fetched c k s).nb.toNat → ∀ i,
      decodeElem x (fetched c k s).acc.toNat j ≠ .got i := fun j hj i hgot => by
    rw [decodeElem_mono hx hj hgot] at hn
    cases hn
  have hpt : (endCall 0 (c.ahead k) (fetched c k s)).phase = formatPhase x :=
    (fetched_phase c k s).trans (expected_formatPhase hf.format)
  have hexp : ∀ d, expected d (endCall 0 (c.ahead k) (fetched c k s)) = expected d s := fun d => by
    rw [fetched_frame]
    rfl
  by_cases hsl : formatPhase x = .symbolLoop
  · refine (lookahead_symbol (hpt.trans hsl) rfl).mpr fun h8 i hgot => ?_
    change decodeElem (.ll (lengthsOf (fetched c k s).codeLL)) (fetched c k s).acc.toNat
      ((fetched c k s).nb.toNat - 8) = _ at hgot
    have hcode : (fetched c k s).codeLL = s.codeLL := by rw [fetched_frame]
    rw [hcode] at hgot
    rcases expected_eq_symbol hf.format hsl with ⟨-, rfl⟩ | ⟨p, hpend, rfl⟩
    · exact absurd hgot (hno _ (Nat.sub_le _ _) i)
    · have hps : s.phase = .symbolLoop := expected_formatPhase hf.format
      obtain ⟨⟨i0, sym, e, hi0, hsym, h1, h2, hused⟩, -⟩ :=
        (lookahead_pending hps (by rw [hcall]; exact hpend)).mp hlook
      have hxl : CtxFits (.ll (lengthsOf s.codeLL)) :=
        codeFits_of_llAccepted (lengthsOf_le (by decide) _) ((phaseOk_symbolLoop hps).mp hinv.phase).1
      obtain ⟨n, hnle, hr, -⟩ := reads_of_got hxl hi0
      have hmod := fetched_acc_mod hf hx ho hinv.bits hnle k (Nat.le_refl k)
      rw [hr _ _ hmod] at hgot
      obtain ⟨-, rfl⟩ := got_of_ite hgot
      refine ⟨sym, e, hsym, h1, h2, fun j hj => ?_⟩
      have hcodes : (endCall 0 (c.ahead k) (fetched c k s)).codeLL = s.codeLL ∧
          (endCall 0 (c.ahead k) (fetched c k s)).codeD = s.codeD := by
        rw [fetched_frame]
        exact ⟨rfl, rfl⟩
      rw [hcodes.1, hcodes.2, ← hused] at hj
      exact hno _ (Nat.sub_le _ _) j hj
  · refine (lookahead_field hpt hsl (expected_ne_sd hf.format)).mpr fun h8 d y i hy => ?_
    obtain rfl : y = x := by
      have hsame : expected d s = expected c s := by
        unfold expected
        rw [expected_formatPhase hf.format]
        cases x
        case ll => exact absurd rfl hsl
        case dist => exact absurd rfl hsl
        all_goals rfl
      rw [hexp, hsame, hf.format] at hy
      exact (Option.some.inj hy).symm
    exact hno _ (Nat.sub_le _ _) i

/-- What a move leaves FETCHed is needed; and after a commit at most 7 bits are pending. -/
theorem Move.lookahead (hlook : Lookahead s) {r : Turn} (h : Move s c r t) :
    Lookahead t ∧ ∀ x d, expected c s = some x → t.call = some d → d.pend = none →
      t.nb.toNat ≤ 7 := by
  have herror : ∀ (status : BitVec 3) (d : Call) (u : State), status ≠ 0 →
      Lookahead (endCall status d u) := fun status d u h0 => by
    rw [Lookahead, endCall_phase, if_neg h0]
    trivial
  have hend : ∀ (status : BitVec 3) (d : Call), s.nb.toNat ≤ 7 →
      Lookahead (endCall status d s) ∧ ∀ x e, expected c s = some x →
        (endCall status d s).call = some e → e.pend = none → (endCall status d s).nb.toNat ≤ 7 :=
    fun status d h7 => ⟨lookahead_of_le h7 rfl, fun _ _ _ _ _ => h7⟩
  have hfew : s.phase = .storedCopy ∨ s.phase = .backReference ∨ s.phase = .done →
      s.nb.toNat ≤ 7 ∧ c.pend = none := fun hp => by
    refine ⟨?_, pend_eq_none hinv hcall fun hsl => by rw [hsl] at hp; simp at hp⟩
    rw [Lookahead] at hlook
    rcases hp with hp | hp | hp <;> rw [hp] at hlook <;> exact hlook
  cases h with
  | @commit x k n i f t hf hi hn hc =>
    by_cases hpf : ∃ p, f = .pend (some p)
    · obtain ⟨p, rfl⟩ := hpf
      obtain ⟨sym, e, hsym, h1, h2, -, -, rfl, hp⟩ := hc.eq_length
      obtain ⟨hpend, rfl⟩ := expected_eq_ll hf.format hi hsym
      refine ⟨lookahead_length hinv hcall hlook hpend (expected_formatPhase hf.format) hf hi hsym h1
        h2 ?_, fun x d _ hd hdp => ?_⟩
      · rw [hp, llWidth, fetched_frame]
      · cases hd
        cases hdp
    · obtain ⟨h7, hnone⟩ := commit_leaves_le hinv hcall hlook hf hi hn hc
        fun q hq => hpf ⟨q, hq⟩
      rw [← Effect.on_nb f (c.ahead k)] at h7
      exact ⟨lookahead_of_le h7 hnone, fun _ _ _ _ _ => h7⟩
  | @refused x k i e hf hi hr => exact ⟨herror _ _ _ (code_ne_zero e), fun _ _ _ h => nomatch h⟩
  | @bad x k e hf he => exact ⟨herror _ _ _ (code_ne_zero e), fun _ _ _ h => nomatch h⟩
  | noRoom hf hi hroom => exact ⟨lookahead_noRoom hinv hcall hlook hf hi, fun _ _ _ h => nomatch h⟩
  | noInput hf hn =>
    refine ⟨?_, fun _ _ _ h => nomatch h⟩
    cases c.eoi with
    | true => exact herror _ _ _ (by decide)
    | false => exact lookahead_noInput hinv hcall hlook hf hn
  | storedEnd hp hrem =>
    obtain ⟨h7, hnone⟩ := hfew (.inl hp)
    have h7' := (endBlock_nb_le s).trans h7
    exact ⟨lookahead_of_le h7' hnone, fun _ _ _ _ _ => h7'⟩
  | storedByte hp =>
    obtain ⟨h7, hnone⟩ := hfew (.inl hp)
    exact ⟨lookahead_of_le h7 hnone, fun _ _ _ _ _ => h7⟩
  | storedNoInput hp => exact hend _ _ (hfew (.inl hp)).1
  | storedNoRoom hp => exact hend _ _ (hfew (.inl hp)).1
  | copyEnd hp =>
    obtain ⟨h7, hnone⟩ := hfew (.inr (.inl hp))
    exact ⟨lookahead_of_le h7 hnone, fun _ _ _ _ _ => h7⟩
  | copyByte hp =>
    obtain ⟨h7, hnone⟩ := hfew (.inr (.inl hp))
    exact ⟨lookahead_of_le h7 hnone, fun _ _ _ _ _ => h7⟩
  | copyNoRoom hp => exact hend _ _ (hfew (.inr (.inl hp))).1
  | finish hp => exact hend _ _ (hfew (.inr (.inr hp))).1

end

/-- What a step does with no call in progress FETCHes nothing. -/
theorem PortStep.lookahead {s t : State} (h : PortStep s t) (hlook : Lookahead s)
    (hcall : s.call = none) : Lookahead t := by
  cases h with
  | idle => exact hlook
  | respond => exact hlook
  | start h eoi he hd hoff =>
    rw [Lookahead, hcall] at hlook
    exact hlook
  | reset => exact lookahead_of_le (Nat.zero_le _) rfl

/-- Settles O55: an element that is committed was not whole without the last byte pending, and one
that is wanted is not whole at all. -/
theorem lookaheadIsMinimal : Obligations.LookaheadIsMinimal := by
  intro s t hinv hlook hstep
  cases hcall : s.call with
  | none =>
    exact ⟨(portStep_of_step hcall hstep).lookahead hlook hcall, fun _ _ _ h => nomatch h⟩
  | some c =>
    obtain ⟨r, hm⟩ := move_of_step hcall hstep
    obtain ⟨hl, hnb⟩ := hm.lookahead hinv hcall hlook
    refine ⟨hl, fun c' x d hc hx => ?_⟩
    obtain rfl := Option.some.inj hc
    exact hnb x d hx

end Sys2Proof.Machine
end

section
/-! Every call returns within the bound of the spec (R271): each step that goes on leaves less to
do. -/

namespace Sys2Proof.Machine

/-- The room left in `OUT`. -/
def Call.space (c : Call) : Nat := c.out.length - c.off - c.prod

/-- What the phase adds to the steps still to come: the end of a copy is a step of its own, and a
length symbol is a step that commits nothing. -/
def settle (c : Call) (s : State) : Nat :=
  if c.pend.isSome then 0
  else if s.phase = .storedCopy ∨ s.phase = .backReference then 2 else 1

/-- A bound on the steps still to come in the call `c`. -/
def work (c : Call) (s : State) : Nat :=
  2 * (s.nb.toNat + 8 * c.rest.length + c.space) + settle c s

theorem settle_le (c : Call) (s : State) : settle c s ≤ 2 := by
  unfold settle
  split
  · exact Nat.zero_le _
  · split <;> decide

theorem settle_of_pend {c : Call} {p : PendingLength} (h : c.pend = some p) (s : State) :
    settle c s = 0 := by
  rw [settle, h]
  rfl

theorem settle_of_copy {c : Call} {s : State} (h : c.pend = none)
    (hp : s.phase = .storedCopy ∨ s.phase = .backReference) : settle c s = 2 := by
  rw [settle, h, if_neg (by decide), if_pos hp]

theorem settle_of_not_copy {c : Call} {s : State} (h : c.pend = none)
    (h1 : s.phase ≠ .storedCopy) (h2 : s.phase ≠ .backReference) : settle c s = 1 := by
  rw [settle, h, if_neg (by decide), if_neg (not_or.mpr ⟨h1, h2⟩)]

theorem work_le_stepBound {s : State} {c : Call} (hcall : s.call = some c) :
    work c s ≤ stepBound s := by
  have := settle_le c s
  rw [stepBound, hcall, work, length_rest, Call.space]
  dsimp only
  omega

/-- A call in progress has a step to come. -/
theorem work_pos {s : State} {c : Call} (hinv : Inv s) (hcall : s.call = some c) : 1 ≤ work c s := by
  cases hpend : c.pend with
  | none =>
    have : 1 ≤ settle c s := by
      rw [settle, hpend, if_neg (by decide)]
      split <;> decide
    rw [work]
    omega
  | some p =>
    obtain ⟨-, -, -, h1, -, hle⟩ := (hinv.call c hcall).2.2.2 p hpend
    rw [work]
    omega

/-- An element that is committed has a bit of its own. -/
theorem offset_lt_elemWidth {x : ElemCtx} {i : Instr} {v k : Nat} (hi : decodeElem x v k = .got i)
    (hr : firstRepeat x i = false) : x.offset < elemWidth x i := by
  cases x with
  | ll code =>
    obtain ⟨s, e, hinstr, he, hne, -⟩ := decodeElem_ll hi
    rw [elemWidth_ll (litLenSym_of_litLenInstr hinstr he)]
    exact Nat.lt_of_lt_of_le (Nat.pos_of_ne_zero hne) (Nat.le_add_right _ _)
  | dist code u =>
    obtain ⟨s, e, hinstr, he, hne, -⟩ := decodeElem_dist hi
    rw [elemWidth_dist (distSym_of_distInstr hinstr he)]
    have := Nat.pos_of_ne_zero hne
    change u < _
    omega
  | cls code noPrev =>
    rcases decodeElem_cls hi with ⟨rfl, rfl⟩ | ⟨s, e, hinstr, he, hne, -⟩
    · cases hr
    · rw [elemWidth_cls (clsymSym_of_clsymInstr hinstr he)]
      exact Nat.lt_of_lt_of_le (Nat.pos_of_ne_zero hne) (Nat.le_add_right _ _)
  | _ => exact Nat.succ_pos _

/-- A commit takes the bits of its element off the pending ones. -/
theorem Commit.nb_add_le {c : Call} {s t : State} {i : Instr} {n : Nat} {f : Effect}
    (h : Commit c s i n f t) (hn : n ≤ s.nb.toNat) : t.nb.toNat + n ≤ s.nb.toNat := by
  have htaken : (taken n s).nb.toNat + n ≤ s.nb.toNat := by
    rw [taken_nb hn]
    omega
  cases h with
  | blkStored f => exact (Nat.zero_add _).le.trans hn
  | eob => exact (Nat.add_le_add_right (endBlock_nb_le _) _).trans htaken
  | length => exact Nat.le_refl _
  | _ => exact htaken

/-- After an effect there is no more room than before. -/
theorem space_le_of_next {c d : Call} {k : Nat} {f : Effect}
    (h : (Turn.go k f).next c = some d) :
    d.rest.length = c.rest.length - k ∧ d.space ≤ c.space ∧ d.pend = f.pending c := by
  have hrest : ∀ e : Call, e.inp = c.inp → e.ip = c.ip + k →
      e.rest.length = c.rest.length - k := fun e h1 h2 => by
    rw [length_rest, length_rest, h1, h2]
    omega
  cases f with
  | quiet => cases h; exact ⟨hrest _ rfl rfl, Nat.le_refl _, rfl⟩
  | pend q => cases h; exact ⟨hrest _ rfl rfl, Nat.le_refl _, rfl⟩
  | byte b =>
    cases h
    refine ⟨hrest _ rfl rfl, ?_, rfl⟩
    change (c.out.set _ b).length - c.off - (c.prod + 1) ≤ _
    rw [List.length_set, Call.space]
    omega

theorem space_lt_of_byte {c d : Call} {k : Nat} {b : Byte}
    (h : (Turn.go k (.byte b)).next c = some d) (hroom : c.off + c.prod < c.out.length) :
    d.space < c.space := by
  cases h
  change (c.out.set _ b).length - c.off - (c.prod + 1) < _
  rw [List.length_set, Call.space]
  omega

section

variable {s t : State} {c d : Call} (hinv : Inv s) (hcall : s.call = some c)

include hinv hcall

/-- Less is left to do after a commit. -/
theorem work_lt_of_commit {x : ElemCtx} {k n : Nat} {i : Instr} {f : Effect} (hf : Fetches x c s k)
    (hi : decodeElem x (fetched c k s).acc.toNat (fetched c k s).nb.toNat = .got i)
    (hn : n ≤ (fetched c k s).nb.toNat) (hc : Commit (c.ahead k) (fetched c k s) i n f t)
    (hd : (Turn.go k f).next c = some d) : work d (f.on (c.ahead k) t) < work c s := by
  obtain ⟨hx, ho, hused⟩ := ctx_of_expected hinv hcall hf.format
  have hnb := (hf.bits hx ho hinv.bits k (Nat.le_refl k)).1
  have hadd := hc.nb_add_le hn
  have hk := hf.there
  obtain ⟨hrest, hspace, hpend⟩ := space_le_of_next hd
  rw [work, work, Effect.on_nb]
  by_cases hpf : ∃ p, f = .pend (some p)
  · obtain ⟨p, rfl⟩ := hpf
    obtain ⟨sym, e, hsym, -⟩ := hc.eq_length
    obtain ⟨hnone, rfl⟩ := expected_eq_ll hf.format hi hsym
    have hp : s.phase = .symbolLoop := expected_formatPhase hf.format
    rw [settle_of_pend hpend, settle_of_not_copy hnone (by rw [hp]; decide) (by rw [hp]; decide)]
    omega
  · obtain ⟨hw, hfr⟩ := hc.width ((expected_fetched c k s).trans hf.format) hi
      fun q hq => hpf ⟨q, hq⟩
    have hlt := offset_lt_elemWidth hi hfr
    have hle := settle_le d (f.on (c.ahead k) t)
    cases hcp : c.pend with
    | none =>
      have hs : 1 ≤ settle c s := by
        rw [settle, hcp, if_neg (by decide)]
        split <;> decide
      omega
    | some p =>
      have hp := ((hinv.call c hcall).2.2.2 p hcp)
      have hoff : x.offset = p.used := by
        have hformat := hf.format
        rw [expected, hp.1, hcp] at hformat
        rw [← Option.some.inj hformat]
        rfl
      have hpos := hp.2.2.2.1
      omega

/-- Less is left to do after a step that stays in its call. -/
theorem Move.work_lt {k : Nat} {f : Effect} (h : Move s c (.go k f) t) (hd : t.call = some d) :
    work d t < work c s := by
  have hk := h.bytes_le
  rw [h.call_eq hcall] at hd
  obtain ⟨hrest, hspace, hpend⟩ := space_le_of_next hd
  have hcopy : s.phase = .storedCopy ∨ s.phase = .backReference →
      c.pend = none ∧ settle c s = 2 := fun hp => by
    have hnone := pend_eq_none hinv hcall fun hsl => by rw [hsl] at hp; simp at hp
    exact ⟨hnone, settle_of_copy hnone hp⟩
  cases h with
  | commit hf hi hn hc => exact work_lt_of_commit hinv hcall hf hi hn hc hd
  | storedEnd hp hrem =>
    obtain ⟨hnone, h2⟩ := hcopy (.inl hp)
    have hafter : (endBlock s).phase ≠ .storedCopy ∧ (endBlock s).phase ≠ .backReference := by
      rw [endBlock_phase]
      cases s.final <;> cases s.wrap <;> decide
    have h1 : settle d (Effect.quiet.on (c.ahead 0) (endBlock s)) = 1 :=
      settle_of_not_copy (hpend.trans hnone) hafter.1 hafter.2
    have hnb := endBlock_nb_le s
    rw [work, work, h1, h2, Effect.on_nb]
    omega
  | @storedByte b hp hrem hb hroom =>
    obtain ⟨hnone, h2⟩ := hcopy (.inl hp)
    have hlt := space_lt_of_byte hd hroom
    have hle := settle_le d ((Effect.byte b).on (c.ahead 1) { s with stRem := s.stRem - 1 })
    rw [work, work, h2, Effect.on_nb]
    dsimp only
    omega
  | copyEnd hp hlen =>
    obtain ⟨hnone, h2⟩ := hcopy (.inr hp)
    have h1 : settle d (Effect.quiet.on (c.ahead 0) { s with phase := .symbolLoop }) = 1 :=
      settle_of_not_copy (hpend.trans hnone) (fun h => nomatch h) (fun h => nomatch h)
    rw [work, work, h1, h2, Effect.on_nb]
    dsimp only
    omega
  | @copyByte b hp hlen hroom hread =>
    obtain ⟨hnone, h2⟩ := hcopy (.inr hp)
    have hlt := space_lt_of_byte hd hroom
    have hle := settle_le d ((Effect.byte b).on (c.ahead 0) { s with brLen := s.brLen - 1 })
    rw [work, work, h2, Effect.on_nb]
    dsimp only
    omega

end

/-- A call returns within the work that is left. -/
theorem returns_within_work (w : Nat) {s : State} {c : Call} (hinv : Inv s)
    (hcall : s.call = some c) (hw : work c s ≤ w) :
    ∃ k t, k ≤ w ∧ Host.Core.run Sys2Proof.core k s = .next t ∧ t.call = none := by
  induction w generalizing s c with
  | zero => exact absurd (work_pos hinv hcall) (by omega)
  | succ w ih =>
    obtain ⟨r, t, hm⟩ := exists_move_of_inv hinv hcall
    have hstep := step_of_move hcall hm
    cases htc : t.call with
    | none => exact ⟨1, t, Nat.le_add_left _ _, run_succ_of_step hstep 0, htc⟩
    | some d =>
      cases r with
      | ret cause status k =>
        rw [hm.call_eq hcall] at htc
        cases htc
      | go k f =>
        have hlt := hm.work_lt hinv hcall htc
        obtain ⟨j, u, hj, hrun, hu⟩ := ih (hm.inv hinv hcall) htc (by omega)
        exact ⟨j + 1, u, Nat.succ_le_succ hj, (run_succ_of_step hstep j).trans hrun, hu⟩

/-- Settles O58: the work of a call is within the spec's bound, and each step leaves less of it. -/
theorem everyCallReturns : Obligations.EveryCallReturns := by
  intro s c hinv hcall
  obtain ⟨k, t, hk, hrun, ht⟩ := returns_within_work (work c s) hinv hcall (Nat.le_refl _)
  exact ⟨k, t, hk.trans (work_le_stepBound hcall), hrun, ht⟩

end Sys2Proof.Machine
end

section
/-! A call as a run of moves (R263), and that a call which makes no progress repeats (R272). -/

namespace Sys2Proof.Machine

/-! ### The steps of a call -/

/-- Steps that stay in the call lead from `s`, in the call `c`, to `t`, in the call `d`. -/
inductive Goes : State → Call → State → Call → Prop where
  | refl {s : State} {c : Call} (hcall : s.call = some c) : Goes s c s c
  | cons {s t u : State} {c d e : Call} {k : Nat} {f : Effect} (hcall : s.call = some c)
      (hm : Move s c (.go k f) t) (hd : t.call = some d) (h : Goes t d u e) : Goes s c u e

theorem Goes.call {s t : State} {c d : Call} (h : Goes s c t d) : s.call = some c := by
  cases h <;> assumption

theorem Goes.call_end {s t : State} {c d : Call} (h : Goes s c t d) : t.call = some d := by
  induction h with
  | refl hcall => exact hcall
  | cons hcall hm hd h ih => exact ih

/-- From one state there is one move. -/
theorem Move.next_unique {s t u : State} {c : Call} {r r' : Turn} (hcall : s.call = some c)
    (h : Move s c r t) (h' : Move s c r' u) : t = u :=
  Host.Outcome.next.inj ((step_of_move hcall h).symm.trans (step_of_move hcall h'))

theorem Move.call_of_ret {s t : State} {c : Call} {cause : Cause} {status : BitVec 3} {k : Nat}
    (h : Move s c (.ret cause status k) t) (hcall : s.call = some c) : t.call = none :=
  h.call_eq hcall

/-- The state at the return of a call is reached by one move from a state in the call. -/
theorem exists_goes {k : Nat} {s t : State} {c : Call} (hcall : s.call = some c)
    (hrun : Host.Core.run Sys2Proof.core k s = .next t) (ht : t.call = none)
    (hbefore : ∀ j, j < k → ∀ u, Host.Core.run Sys2Proof.core j s = .next u → u.call ≠ none) :
    ∃ u d cause status n, Goes s c u d ∧ Move u d (.ret cause status n) t := by
  induction k generalizing s c with
  | zero =>
    obtain rfl := Host.Outcome.next.inj hrun
    rw [hcall] at ht
    cases ht
  | succ k ih =>
    have hnext : ∃ v, step s = .next v := by
      cases hstep : step s with
      | next v => exact ⟨v, rfl⟩
      | fault r =>
        have h' : Sys2Proof.core.step s = .fault r := hstep
        simp [Host.Core.run, h'] at hrun
      | refused r =>
        have h' : Sys2Proof.core.step s = .refused r := hstep
        simp [Host.Core.run, h'] at hrun
    obtain ⟨v, hv⟩ := hnext
    obtain ⟨r, hm⟩ := move_of_step hcall hv
    rw [run_succ_of_step hv] at hrun
    cases r with
    | ret cause status n =>
      have hnone := hm.call_of_ret hcall
      cases k with
      | zero =>
        obtain rfl := Host.Outcome.next.inj hrun
        exact ⟨s, c, cause, status, n, .refl hcall, hm⟩
      | succ k =>
        exact absurd hnone (hbefore 1 (by omega) v (run_succ_of_step hv 0))
    | go n f =>
      obtain ⟨d, hd⟩ : ∃ d, v.call = some d := by
        rw [hm.call_eq hcall]
        cases f <;> exact ⟨_, rfl⟩
      obtain ⟨u, e, cause, status, m, hgoes, hret⟩ := ih hd hrun fun j hj w hw =>
        hbefore (j + 1) (Nat.succ_lt_succ hj) w ((run_succ_of_step hv j).trans hw)
      exact ⟨u, e, cause, status, m, .cons hcall hm hd hgoes, hret⟩

theorem callReturns_of_step {s t u : State} (hcall : s.call ≠ none) (hstep : step s = .next u)
    (h : CallReturns u t) : CallReturns s t := by
  obtain ⟨k, hrun, ht, hbefore⟩ := h
  refine ⟨k + 1, (run_succ_of_step hstep k).trans hrun, ht, fun j hj w hw => ?_⟩
  cases j with
  | zero =>
    obtain rfl := Host.Outcome.next.inj hw
    exact hcall
  | succ j =>
    rw [run_succ_of_step hstep] at hw
    exact hbefore j (Nat.lt_of_succ_lt_succ hj) w hw

theorem callReturns_refl {t : State} (ht : t.call = none) : CallReturns t t :=
  ⟨0, rfl, ht, fun j hj => absurd hj (Nat.not_lt_zero j)⟩

theorem Goes.callReturns {s t u : State} {c d : Call} (h : Goes s c u d) (hu : CallReturns u t) :
    CallReturns s t := by
  induction h with
  | refl hcall => exact hu
  | cons hcall hm hd h ih =>
    exact callReturns_of_step (by rw [hcall]; exact Option.some_ne_none _) (step_of_move hcall hm)
      (ih hu)

theorem Move.callReturns {s t : State} {c : Call} {cause : Cause} {status : BitVec 3} {k : Nat}
    (h : Move s c (.ret cause status k) t) (hcall : s.call = some c) : CallReturns s t :=
  callReturns_of_step (by rw [hcall]; exact Option.some_ne_none _) (step_of_move hcall h)
    (callReturns_refl (h.call_of_ret hcall))

/-- A call that returns is a run of steps that stay in it, and the step that ends it. -/
theorem callReturns_iff {s t : State} {c : Call} (hcall : s.call = some c) : CallReturns s t ↔
    ∃ u d cause status k, Goes s c u d ∧ Move u d (.ret cause status k) t := by
  constructor
  · rintro ⟨k, hrun, ht, hbefore⟩
    exact exists_goes hcall hrun ht hbefore
  · rintro ⟨u, d, cause, status, k, hgoes, hret⟩
    exact hgoes.callReturns (hret.callReturns hgoes.call_end)

/-- With no call in progress there is nothing to wait for. -/
theorem CallReturns.eq_of_idle {s t : State} (h : CallReturns s t) (hcall : s.call = none) :
    t = s := by
  obtain ⟨k, hrun, -, hbefore⟩ := h
  cases k with
  | zero => exact (Host.Outcome.next.inj hrun).symm
  | succ k => exact absurd hcall (hbefore 0 (Nat.succ_pos k) s rfl)

/-- A run in the call begins with any shorter one. -/
theorem Goes.rest {s u v t : State} {c d e : Call} {cause : Cause} {status : BitVec 3} {k : Nat}
    (h : Goes s c v e) (hlong : Goes s c u d) (hret : Move u d (.ret cause status k) t) :
    Goes v e u d := by
  induction h with
  | refl hcall => exact hlong
  | cons hcall hm hd h ih =>
    cases hlong with
    | refl hcall' =>
      have hnone := hret.call_of_ret hcall
      rw [← hm.next_unique hcall hret, hd] at hnone
      cases hnone
    | cons hcall' hm' hd' h' =>
      obtain rfl := hm.next_unique hcall hm'
      obtain rfl := Option.some.inj (hd.symm.trans hd')
      exact ih h'

/-! ### What the steps of a call leave alone -/

/-- What a call keeps of its operands, and how its cursors move. -/
structure CallKeeps (c d : Call) : Prop where
  inp : d.inp = c.inp
  off : d.off = c.off
  eoi : d.eoi = c.eoi
  length : d.out.length = c.out.length
  ip : c.ip ≤ d.ip
  prod : c.prod ≤ d.prod

theorem callKeeps_of_next {c d : Call} {k : Nat} {f : Effect} (h : (Turn.go k f).next c = some d) :
    CallKeeps c d := by
  cases f with
  | quiet => cases h; exact ⟨rfl, rfl, rfl, rfl, Nat.le_add_right _ _, Nat.le_refl _⟩
  | pend q => cases h; exact ⟨rfl, rfl, rfl, rfl, Nat.le_add_right _ _, Nat.le_refl _⟩
  | byte b =>
    cases h
    exact ⟨rfl, rfl, rfl, List.length_set, Nat.le_add_right _ _, Nat.le_add_right _ _⟩

theorem Goes.keeps {s t : State} {c d : Call} (h : Goes s c t d) : CallKeeps c d := by
  induction h with
  | refl hcall => exact ⟨rfl, rfl, rfl, rfl, Nat.le_refl _, Nat.le_refl _⟩
  | cons hcall hm hd h ih =>
    have h1 := callKeeps_of_next ((hm.call_eq hcall).symm.trans hd)
    exact ⟨ih.inp.trans h1.inp, ih.off.trans h1.off, ih.eoi.trans h1.eoi,
      ih.length.trans h1.length, h1.ip.trans ih.ip, h1.prod.trans ih.prod⟩

theorem Goes.resps {s t : State} {c d : Call} (h : Goes s c t d) : t.resps = s.resps := by
  induction h with
  | refl hcall => rfl
  | @cons s t u c d e k f hcall hm hd h ih =>
    rw [ih, hm.env_eq hcall]
    cases f <;> rfl

theorem Goes.inv {s t : State} {c d : Call} (h : Goes s c t d) (hinv : Inv s) : Inv t := by
  induction h with
  | refl hcall => exact hinv
  | cons hcall hm hd h ih => exact ih (hm.inv hinv hcall)

/-! ### The length symbol in progress can be read again -/

/-- The length symbol `p` is what the pending bits say. -/
def Replays (s : State) (p : PendingLength) : Prop :=
  ∃ i sym e, decodeElem (.ll (lengthsOf s.codeLL)) s.acc.toNat s.nb.toNat = .got i ∧
    litLenSym i = some (sym, e) ∧ 257 ≤ sym ∧ sym ≤ 285 ∧ ¬(sym = 284 ∧ e = 31) ∧
    p = ⟨BitVec.ofNat 9 (lenBase sym + e), llWidth s sym + lenExtra sym⟩

theorem Move.replays {s t : State} {c d : Call} {k : Nat} {f : Effect} (hinv : Inv s)
    (hcall : s.call = some c) (h : Move s c (.go k f) t) (hd : t.call = some d) {p : PendingLength}
    (hp : d.pend = some p) : Replays t p := by
  have hpend := (space_le_of_next ((h.call_eq hcall).symm.trans hd)).2.2
  rw [hp] at hpend
  have hcopy : s.phase = .storedCopy ∨ s.phase = .backReference → c.pend = none := fun hph =>
    pend_eq_none hinv hcall fun hsl => by rw [hsl] at hph; simp at hph
  have hno : ∀ {P : Prop}, c.pend = none → some p = c.pend → P := fun h1 h2 => by
    rw [h1] at h2
    cases h2
  cases h with
  | @commit x k n i f t hf hi hn hc =>
    by_cases hpf : ∃ q, f = .pend (some q)
    · obtain ⟨q, rfl⟩ := hpf
      obtain rfl := Option.some.inj hpend
      obtain ⟨sym, e, hsym, h1, h2, h3, -, rfl, rfl⟩ := hc.eq_length
      obtain ⟨-, rfl⟩ := expected_eq_ll ((expected_fetched c k s).trans hf.format) hi hsym
      exact ⟨i, sym, e, hi, hsym, h1, h2, h3, rfl⟩
    · cases f with
      | pend q =>
        cases q with
        | none => cases hpend
        | some q => exact absurd ⟨q, rfl⟩ hpf
      | quiet =>
        exact hno (hc.pend_eq_none hinv.call hcall hf.format hi (nomatch ·)) hpend
      | byte b =>
        exact hno (hc.pend_eq_none hinv.call hcall hf.format hi (nomatch ·)) hpend
  | storedEnd hph => exact hno (hcopy (.inl hph)) hpend
  | storedByte hph => exact hno (hcopy (.inl hph)) hpend
  | copyEnd hph => exact hno (hcopy (.inr hph)) hpend
  | copyByte hph => exact hno (hcopy (.inr hph)) hpend

theorem Goes.replays {s t : State} {c d : Call} (h : Goes s c t d) (hinv : Inv s)
    (hc : c.pend = none) {p : PendingLength} (hp : d.pend = some p) : Replays t p := by
  have hgen : (∀ q, c.pend = some q → Replays s q) → ∀ q, d.pend = some q → Replays t q := by
    clear hc hp
    induction h with
    | refl hcall => exact id
    | cons hcall hm hd h ih =>
      exact fun _ => ih (hm.inv hinv hcall) fun q hq => hm.replays hinv hcall hd hq
  exact hgen (fun q hq => by rw [hc] at hq; cases hq) p hp

/-- The bits FETCHed after a length symbol leave it as it is. -/
theorem Replays.fetched {s : State} {c : Call} {x : ElemCtx} {k : Nat} {p : PendingLength}
    (hinv : Inv s) (hcall : s.call = some c) (hf : Fetches x c s k) (hp : s.phase = .symbolLoop)
    (h : Replays s p) : Replays (fetched c k s) p := by
  obtain ⟨i, sym, e, hi, hsym, h1, h2, h3, rfl⟩ := h
  obtain ⟨hx, ho, -⟩ := ctx_of_expected hinv hcall hf.format
  have hxl : CtxFits (.ll (lengthsOf s.codeLL)) :=
    codeFits_of_llAccepted (lengthsOf_le (by decide) _) ((phaseOk_symbolLoop hp).mp hinv.phase).1
  obtain ⟨n, hn, hr, -⟩ := reads_of_got hxl hi
  have hnb := (hf.bits hx ho hinv.bits k (Nat.le_refl k)).1
  have hcode : (Machine.fetched c k s).codeLL = s.codeLL := by rw [fetched_frame]
  refine ⟨i, sym, e, ?_, hsym, h1, h2, h3, ?_⟩
  · rw [hcode, hr _ _ (fetched_acc_mod hf hx ho hinv.bits hn k (Nat.le_refl k)), if_pos (by omega)]
  · rw [llWidth, llWidth, hcode]

/-- A call that begins with a length symbol pending reads it again, in one step. -/
theorem goes_replay {s : State} {c : Call} (hcall : s.call = some c) (hpend : c.pend = none)
    {q : Option PendingLength} (hq : ∀ p, q = some p → s.phase = .symbolLoop ∧ Replays s p) :
    Goes s c { s with call := some { c with pend := q } } { c with pend := q } := by
  cases q with
  | none =>
    have hs : { s with call := some { c with pend := none } } = s := by
      rw [← hpend, ← hcall]
    have hc : { c with pend := none } = c := by rw [← hpend]
    rw [hs, hc]
    exact .refl hcall
  | some p =>
    obtain ⟨hp, i, sym, e, hi, hsym, h1, h2, h3, rfl⟩ := hq p rfl
    have hf : Fetches (.ll (lengthsOf s.codeLL)) c s 0 :=
      ⟨by rw [expected, hp, hpend], Nat.zero_le _, fun j hj => absurd hj (Nat.not_lt_zero j)⟩
    have hm := Move.commit (f := .pend (some _)) hf hi (Nat.zero_le _)
      (Commit.length (c := c.ahead 0) (s := fetched c 0 s) hsym h1 h2 h3)
    exact .cons hcall hm rfl (.refl rfl)

/-! ### Stalls (R263, R272) -/

theorem rest_eq_nil_of_none {c : Call} (h : c.inp[c.ip]? = none) : c.rest = [] :=
  List.drop_eq_nil_of_le (List.getElem?_eq_none_iff.mp h)

theorem formatPhase_ne_done (x : ElemCtx) : formatPhase x ≠ .done := by
  cases x <;> exact fun h => nomatch h

/-- A call that returns without an error had no input, no room, or nothing left to do. -/
theorem Move.cause_of_status_zero {s t : State} {c : Call} {cause : Cause} {status : BitVec 3}
    {k : Nat} (h : Move s c (.ret cause status k) t) (h0 : status = 0) :
    (cause = .short ∧ s.phase ≠ .done ∧ c.eoi = false ∧ k = c.rest.length) ∨
      (cause = .full ∧ s.phase ≠ .done ∧ c.out.length ≤ c.off + c.prod) ∨
      (cause = .done ∧ s.phase = .done) := by
  have heoi : shortStatus c.eoi = 0 → c.eoi = false := by cases c.eoi <;> decide
  have hread : ∀ {x : ElemCtx} {k : Nat}, Fetches x c s k → s.phase ≠ .done := fun hf => by
    rw [expected_formatPhase hf.format]
    exact formatPhase_ne_done _
  cases h with
  | @refused x k i e hf hi hr => exact absurd h0 (code_ne_zero e)
  | @bad x k e hf he => exact absurd h0 (code_ne_zero e)
  | noRoom hf hi hroom => exact .inr (.inl ⟨rfl, hread hf, hroom⟩)
  | noInput hf hn => exact .inl ⟨rfl, hread hf, heoi h0, rfl⟩
  | storedNoInput hp hrem hb =>
    exact .inl ⟨rfl, by rw [hp]; decide, heoi h0, by rw [rest_eq_nil_of_none hb]; rfl⟩
  | storedNoRoom hp hrem hb hroom => exact .inr (.inl ⟨rfl, by rw [hp]; decide, hroom⟩)
  | copyNoRoom hp hlen hroom => exact .inr (.inl ⟨rfl, by rw [hp]; decide, hroom⟩)
  | finish hp => exact .inr (.inr ⟨rfl, hp⟩)

/-- What a call returns. -/
theorem Move.resps_of_ret {s t : State} {c : Call} {cause : Cause} {status : BitVec 3} {k : Nat}
    (h : Move s c (.ret cause status k) t) :
    t.resps = .advanced status (c.ip + k) c.prod c.out :: s.resps := by
  rw [h.eq_endCall, fetched_frame]
  rfl

/-- A call that returns, returns the same in another call with the same registers that lets it. -/
theorem Move.ret_transfer {s t u : State} {c d : Call} {cause : Cause} {status : BitVec 3} {k : Nat}
    (h : Move s c (.ret cause status k) t) (hu : u = { s with call := some d, resps := u.resps })
    (hpend : d.pend = c.pend) (hfit : (Turn.ret cause status k).Fits c d) :
    Move u d (.ret cause status k)
      { t with resps := .advanced status (d.ip + k) d.prod d.out :: u.resps } := by
  have hagree : Agree s u := by
    rw [hu]
    exact ⟨rfl, rfl, rfl, rfl, fun _ => ⟨rfl, rfl⟩⟩
  have hm := h.transfer hpend hagree hfit
  have hs : withEnv s u = u := by
    rw [hu]
    rfl
  have ht : withEnv t ((Turn.ret cause status k).env d u) =
      { t with resps := .advanced status (d.ip + k) d.prod d.out :: u.resps } := by
    rw [h.eq_endCall, fetched_frame, hu]
    rfl
  rwa [hs, ht] at hm

/-- Settles O59: the last step of such a call took and gave nothing, so it was a stall; the same call
reads the pending length symbol again, if there is one, and stalls again. -/
theorem zeroProgressRepeats : Obligations.ZeroProgressRepeats := by
  intro inp out off eoi s t hinv hcall hnd hne hoff hret hresps hdone
  have hinv0 : Inv (beginCall inp out off eoi s) := inv_start eoi hinv hne hoff rfl
  obtain ⟨u, d, cause, status, k, hgoes, hm⟩ := (callReturns_iff rfl).mp hret
  obtain ⟨hinp, hdoff, heoi, -, -, -⟩ := hgoes.keeps
  have hall := hm.resps_of_ret.symm.trans hresps
  rw [hgoes.resps] at hall
  obtain ⟨rfl, hip, hprod, hout⟩ := Response.advanced.inj (List.cons.inj hall).1
  obtain ⟨hip0, rfl⟩ : d.ip = 0 ∧ k = 0 := by omega
  have ht : t = endCall 0 d u := hm.eq_endCall
  refine ⟨?_, ?_⟩
  · rcases hm.cause_of_status_zero rfl with ⟨-, -, he, hk⟩ | ⟨-, -, hroom⟩ | ⟨-, hp⟩
    · refine .inl ⟨?_, heoi.symm.trans he⟩
      rw [length_rest, hip0, hinp] at hk
      exact List.length_eq_zero_iff.mp hk.symm
    · right
      rw [hout, hdoff, hprod] at hroom
      exact Nat.sub_eq_zero_of_le hroom
    · rw [ht] at hdone
      exact absurd hp hdone
  · have hd : Call.mk inp out off eoi 0 0 d.pend = d := by
      have hd : Call.mk d.inp d.out d.off d.eoi d.ip d.prod d.pend = d := rfl
      rwa [hinp, hdoff, heoi, hip0, hprod, hout] at hd
    have hreplay := goes_replay (s := beginCall inp out off eoi t)
      (c := ⟨inp, out, off, eoi, 0, 0, none⟩) rfl rfl (q := d.pend) fun p hp => by
        rw [ht]
        exact ⟨((hgoes.inv hinv0).call d hgoes.call_end).2.2.2 p hp |>.1,
          hgoes.replays hinv0 rfl hp⟩
    rw [hd] at hreplay
    have hlast := hm.ret_transfer (u := { beginCall inp out off eoi t with call := some d })
      (by rw [ht]; rfl) rfl hm.fits
    rw [hip, hprod, hout] at hlast
    exact hreplay.callReturns (hlast.callReturns rfl)

end Sys2Proof.Machine
end

section
/-! Two calls on parts of the input and of the room are the one call on all of it (R273): the one call
makes the moves of the first, goes on where the first stalled, and makes the moves of the second. -/

namespace Sys2Proof.Machine

/-! ### A call inside a larger one -/

/-- `S`, in the call `C`, has the registers of `s`, in the call `c`; `C` has taken n bytes and written
p more, and its buffer is `old` with the bytes of `c` written. -/
structure Mirrors (n p : Nat) (old : List Byte) (s : State) (c : Call) (S : State) (C : Call) :
    Prop where
  regs : S = { s with call := some C, resps := S.resps }
  pend : C.pend = c.pend
  ip : C.ip = c.ip + n
  prod : C.prod = c.prod + p
  length : C.out.length = old.length
  new : ∀ k, k < c.prod → C.out[C.off + p + k]? = c.out[c.off + k]?
  kept : ∀ m, m < C.off + p ∨ C.off + p + c.prod ≤ m → C.out[m]? = old[m]?

theorem withEnv_of_regs {s S : State} {C : Call}
    (h : S = { s with call := some C, resps := S.resps }) : withEnv s S = S := by
  rw [h]
  rfl

theorem agree_of_regs {s S : State} {C : Call}
    (h : S = { s with call := some C, resps := S.resps }) : Agree s S := by
  rw [h]
  exact ⟨rfl, rfl, rfl, rfl, fun _ => ⟨rfl, rfl⟩⟩

/-- A turn does the same to the registers of both. -/
theorem regs_of_turn {s t S : State} {c C : Call} {r : Turn}
    (hS : S = { s with call := some C, resps := S.resps }) (ht : t = withEnv t (r.env c s)) :
    withEnv t (r.env C S) = { t with call := r.next C, resps := (r.env C S).resps } := by
  generalize S.resps = resps at hS
  subst hS
  conv_rhs => rw [ht]
  rcases r with ⟨k, _ | _ | _⟩ | _ <;> rfl

theorem rest_of_next {c d : Call} {k : Nat} {f : Effect} (h : (Turn.go k f).next c = some d) :
    d.rest = c.rest.drop k := by
  have hdrop : ∀ e : Call, e.inp = c.inp → e.ip = c.ip + k → e.rest = c.rest.drop k :=
    fun e h1 h2 => by rw [Call.rest, h1, h2, Call.rest, List.drop_drop]
  cases f with
  | quiet => cases h; exact hdrop _ rfl rfl
  | pend q => cases h; exact hdrop _ rfl rfl
  | byte b => cases h; exact hdrop _ rfl rfl

/-- The byte emitted stands in both buffers. -/
theorem Mirrors.of_byte {n p k : Nat} {old : List Byte} {s t S T : State} {c C : Call} {b : Byte}
    (h : Mirrors n p old s c S C) (hroom : c.off + c.prod < c.out.length)
    (hRoom : C.off + C.prod < C.out.length)
    (hT : T = { t with
      call := some { C.ahead k with out := C.out.set (C.off + C.prod) b, prod := C.prod + 1 }
      resps := T.resps }) :
    Mirrors n p old t { c.ahead k with out := c.out.set (c.off + c.prod) b, prod := c.prod + 1 } T
      { C.ahead k with out := C.out.set (C.off + C.prod) b, prod := C.prod + 1 } := by
  have hprod := h.prod
  have hip := h.ip
  refine ⟨hT, h.pend, ?_, ?_, List.length_set.trans h.length, fun j hj => ?_, fun m hm => ?_⟩
  · change C.ip + k = c.ip + k + n
    omega
  · change C.prod + 1 = c.prod + 1 + p
    omega
  · change j < c.prod + 1 at hj
    change (C.out.set (C.off + C.prod) b)[C.off + p + j]? = (c.out.set (c.off + c.prod) b)[c.off + j]?
    rcases Nat.eq_or_lt_of_le (Nat.le_of_lt_succ hj) with rfl | hlt
    · have hidx : C.off + p + c.prod = C.off + C.prod := by omega
      rw [hidx, List.getElem?_set_self hRoom, List.getElem?_set_self hroom]
    · rw [List.getElem?_set_ne (by omega), List.getElem?_set_ne (by omega)]
      exact h.new j hlt
  · change m < C.off + p ∨ C.off + p + (c.prod + 1) ≤ m at hm
    change (C.out.set (C.off + C.prod) b)[m]? = _
    rw [List.getElem?_set_ne (by omega)]
    exact h.kept m (by omega)

/-- The larger call makes the moves of the smaller one. -/
theorem Mirrors.move {n p k : Nat} {old b : List Byte} {s t S : State} {c d C : Call} {f : Effect}
    (h : Mirrors n p old s c S C) (hcall : s.call = some c) (hm : Move s c (.go k f) t)
    (hd : t.call = some d) (hrest : C.rest = c.rest ++ b)
    (hroom : C.off + p + d.prod ≤ C.out.length) :
    ∃ T D, Move S C (.go k f) T ∧ T.call = some D ∧ Mirrors n p old t d T D ∧
      D.rest = d.rest ++ b ∧ CallKeeps C D := by
  have hk : k ≤ c.rest.length := hm.bytes_le
  have hnext := (hm.call_eq hcall).symm.trans hd
  have hprod := h.prod
  have hbyte : ∀ x, f = .byte x → C.off + C.prod < C.out.length := fun x hx => by
    subst hx
    cases hnext
    change C.off + p + (c.prod + 1) ≤ C.out.length at hroom
    omega
  have hfit : (Turn.go k f).Fits c C :=
    ⟨by rw [hrest, List.take_append_of_le_length hk], hbyte⟩
  obtain ⟨D, hD⟩ : ∃ D, (Turn.go k f).next C = some D := by cases f <;> exact ⟨_, rfl⟩
  have hM := hm.transfer h.pend (agree_of_regs h.regs) hfit
  rw [withEnv_of_regs h.regs] at hM
  have hT := regs_of_turn h.regs (hm.env_eq hcall)
  rw [hD] at hT
  refine ⟨_, D, hM, by rw [hT], ?_, ?_, callKeeps_of_next hD⟩
  · have hip : C.ip + k = c.ip + k + n := by have := h.ip; omega
    cases f with
    | quiet => cases hnext; cases hD; exact ⟨hT, h.pend, hip, hprod, h.length, h.new, h.kept⟩
    | pend q => cases hnext; cases hD; exact ⟨hT, rfl, hip, hprod, h.length, h.new, h.kept⟩
    | byte x =>
      cases hnext
      cases hD
      exact h.of_byte (hm.fits.2 x rfl) (hbyte x rfl) hT
  · rw [rest_of_next hD, rest_of_next hnext, hrest, List.drop_append_of_le_length hk]

/-- The larger call makes all the steps of the smaller one. -/
theorem Mirrors.goes {n p : Nat} {old b : List Byte} {s u : State} {c d : Call}
    (hg : Goes s c u d) {S : State} {C : Call} (h : Mirrors n p old s c S C)
    (hrest : C.rest = c.rest ++ b) (hroom : C.off + p + d.prod ≤ C.out.length) :
    ∃ U D, Goes S C U D ∧ Mirrors n p old u d U D ∧ D.rest = d.rest ++ b := by
  have hS : ∀ {s S : State} {c C : Call}, Mirrors n p old s c S C → S.call = some C := fun h => by
    rw [h.regs]
  induction hg generalizing S C with
  | refl hcall => exact ⟨S, C, .refl (hS h), h, hrest⟩
  | cons hcall hm hd hg ih =>
    have hle := hg.keeps.prod
    obtain ⟨T, D, hM, hD, h', hrest', hkeeps⟩ := h.move hcall hm hd hrest (by omega)
    obtain ⟨U, E, hG, hU, hE⟩ := ih h' hrest' (by rw [hkeeps.off, hkeeps.length]; exact hroom)
    exact ⟨U, E, .cons (hS h) hM hD hG, hU, hE⟩

/-- Where the input left, its end and the room are the same, a call returns for the same reason. -/
theorem Turn.fits_of_eq {c d : Call} {cause : Cause} {status : BitVec 3} {k : Nat}
    (h : (Turn.ret cause status k).Fits c c) (hrest : d.rest = c.rest) (heoi : d.eoi = c.eoi)
    (hroom : c.out.length ≤ c.off + c.prod → d.out.length ≤ d.off + d.prod) :
    (Turn.ret cause status k).Fits c d := by
  cases cause with
  | bits =>
    change d.rest.take k = c.rest.take k
    rw [hrest]
  | short => exact ⟨hrest, heoi⟩
  | full => exact ⟨hrest, hroom h.2⟩
  | done => trivial

/-! ### FETCHes before a step (R104) -/

/-- The bytes wanted can be FETCHed before the step. -/
theorem step_of_fetches {x : ElemCtx} {c : Call} {s : State} {k : Nat} (hcall : s.call = some c)
    (h : Fetches x c s k) : step s = step (fetched c k s) := by
  have hdrop : (c.ahead k).inp.drop (c.ahead k).ip = c.rest.drop k := by
    rw [Call.rest, List.drop_drop]
    rfl
  have hloop : fetchLoop (decodeElem x) (c.inp.drop c.ip) s =
      fetchLoop (decodeElem x) (c.rest.drop k) (fetched c k s) := fetchLoop_of_fetches h
  rw [step_of_call hcall, step_of_call (fetched_call hcall h.there), expected_fetched, h.format,
    hdrop]
  simp only [hloop]

/-- A call that returned can go on from the state after its FETCHes. -/
theorem Move.step_fetched {s t S : State} {c C : Call} {cause : Cause} {status : BitVec 3} {k : Nat}
    (h : Move s c (.ret cause status k) t) (hS : S = { s with call := some C, resps := S.resps })
    (hpend : C.pend = c.pend) (htake : C.rest.take k = c.rest.take k) :
    step S = step (fetched C k S) := by
  have hC : S.call = some C := by rw [hS]
  have hread : ∀ {x : ElemCtx} {k : Nat}, Fetches x c s k → C.rest.take k = c.rest.take k →
      step S = step (fetched C k S) := fun hf htake => by
    have hf' := hf.transfer (e := S) hpend htake
    rw [withEnv_of_regs hS] at hf'
    exact step_of_fetches hC hf'
  cases h with
  | refused hf => exact hread hf htake
  | bad hf => exact hread hf htake
  | noRoom hf => exact hread hf htake
  | noInput hf => exact hread hf htake
  | _ => rfl

theorem fetchBytes_regs (bytes : List Byte) (s : State) (q : Option Call) (r : List Response) :
    fetchBytes bytes { s with call := q, resps := r } = { fetchBytes bytes s with
      call := (fetchBytes bytes { s with call := q, resps := r }).call, resps := r } := by
  induction bytes generalizing s q with
  | nil => rfl
  | cons b bytes ih => exact ih (fetchByte b s) _

theorem fetched_regs {s S : State} {c C : Call} {k : Nat}
    (hS : S = { s with call := some C, resps := S.resps }) (hk : k ≤ C.rest.length)
    (htake : C.rest.take k = c.rest.take k) :
    fetched C k S = { fetched c k s with call := some (C.ahead k), resps := S.resps } := by
  have hC : S.call = some C := by rw [hS]
  have hcall := fetched_call hC hk
  have h := fetchBytes_regs (c.rest.take k) s (some C) S.resps
  rw [← hS, ← htake] at h
  rw [← hcall, fetched, fetched, ← htake]
  exact h

theorem Move.replays_fetched {s t : State} {c : Call} {cause : Cause} {status : BitVec 3} {k : Nat}
    {p : PendingLength} (h : Move s c (.ret cause status k) t) (hinv : Inv s)
    (hcall : s.call = some c) (hp : s.phase = .symbolLoop) (hr : Replays s p) :
    Replays (fetched c k s) p := by
  cases h with
  | refused hf => exact hr.fetched hinv hcall hf hp
  | bad hf => exact hr.fetched hinv hcall hf hp
  | noRoom hf => exact hr.fetched hinv hcall hf hp
  | noInput hf => exact hr.fetched hinv hcall hf hp
  | _ => exact hr

theorem callReturns_of_step_eq {s u t : State} (hs : s.call ≠ none) (hu : u.call ≠ none)
    (hstep : step s = step u) (h : CallReturns u t) : CallReturns s t := by
  obtain ⟨k, hrun, ht, hbefore⟩ := h
  have hsucc : ∀ j, Host.Core.run Sys2Proof.core (j + 1) s =
      Host.Core.run Sys2Proof.core (j + 1) u := fun j => by
    have h' : Sys2Proof.core.step s = Sys2Proof.core.step u := hstep
    simp only [Host.Core.run, h']
  cases k with
  | zero =>
    obtain rfl := Host.Outcome.next.inj hrun
    exact absurd ht hu
  | succ k =>
    refine ⟨k + 1, (hsucc k).trans hrun, ht, fun j hj w hw => ?_⟩
    cases j with
    | zero =>
      obtain rfl := Host.Outcome.next.inj hw
      exact hs
    | succ j =>
      rw [hsucc j] at hw
      exact hbefore (j + 1) hj w hw

/-! ### What an ADVANCE returns (R262, R264 to R267) -/

/-- In DONE and ERROR the block does nothing more (R265, R266). -/
def Rests (s : State) : Prop := s.phase = .error ∨ s.phase = .done

/-- The status of an ADVANCE in DONE or ERROR. -/
def restStatus (s : State) : BitVec 3 := if s.phase = .error then s.err else 0

theorem exec_advance_of_rests {s : State} (h : Rests s) (inp out : List Byte) (off : Nat)
    (eoi : Bool) : exec (.advance inp out off eoi) s =
      .next (respond (.advanced (restStatus s) 0 0 out) s) := by
  rcases h with h | h
  · rw [restStatus, if_pos h]
    exact execAdvance_of_error h inp out off eoi
  · rw [restStatus, if_neg (by rw [h]; decide)]
    exact execAdvance_of_done h inp out off eoi

theorem AdvanceReturns.of_rests {inp out buf : List Byte} {off : Nat} {eoi : Bool} {s t : State}
    {status : BitVec 3} {n p : Nat} (h : AdvanceReturns inp out off eoi s t status n p buf)
    (hcall : s.call = none) (hs : Rests s) :
    status = restStatus s ∧ n = 0 ∧ p = 0 ∧ buf = out ∧ t = { s with resps := t.resps } := by
  obtain ⟨u, hu, hret, hresps⟩ := h
  rw [exec_advance_of_rests hs] at hu
  obtain rfl := Host.Outcome.next.inj hu
  obtain rfl := hret.eq_of_idle hcall
  obtain ⟨h1, h2, h3, h4⟩ := Response.advanced.inj (List.cons.inj hresps).1
  exact ⟨h1.symm, h2.symm, h3.symm, h4.symm, rfl⟩

theorem advanceReturns_of_rests {s : State} (hcall : s.call = none) (hs : Rests s)
    (inp out : List Byte) (off : Nat) (eoi : Bool) :
    AdvanceReturns inp out off eoi s (respond (.advanced (restStatus s) 0 0 out) s) (restStatus s) 0
      0 out :=
  ⟨_, exec_advance_of_rests hs inp out off eoi, callReturns_refl hcall, rfl⟩

/-- Outside DONE and ERROR an ADVANCE that returns counts was a call (R267). -/
theorem AdvanceReturns.of_not_rests {inp out buf : List Byte} {off : Nat} {eoi : Bool} {s t : State}
    {status : BitVec 3} {n p : Nat} (h : AdvanceReturns inp out off eoi s t status n p buf)
    (hcall : s.call = none) (hs : ¬ Rests s) : off ≤ out.length ∧ ∃ u d cause k,
      Goes (beginCall inp out off eoi s) ⟨inp, out, off, eoi, 0, 0, none⟩ u d ∧
        Move u d (.ret cause status k) t ∧ n = d.ip + k ∧ p = d.prod ∧ buf = d.out := by
  obtain ⟨v, hv, hret, hresps⟩ := h
  obtain ⟨he, hd⟩ := not_or.mp hs
  rcases Nat.lt_or_ge out.length off with hoff | hoff
  · rw [show exec (.advance inp out off eoi) s = _ from execAdvance_of_off he hd hoff eoi] at hv
    obtain rfl := Host.Outcome.next.inj hv
    obtain rfl := hret.eq_of_idle hcall
    cases (List.cons.inj hresps).1
  · rw [show exec (.advance inp out off eoi) s = _ from execAdvance_of_le he hd hoff eoi] at hv
    obtain rfl := Host.Outcome.next.inj hv
    obtain ⟨u, d, cause, st, k, hg, hm⟩ := (callReturns_iff rfl).mp hret
    have hall := hm.resps_of_ret.symm.trans hresps
    rw [hg.resps] at hall
    obtain ⟨rfl, h2, h3, h4⟩ := Response.advanced.inj (List.cons.inj hall).1
    exact ⟨hoff, u, d, cause, k, hg, hm, h2.symm, h3.symm, h4.symm⟩

theorem advanceReturns_of_call {inp out : List Byte} {off : Nat} {eoi : Bool} {s t : State}
    {status : BitVec 3} {n p : Nat} {buf : List Byte} (hs : ¬ Rests s) (hoff : off ≤ out.length)
    (h : CallReturns (beginCall inp out off eoi s) t)
    (hresps : t.resps = .advanced status n p buf :: s.resps) :
    AdvanceReturns inp out off eoi s t status n p buf := by
  obtain ⟨he, hd⟩ := not_or.mp hs
  exact ⟨_, execAdvance_of_le he hd hoff eoi, h, hresps⟩

end Sys2Proof.Machine
end

section
/-! Two calls are one call (R273), from the mirrored moves of both. -/

namespace Sys2Proof.Machine

/-- What two calls amount to as one call: its returns, and its buffer. -/
def Merges (inp out : List Byte) (off : Nat) (eoi : Bool) (s t2 : State) (status : BitVec 3)
    (n p1 p2 off1 off2 : Nat) (buf1 buf2 : List Byte) : Prop :=
  ∃ t buf, AdvanceReturns inp out off eoi s t status n (p1 + p2) buf ∧
    t = { t2 with resps := t.resps } ∧ buf.length = out.length ∧
    (∀ k, k < p1 → buf[off + k]? = buf1[off1 + k]?) ∧
    (∀ k, k < p2 → buf[off + p1 + k]? = buf2[off2 + k]?) ∧
    ∀ k, k < off ∨ off + p1 + p2 ≤ k → buf[k]? = out[k]?

/-! ### The first call -/

/-- The one call makes the moves of the first one. -/
theorem first_call {a b out1 out : List Byte} {off1 off : Nat} {eoi1 eoi : Bool} {s u : State}
    {d : Call} (hg : Goes (beginCall a out1 off1 eoi1 s) ⟨a, out1, off1, eoi1, 0, 0, none⟩ u d)
    (hroom : off + d.prod ≤ out.length) :
    ∃ U D, Goes (beginCall (a ++ b) out off eoi s) ⟨a ++ b, out, off, eoi, 0, 0, none⟩ U D ∧
      Mirrors 0 0 out u d U D ∧ D.rest = d.rest ++ b :=
  Mirrors.goes hg
    ⟨rfl, rfl, rfl, rfl, rfl, fun k hk => absurd hk (Nat.not_lt_zero k), fun _ _ => rfl⟩ rfl hroom

/-- With more input a call ends with the same error, or in DONE, as the first one, which raised
TruncatedInput only when there was no more. -/
theorem Move.fits_of_end {s t : State} {c C : Call} {cause : Cause} {status : BitVec 3} {k : Nat}
    {b : List Byte} (h : Move s c (.ret cause status k) t) (hend : status ≠ 0 ∨ cause = .done)
    (hrest : C.rest = c.rest ++ b) (heoi : c.eoi = true → C.eoi = true ∧ b = []) :
    (Turn.ret cause status k).Fits c C := by
  have hk := h.bytes_le
  have htake : ∀ {k : Nat}, k ≤ c.rest.length → C.rest.take k = c.rest.take k := fun hk => by
    rw [hrest, List.take_append_of_le_length hk]
  have hshort : shortStatus c.eoi ≠ 0 → C.rest = c.rest ∧ C.eoi = c.eoi := fun h0 => by
    cases he : c.eoi with
    | false => rw [he] at h0; exact absurd rfl h0
    | true =>
      obtain ⟨hC, rfl⟩ := heoi he
      exact ⟨by rw [hrest, List.append_nil], hC⟩
  cases h with
  | refused hf => exact htake hk
  | bad hf => exact htake hk
  | noInput => exact hshort (hend.resolve_right (nomatch ·))
  | storedNoInput => exact hshort (hend.resolve_right (nomatch ·))
  | finish => trivial
  | _ => exact absurd rfl (hend.resolve_right (nomatch ·))

/-- A call that ends with an error or in DONE leaves the block at rest. -/
theorem Move.rests_of_end {s t : State} {c : Call} {cause : Cause} {status : BitVec 3} {k : Nat}
    (h : Move s c (.ret cause status k) t)
    (hend : status ≠ 0 ∨ cause = .done) : Rests t ∧ restStatus t = status := by
  have hphase : t.phase = if status = 0 then s.phase else .error := by
    rw [h.eq_endCall, endCall_phase, fetched_phase]
  have herr : t.err = if status = 0 then s.err else status := by
    rw [h.eq_endCall, fetched_frame]
    rfl
  by_cases h0 : status = 0
  · have hdone : s.phase = .done := by
      rcases h.cause_of_status_zero h0 with ⟨rfl, -⟩ | ⟨rfl, -⟩ | ⟨-, hp⟩
      · exact absurd (hend.resolve_right (nomatch ·)) (not_not_intro h0)
      · exact absurd (hend.resolve_right (nomatch ·)) (not_not_intro h0)
      · exact hp
    rw [if_pos h0, hdone] at hphase
    exact ⟨.inr hphase, by rw [restStatus, if_neg (by rw [hphase]; decide), h0]⟩
  · rw [if_neg h0] at hphase herr
    exact ⟨.inl hphase, by rw [restStatus, if_pos hphase, herr]⟩

/-- A second call that finds the block at rest adds nothing. -/
theorem merges_of_rests {a b out1 out2 out : List Byte} {off1 off2 off : Nat} {eoi1 eoi : Bool}
    {s u t1 t2 : State} {d : Call} {cause : Cause} {status1 status : BitVec 3} {k n2 p2 : Nat}
    {buf2 : List Byte} (hs : ¬ Rests s)
    (heoi : eoi1 = true → eoi = true ∧ b = [])
    (hg : Goes (beginCall a out1 off1 eoi1 s) ⟨a, out1, off1, eoi1, 0, 0, none⟩ u d)
    (hm : Move u d (.ret cause status1 k) t1) (hend : status1 ≠ 0 ∨ cause = .done)
    (hoff : off ≤ out.length) (hroom : off + d.prod ≤ out.length) {inp2 : List Byte}
    (h2 : AdvanceReturns inp2 out2 off2 eoi t1 t2 status n2 p2 buf2) :
    Merges (a ++ b) out off eoi s t2 status (d.ip + k + n2) d.prod p2 off1 off2 d.out buf2 := by
  obtain ⟨hrests, hstatus⟩ := hm.rests_of_end hend
  obtain ⟨rfl, rfl, rfl, rfl, ht2⟩ := h2.of_rests (hm.call_of_ret hg.call_end) hrests
  obtain ⟨U, D, hG, hM, hrest⟩ := first_call (b := b) (eoi := eoi) hg hroom
  have hkeeps := hG.keeps
  have hfit := hm.fits_of_end hend hrest fun he => by
    rw [hkeeps.eoi]
    exact heoi (hg.keeps.eoi.symm.trans he)
  have hlast := hm.ret_transfer hM.regs hM.pend hfit
  have hret := hG.callReturns (hlast.callReturns hG.call_end)
  have hDoff : D.off = off := hkeeps.off
  refine ⟨_, D.out, advanceReturns_of_call hs hoff hret ?_, ?_, hM.length, fun j hj => ?_,
    fun j hj => absurd hj (Nat.not_lt_zero j), fun j hj => ?_⟩
  · have hip := hM.ip
    have hprod := hM.prod
    rw [hG.resps, hip, hprod, hstatus]
    rfl
  · rw [ht2]
  · have hnew := hM.new j hj
    rw [hDoff, hg.keeps.off] at hnew
    exact hnew
  · refine hM.kept j ?_
    rw [hDoff]
    exact hj

/-! ### The second call -/

section

variable {u1 t1 U1 : State} {d1 D1 : Call} {cause1 : Cause} {k1 : Nat} {out a' b out2 : List Byte}
  {off2 : Nat} {eoi : Bool}

/-- The one call where the first one stalled, after the same FETCHes, has the registers of the second
call at its start. -/
theorem mirrors_restart (hM : Mirrors 0 0 out u1 d1 U1 D1) (hk : k1 ≤ d1.rest.length)
    (hrest : D1.rest = d1.rest ++ b) (hm : Move u1 d1 (.ret cause1 0 k1) t1) :
    Mirrors (d1.ip + k1) d1.prod D1.out
      { beginCall a' out2 off2 eoi t1 with call := some ⟨a', out2, off2, eoi, 0, 0, d1.pend⟩ }
      ⟨a', out2, off2, eoi, 0, 0, d1.pend⟩ (fetched D1 k1 U1) (D1.ahead k1) := by
  have htake : D1.rest.take k1 = d1.rest.take k1 := by
    rw [hrest, List.take_append_of_le_length hk]
  have hK : k1 ≤ D1.rest.length := by
    rw [hrest, List.length_append]
    omega
  have hregs := fetched_regs hM.regs hK htake
  have hip := hM.ip
  have hprod := hM.prod
  refine ⟨?_, hM.pend, ?_, ?_, rfl, fun j hj => absurd hj (Nat.not_lt_zero j), fun _ _ => rfl⟩
  · rw [hregs, hm.eq_endCall]
    rfl
  · change D1.ip + k1 = 0 + (d1.ip + k1)
    omega
  · change D1.prod = 0 + d1.prod
    omega

theorem rest_ahead (c : Call) (k : Nat) : (c.ahead k).rest = c.rest.drop k := by
  rw [Call.rest, Call.rest, List.drop_drop]
  rfl

/-- The one call goes on from the stall of the first call as the second one does. -/
theorem second_call {u2 t2 : State} {d2 : Call} {cause2 : Cause} {status : BitVec 3} {k2 : Nat}
    (hinv1 : Inv u1) (hcall1 : u1.call = some d1) (hM : Mirrors 0 0 out u1 d1 U1 D1)
    (hrest : D1.rest = d1.rest ++ b) (hm1 : Move u1 d1 (.ret cause1 0 k1) t1)
    (hr1 : ∀ p, d1.pend = some p → Replays u1 p) (ha : a' = d1.rest.drop k1 ++ b)
    (heoi : D1.eoi = eoi)
    (hg2 : Goes (beginCall a' out2 off2 eoi t1) ⟨a', out2, off2, eoi, 0, 0, none⟩ u2 d2)
    (hm2 : Move u2 d2 (.ret cause2 status k2) t2) (hinv2 : Inv u2)
    (hspace : D1.off + d1.prod ≤ D1.out.length ∧ off2 ≤ out2.length ∧
      D1.out.length - D1.off = d1.prod + (out2.length - off2)) :
    ∃ U2 D2, CallReturns U1 { t2 with
        resps := .advanced status (D2.ip + k2) D2.prod D2.out :: U1.resps } ∧
      Mirrors (d1.ip + k1) d1.prod D1.out u2 d2 U2 D2 ∧ D2.off = D1.off := by
  have hk : k1 ≤ d1.rest.length := hm1.bytes_le
  have htake : D1.rest.take k1 = d1.rest.take k1 := by
    rw [hrest, List.take_append_of_le_length hk]
  have hU1 : U1.call = some D1 := by rw [hM.regs]
  have hV := mirrors_restart (a' := a') (out2 := out2) (off2 := off2) (eoi := eoi) hM hk hrest hm1
  have hVcall : (fetched D1 k1 U1).call = some (D1.ahead k1) := by rw [hV.regs]
  have hreplay := goes_replay (s := beginCall a' out2 off2 eoi t1)
    (c := ⟨a', out2, off2, eoi, 0, 0, none⟩) rfl rfl (q := d1.pend) fun p hp => by
      have hsl := ((hinv1.call d1 hcall1).2.2.2 p hp).1
      rw [hm1.eq_endCall]
      exact ⟨(fetched_phase d1 k1 u1).trans hsl,
        hm1.replays_fetched hinv1 hcall1 hsl (hr1 p hp)⟩
  have hg2' := hreplay.rest hg2 hm2
  have hkeeps := hg2'.keeps
  have hoff2 : d2.off = off2 := hkeeps.off
  have hlen2 : d2.out.length = out2.length := hkeeps.length
  have hle2 := (hinv2.call d2 hg2.call_end).2.2.1
  have hVrest : (D1.ahead k1).rest =
      Call.rest ⟨a', out2, off2, eoi, 0, 0, d1.pend⟩ ++ [] := by
    rw [rest_ahead, hrest, List.drop_append_of_le_length hk, ← ha, List.append_nil]
    rfl
  have hVroom : (D1.ahead k1).off + d1.prod + d2.prod ≤ (D1.ahead k1).out.length := by
    change D1.off + _ + _ ≤ D1.out.length
    omega
  obtain ⟨U2, D2, hG2, hM2, hrest2⟩ := Mirrors.goes hg2' hV hVrest hVroom
  have hKeeps := hG2.keeps
  have hOff2 : D2.off = D1.off := hKeeps.off
  have hLen2 : D2.out.length = D1.out.length := hKeeps.length
  have hProd2 := hM2.prod
  have hfit := Turn.fits_of_eq hm2.fits (hrest2.trans (List.append_nil _))
    ((hKeeps.eoi.trans heoi).trans hkeeps.eoi.symm) (fun hfull => by omega)
  have hlast := hm2.ret_transfer hM2.regs hM2.pend hfit
  have hresps : U2.resps = U1.resps := by
    rw [hG2.resps, fetched_frame]
  rw [hresps] at hlast
  refine ⟨U2, D2, ?_, hM2, hOff2⟩
  refine callReturns_of_step_eq (by rw [hU1]; exact Option.some_ne_none _)
    (by rw [hVcall]; exact Option.some_ne_none _) (hm1.step_fetched hM.regs hM.pend htake) ?_
  exact hG2.callReturns (hlast.callReturns hG2.call_end)

end

/-- A second call that goes on where the first one stalled. -/
theorem merges_of_stall {a b out1 out2 out : List Byte} {off1 off2 off : Nat} {eoi1 eoi : Bool}
    {s u1 t1 t2 : State} {d1 : Call} {cause1 : Cause} {status : BitVec 3} {k1 n2 p2 : Nat}
    {buf2 : List Byte} (hs : ¬ Rests s) (hinv0 : Inv (beginCall a out1 off1 eoi1 s))
    (hg : Goes (beginCall a out1 off1 eoi1 s) ⟨a, out1, off1, eoi1, 0, 0, none⟩ u1 d1)
    (hm : Move u1 d1 (.ret cause1 0 k1) t1) (hstall : cause1 ≠ .done)
    (hoff : off ≤ out.length) (hspace : out.length - off = d1.prod + (out2.length - off2))
    (h2 : AdvanceReturns (a.drop (d1.ip + k1) ++ b) out2 off2 eoi t1 t2 status n2 p2 buf2) :
    Merges (a ++ b) out off eoi s t2 status (d1.ip + k1 + n2) d1.prod p2 off1 off2 d1.out buf2 := by
  have hinv1 := hg.inv hinv0
  have hlive := (hinv1.call d1 hg.call_end).1
  have hphase : t1.phase = u1.phase := by
    rw [hm.eq_endCall, endCall_phase, if_pos rfl, fetched_phase]
  have hrests : ¬ Rests t1 := by
    rw [Rests, hphase]
    rcases hm.cause_of_status_zero rfl with ⟨-, hd, -⟩ | ⟨-, hd, -⟩ | ⟨hd, -⟩
    · exact not_or.mpr ⟨hlive, hd⟩
    · exact not_or.mpr ⟨hlive, hd⟩
    · exact absurd hd hstall
  obtain ⟨hoff2, u2, d2, cause2, k2, hg2, hm2, rfl, rfl, rfl⟩ :=
    h2.of_not_rests (hm.call_of_ret hg.call_end) hrests
  have hinv2 : Inv u2 := hg2.inv (inv_start eoi (hm.inv hinv1 hg.call_end)
    (fun h => hrests (.inl h)) hoff2 rfl)
  obtain ⟨U1, D1, hG, hM, hrest⟩ := first_call (b := b) (eoi := eoi) hg (off := off) (out := out)
    (by omega)
  have hD1off : D1.off = off := hG.keeps.off
  have hD1len : D1.out.length = out.length := hM.length
  have hrest1 : a.drop (d1.ip + k1) = d1.rest.drop k1 := by
    rw [Call.rest, List.drop_drop, hg.keeps.inp]
  obtain ⟨U2, D2, hret, hM2, hOff2⟩ := second_call hinv1 hg.call_end hM hrest hm
    (fun p hp => hg.replays hinv0 rfl hp) (by rw [hrest1]) hG.keeps.eoi hg2 hm2 hinv2
    ⟨by omega, hoff2, by rw [hD1off, hD1len]; exact hspace⟩
  have hD2off : D2.off = off := hOff2.trans hD1off
  refine ⟨_, D2.out, advanceReturns_of_call hs hoff (hG.callReturns hret) ?_, rfl,
    hM2.length.trans hD1len, fun j hj => ?_, fun j hj => ?_, fun j hj => ?_⟩
  · have hip : D2.ip + k2 = d1.ip + k1 + (d2.ip + k2) := by have := hM2.ip; omega
    have hprod : D2.prod = d1.prod + d2.prod := by have := hM2.prod; omega
    rw [hip, hprod, hG.resps]
    rfl
  · have hkept := hM2.kept (off + j) (by rw [hD2off]; omega)
    have hnew := hM.new j hj
    rw [hD1off, hg.keeps.off] at hnew
    exact hkept.trans hnew
  · have hnew := hM2.new j hj
    rw [hD2off, hg2.keeps.off] at hnew
    exact hnew
  · have hkept := hM2.kept j (by rw [hD2off]; omega)
    refine hkept.trans (hM.kept j ?_)
    rw [hD1off]
    omega

/-- Settles O60: at rest both calls do nothing; otherwise the first call ends with an error or in DONE,
which the one call repeats, or it stalls, and the one call goes on as the second. -/
theorem twoCallsAreOneCall : Obligations.TwoCallsAreOneCall := by
  intro a b out1 out2 out off1 off2 off eoi1 eoi s t1 t2 status1 status n1 p1 n2 p2 buf1 buf2 hinv
    hcall heoi hoff hspace h1 h2
  suffices Merges (a ++ b) out off eoi s t2 status (n1 + n2) p1 p2 off1 off2 buf1 buf2 from this
  by_cases hs : Rests s
  · obtain ⟨-, rfl, rfl, rfl, ht1⟩ := h1.of_rests hcall hs
    have hs1 : Rests t1 := by rw [ht1]; exact hs
    have hst : restStatus t1 = restStatus s := by rw [ht1]; rfl
    obtain ⟨rfl, rfl, rfl, rfl, ht2⟩ := h2.of_rests (by rw [ht1]; exact hcall) hs1
    refine ⟨_, out, by rw [hst]; exact advanceReturns_of_rests hcall hs _ _ _ _, ?_, rfl,
      fun j hj => absurd hj (Nat.not_lt_zero j), fun j hj => absurd hj (Nat.not_lt_zero j),
      fun _ _ => rfl⟩
    rw [ht2, ht1]
    rfl
  · obtain ⟨hoff1, u1, d1, cause1, k1, hg, hm, rfl, rfl, rfl⟩ := h1.of_not_rests hcall hs
    have hinv0 : Inv (beginCall a out1 off1 eoi1 s) :=
      inv_start eoi1 hinv (fun h => hs (.inl h)) hoff1 rfl
    by_cases hend : status1 ≠ 0 ∨ cause1 = .done
    · exact merges_of_rests hs heoi hg hm hend hoff (by omega) h2
    · obtain ⟨h0, hdone⟩ := not_or.mp hend
      obtain rfl := not_not.mp h0
      exact merges_of_stall hs hinv0 hg hm hdone hoff hspace h2

end Sys2Proof.Machine
end
